-- ==== Sys2Proof/Word.lean ====
section
/-! DEFINITION. The fixed-width formats of the KLT block (spec 30_encoding.md R70) as types, and a word of
either instruction format. Nothing here decodes a field: that is Decode.lean. -/

namespace Sys2Proof

/-- KEY format, 5 bits: `V`, `ROW[1:0]`, `COL[1:0]` from bit 4 down (R70, R71). -/
abbrev KeyCode := BitVec 5

/-- CMD format, 48 bits: one command of an action program (R70, R73). -/
abbrev Cmd := BitVec 48

/-- PIX format, 32 bits: one LED pixel word (R58, R70). -/
abbrev PixWord := BitVec 32

/-- RGB format, 24 bits, as the colour ROM stores a colour (R53, R70). -/
abbrev RgbBits := BitVec 24

/-- GLY format, 25 bits: a letter bitmap, bit `i = 5*row + col` is cell (row, col) (R52, R70). -/
abbrev Glyph := BitVec 25

/-- NOTE format, 32 bits, as the melody ROM stores a note (R54, R70). -/
abbrev NoteBits := BitVec 32

/-- A word of one of the two instruction formats. A decoder knows every length from the format alone (R70, R78). -/
inductive Code where
  /-- a KEY code, from the scanner to the dispatcher -/
  | key (c : KeyCode)
  /-- a CMD word, from the action program ROM -/
  | cmd (w : Cmd)
deriving DecidableEq, Repr

end Sys2Proof
end

