-- ==== Sys2Proof/Config.lean ====
section
/-! DEFINITION. What a build of the block fixes (spec 00_scope.md R5, R6, R34; 93_implementation_defined.md),
and the values the spec leaves open as opaque constants, of which Lean can prove nothing. -/

namespace Sys2Proof

/-- A colour of three 8-bit channels (R7, R53). -/
structure Rgb where
  r : BitVec 8
  g : BitVec 8
  b : BitVec 8
deriving DecidableEq, Repr, Inhabited

/-- A melody entry: frequency in Hz and duration in ms, each 16 bits unsigned (R54). -/
structure Note where
  freq : BitVec 16
  ms : BitVec 16
deriving DecidableEq, Repr, Inhabited

/-- The two admissible colour-to-word layouts (R58, D11). -/
inductive Pack where
  | grbHi
  | gLo
deriving DecidableEq, Repr, Inhabited

/-- The glyph cadence (R5, D16): one frame and a hold, or 25 replays. -/
inductive RenderMode where
  | single
  | replay
deriving DecidableEq, Repr, Inhabited

/-- The default glyphs A, E, I, O, U (R52, this spec's drawing). -/
def defaultGlyphs : Vector Glyph 5 := #v[0x118FE2E, 0x1F0BC3F, 0x1F2109F, 0x0E8C62E, 0x0E8C631]

/-- The default melody, C4 to C5, 500 ms each (R54). -/
def defaultMelody : Vector Note 8 :=
  #v[⟨262, 500⟩, ⟨294, 500⟩, ⟨330, 500⟩, ⟨349, 500⟩, ⟨392, 500⟩, ⟨440, 500⟩, ⟨494, 500⟩, ⟨523, 500⟩]

/-- The default `SETTLE_CYC = 1 + max(1, ceil(CLK_HZ / 1 000 000))` (R5). -/
def defaultSettleCyc (clkHz : Nat) : Nat := 1 + max 1 ((clkHz + 999999) / 1000000)

/-- The implementation parameters of R5, every one of them an argument of the model (`ACTPROG` is the ROM `ActProg` beside
them). A term of this type is an admissible configuration; any other is refused by the type (93 I-2, I-11; log entry 1):
`CLK_HZ` is a positive multiple of 1000 and `SETTLE_CYC ≥ 2` (R5, R233); a parameter whose value the source fixes has that
value, since R5 makes it normative; and one that a decision of the spec fixes, without calling it a default, has that value
(log entry 11). The fields' default values are R5's own; where R5 leaves a parameter open without a default (`CLK_HZ`,
`BUZZER_FREQ_HZ`), the value of the vectors. A statement about the block holds for every value of this structure. -/
structure Params where
  /-- `CLK_HZ` (OPEN, D2) -/
  clkHz : Nat := 8000
  /-- `PWM_RES` (source §4.3) -/
  pwmRes : Nat := 4096
  /-- `PWM_LEVEL_ON` (source §4.3) -/
  pwmLevelOn : Nat := pwmRes / 2
  /-- `DIV_INT_BITS` (D21) -/
  divIntBits : Nat := 8
  /-- `DIV_FRAC_BITS` (D21) -/
  divFracBits : Nat := 4
  /-- `SYNC_STAGES`: the registers `sync1` and `sync2` are its stages (D6: "fixed, because the timing rules assume it") -/
  syncStages : Nat := 2
  /-- `SETTLE_CYC`: cycles a row is driven before its first column sample (D7) -/
  settleCyc : Nat := defaultSettleCyc clkHz
  /-- `IDLE_MS` (source §4.5) -/
  idleMs : Nat := 100
  /-- `BEEP_GAP_MS` (source §4.3) -/
  beepGapMs : Nat := 200
  /-- `MEL_GAP_MS` (source §4.3) -/
  melGapMs : Nat := 150
  /-- `REBOOT_PAUSE_MS` (source §4.4) -/
  rebootPauseMs : BitVec 16 := 100
  /-- `INTRO_BEEP_TIMES` (source §4.4) -/
  introBeepTimes : BitVec 8 := 2
  /-- `INTRO_BEEP_MS` (source §4.4) -/
  introBeepMs : BitVec 16 := 200
  /-- `BUZZER_FREQ_HZ` (OPEN, D20) -/
  buzzerFreqHz : BitVec 16 := 1000
  /-- `MELODY[0..7]` (OPEN, D19) -/
  melody : Vector Note 8 := defaultMelody
  /-- `GLYPH[A,E,I,O,U]` (OPEN, D14) -/
  glyph : Vector Glyph 5 := defaultGlyphs
  /-- `C_OFF` (source §3, §4.4) -/
  off : Rgb := ⟨0, 0, 0⟩
  /-- `C_BLUE_FULL` (D12) -/
  blueFull : Rgb := ⟨0, 0, 255⟩
  /-- `C_RED_HALF` (D12) -/
  redHalf : Rgb := ⟨127, 0, 0⟩
  /-- `C_GREEN_HALF` (D12) -/
  greenHalf : Rgb := ⟨0, 127, 0⟩
  /-- `C_WHITE_DIM` (source §3, §4.4; 90_conflicts.md C5: the bytes are not equalised) -/
  whiteDim : Rgb := ⟨32, 64, 16⟩
  /-- `LETTER_COLOR` (D13) -/
  letterColor : Rgb := redHalf
  /-- `PACK` (OPEN, D11) -/
  pack : Pack := .grbHi
  /-- `RENDER_MODE` (D16) -/
  renderMode : RenderMode := .single
  /-- `GLYPH_HOLD_MS` (D16, 90_conflicts.md C4) -/
  glyphHoldMs : Nat := 3000
  /-- `REPLAY_STEP_MS` (source §4.2) -/
  replayStepMs : Nat := 100
  /-- `REPLAY_TAIL_MS` (source §4.2) -/
  replayTailMs : Nat := 500
  /-- `FILL_HOLD_MS` (D18, 90_conflicts.md C6) -/
  fillHoldMs : Nat := 0
  /-- `DCNT_W`: the width of the delay counter `dcnt` (D31) -/
  dcntW : Nat := 48
  clkOk : 0 < clkHz ∧ clkHz % 1000 = 0 := by decide
  settleOk : 2 ≤ settleCyc := by decide
  /-- the values the source fixes -/
  sourceFixed : pwmRes = 4096 ∧ pwmLevelOn = 2048 ∧ idleMs = 100 ∧ beepGapMs = 200 ∧ melGapMs = 150 ∧
    rebootPauseMs = 100 ∧ introBeepTimes = 2 ∧ introBeepMs = 200 ∧ off = ⟨0, 0, 0⟩ ∧ whiteDim = ⟨32, 64, 16⟩ ∧
    replayStepMs = 100 ∧ replayTailMs = 500 := by decide
  /-- the values the spec's decisions D6, D21 and D31 fix -/
  decisionFixed : divIntBits = 8 ∧ divFracBits = 4 ∧ syncStages = 2 ∧ dcntW = 48 := by decide
deriving DecidableEq, Repr, Inhabited

/-- The action program ROM (R55): one list of commands for each key index 0..15. -/
abbrev ActProg := Vector (List Cmd) 16

/-- The block's input ports other than `clk` (R21), as sampled at the edge that ends one cycle (R8). -/
structure Pins where
  /-- `rst`, active high -/
  rst : Bool
  /-- `col_n`, bit c is column c, 0 = active -/
  colN : BitVec 4
  /-- `led_ready` -/
  ledReady : Bool
deriving DecidableEq, Repr, Inhabited

/-! ### Open values: opaque, so that no proof can see them -/

/-- The parameters of the build at hand: some admissible configuration (93 I-2 to I-11, treatment `parameter`).
DESIGN CHOICE, log entry 1. -/
opaque Config.build : Params

/-- The levels on the input ports in a cycle for which the state prescribes none: any value in each cycle
(93 I-12, I-13; R109). DESIGN CHOICE, log entry 2. -/
opaque Config.freePins : (cycle : Nat) → Pins

/-- The value a `w`-bit register holds after a write of a number `n` that does not fit: R7 gives a register of
width N the values 0 .. 2^N - 1 and no wrap-around, and says nothing of a larger number. The cycle makes each draw
fresh. DESIGN CHOICE, log entry 3. -/
opaque Config.overWidth : (cycle : Nat) → (w : Nat) → (n : Nat) → BitVec w

/-- Bits 31..24 of a pixel word under `G_LO`: a draw fixed per build (R58; 93 I-3). DESIGN CHOICE, log entry 4. -/
opaque Config.gLoHigh : Params → Rgb → BitVec 8

/-- Bits 7..0 of a pixel word under `G_LO`: a draw fixed per build (R58; 93 I-3). DESIGN CHOICE, log entry 4. -/
opaque Config.gLoLow : Params → Rgb → BitVec 8

end Sys2Proof
end

