-- ==== Sys2Proof/Syntax.lean ====
section
/-! DEFINITION. The instructions of the block: the 17 KEY codes (spec 30_encoding.md R72) and the 8 CMD opcodes
(R74), one constructor per row of spec/opcode_table.json. -/

namespace Sys2Proof

/-- A KEY code is an instruction of the dispatcher (R72); a CMD is one command of an action program (R74).
An operand is the field as it stands in the word, with no extension, scaling or shift (R75). -/
inductive Instr where
  /-- KEY_NONE: the scan found no key (R193) -/
  | keyNone
  /-- KEY_1: key '1', PlayIntroSequence (R177) -/
  | key1
  /-- KEY_2: key '2', Unmapped (R178) -/
  | key2
  /-- KEY_3: key '3', Unmapped (R179) -/
  | key3
  /-- KEY_A: key 'A', AllColor(off) (R180) -/
  | keyA
  /-- KEY_4: key '4', Unmapped (R181) -/
  | key4
  /-- KEY_5: key '5', Unmapped (R182) -/
  | key5
  /-- KEY_6: key '6', Unmapped (R183) -/
  | key6
  /-- KEY_B: key 'B', AllColor(blue, full) (R184) -/
  | keyB
  /-- KEY_7: key '7', Unmapped (R185) -/
  | key7
  /-- KEY_8: key '8', Unmapped (R186) -/
  | key8
  /-- KEY_9: key '9', Unmapped (R187) -/
  | key9
  /-- KEY_C: key 'C', AllColor(red, 50%) (R188) -/
  | keyC
  /-- KEY_STAR: key '*', Unmapped (R189) -/
  | keyStar
  /-- KEY_0: key '0', RequestReboot (R190) -/
  | key0
  /-- KEY_HASH: key '#', AllColor(white, dim) (R191) -/
  | keyHash
  /-- KEY_D: key 'D', AllColor(green, 50%) (R192) -/
  | keyD
  /-- END: the action is done, back to Idle (R172) -/
  | endProg
  /-- BEEP times, freq_hz, duration_ms (R148) -/
  | beep (times : BitVec 8) (freq ms : BitVec 16)
  /-- MELODY: play the eight notes of the melody ROM (R151) -/
  | melody
  /-- LETTER g: render the glyph of letter index g (R123) -/
  | letter (g : BitVec 8)
  /-- FILL k: render a solid frame of colour index k (R122) -/
  | fill (k : BitVec 8)
  /-- PAUSE duration_ms (R173) -/
  | pause (ms : BitVec 16)
  /-- REBOOT: raise the reboot request and halt (R175) -/
  | reboot
  /-- RESERVED_OP7: the reserved opcode 7, a model fault when fetched (R76, R171) -/
  | reservedOp7
deriving DecidableEq, Repr

end Sys2Proof
end

