-- ==== Sys2Proof/Decode.lean ====
section
/-! DEFINITION. Decoding of KEY codes and CMD words (spec 30_encoding.md R71 to R76), the encoder written from the
same tables, the stored formats of colours and notes (R70), and the assembler of R79 and R80. -/

namespace Sys2Proof

/-! ### The fields of a KEY code (R71) -/

/-- V, bit 4: a key was found. -/
def keyV (c : KeyCode) : Bool := c.getLsbD 4
/-- ROW, bits 3..2. -/
def keyRow (c : KeyCode) : BitVec 2 := c.extractLsb' 2 2
/-- COL, bits 1..0. -/
def keyCol (c : KeyCode) : BitVec 2 := c.extractLsb' 0 2
/-- The key index `key[3:0] = 4*r + c`, which selects the action program (R71). -/
def keyIndex (c : KeyCode) : BitVec 4 := c.extractLsb' 0 4
/-- The code the scanner produces for key (r, c): `{1, r, c}` (R71). -/
def keyCodeOf (r c : BitVec 2) : KeyCode := 1#1 ++ r ++ c

/-! ### The fields of a CMD word (R73) -/

/-- OP, bits 47..45. -/
def cmdOp (w : Cmd) : BitVec 3 := w.extractLsb' 45 3
/-- RSV, bits 44..40. -/
def cmdRsv (w : Cmd) : BitVec 5 := w.extractLsb' 40 5
/-- A, bits 39..32. -/
def cmdA (w : Cmd) : BitVec 8 := w.extractLsb' 32 8
/-- F, bits 31..16. -/
def cmdF (w : Cmd) : BitVec 16 := w.extractLsb' 16 16
/-- D, bits 15..0. -/
def cmdD (w : Cmd) : BitVec 16 := w.extractLsb' 0 16
/-- A word from its five fields (R73). -/
def mkCmd (op : BitVec 3) (rsv : BitVec 5) (a : BitVec 8) (f d : BitVec 16) : Cmd := op ++ rsv ++ a ++ f ++ d

/-! ### The decoder -/

/-- The KEY decoder (R71, R72): every code with V = 0 is "none", whatever the other bits hold. -/
def decodeKey (c : KeyCode) : Instr :=
  if keyV c then
    match (keyIndex c).toNat with
    | 0 => .key1
    | 1 => .key2
    | 2 => .key3
    | 3 => .keyA
    | 4 => .key4
    | 5 => .key5
    | 6 => .key6
    | 7 => .keyB
    | 8 => .key7
    | 9 => .key8
    | 10 => .key9
    | 11 => .keyC
    | 12 => .keyStar
    | 13 => .key0
    | 14 => .keyHash
    | _ => .keyD
  else .keyNone

/-- The CMD decoder (R74, R171), total on any 48-bit word: RSV bits and fields that must be 0 are ignored (R76). -/
def decodeCmd (w : Cmd) : Instr :=
  match (cmdOp w).toNat with
  | 0 => .endProg
  | 1 => .beep (cmdA w) (cmdF w) (cmdD w)
  | 2 => .melody
  | 3 => .letter (cmdA w)
  | 4 => .fill (cmdA w)
  | 5 => .pause (cmdD w)
  | 6 => .reboot
  | _ => .reservedOp7

/-- The instruction a word of either format stands for. No state or mode changes it (R78). -/
def decode : Code → Instr
  | .key c => decodeKey c
  | .cmd w => decodeCmd w

/-- Why a run of bits is no word of the block. -/
inductive CodeError where
  /-- no instruction format has this many bits (R70, R78); refusing is safe -/
  | noFormat (nbits : Nat)
  /-- the number has a bit above the format's width (R78); refusing is safe -/
  | tooWide (width : Nat)
deriving DecidableEq, Repr

/-- A number as a word of `width` bits, or the name of what is wrong. -/
def codeOfWidth (width w : Nat) (mk : Nat → Code) : Except CodeError Code :=
  if w < 2 ^ width then .ok (mk w) else .error (.tooWide width)

/-- The word that `nbits` bits (whole bytes, or the format's own width) with value `w` are: 5 bits or one byte for a
KEY code, 48 bits for a CMD (R70, R78). A byte with a bit above the KEY format is refused (DESIGN CHOICE, log entry 13). -/
def codeOfBits (nbits w : Nat) : Except CodeError Code :=
  match nbits with
  | 5 => codeOfWidth 5 w (fun n => .key (BitVec.ofNat 5 n))
  | 8 => codeOfWidth 5 w (fun n => .key (BitVec.ofNat 5 n))
  | 48 => codeOfWidth 48 w (fun n => .cmd (BitVec.ofNat 48 n))
  | n => .error (.noFormat n)

/-- The instruction the decoder reads from `nbits` bits of value `w`, numbered as spec/opcode_table.json numbers
them; none where it refuses. -/
def decodeTableWord (nbits w : Nat) : Option Instr :=
  match codeOfBits nbits w with
  | .ok c => some (decode c)
  | .error _ => none

/-! ### The encoder (R72, R74, R79) -/

/-- The canonical word of an instruction: NONE is 0x00 (R71), and every field that must be 0 is 0 (R74). -/
def encode : Instr → Code
  | .keyNone => .key 0x00
  | .key1 => .key 0x10
  | .key2 => .key 0x11
  | .key3 => .key 0x12
  | .keyA => .key 0x13
  | .key4 => .key 0x14
  | .key5 => .key 0x15
  | .key6 => .key 0x16
  | .keyB => .key 0x17
  | .key7 => .key 0x18
  | .key8 => .key 0x19
  | .key9 => .key 0x1A
  | .keyC => .key 0x1B
  | .keyStar => .key 0x1C
  | .key0 => .key 0x1D
  | .keyHash => .key 0x1E
  | .keyD => .key 0x1F
  | .endProg => .cmd (mkCmd 0 0 0 0 0)
  | .beep n f d => .cmd (mkCmd 1 0 n f d)
  | .melody => .cmd (mkCmd 2 0 0 0 0)
  | .letter g => .cmd (mkCmd 3 0 g 0 0)
  | .fill k => .cmd (mkCmd 4 0 k 0 0)
  | .pause d => .cmd (mkCmd 5 0 0 0 d)
  | .reboot => .cmd (mkCmd 6 0 0 0 0)
  | .reservedOp7 => .cmd (mkCmd 7 0 0 0 0)

/-- The number a word is, and how many bits its format has (R70). -/
def codeBits : Code → Nat × Nat
  | .key c => (5, c.toNat)
  | .cmd w => (48, w.toNat)

/-! ### Stored formats of the colour and melody ROMs (R70) -/

/-- RGB: `{R[7:0], G[7:0], B[7:0]}` (R53, R70). -/
def rgbBits (c : Rgb) : RgbBits := c.r ++ c.g ++ c.b
/-- The colour a stored RGB entry is. -/
def rgbOf (w : RgbBits) : Rgb := ⟨w.extractLsb' 16 8, w.extractLsb' 8 8, w.extractLsb' 0 8⟩
/-- NOTE: `{F[15:0], D[15:0]}` (R54, R70). -/
def noteBits (n : Note) : NoteBits := n.freq ++ n.ms
/-- The note a stored NOTE entry is. -/
def noteOf (w : NoteBits) : Note := ⟨w.extractLsb' 16 16, w.extractLsb' 0 16⟩

/-! ### The assembler (R79, R80) -/

/-- The letter names of `LETTER` (R79). -/
inductive LetterName where
  | a
  | e
  | i
  | o
  | u
deriving DecidableEq, Repr

/-- The colour names of `FILL` (R79). -/
inductive ColorName where
  | off
  | blueFull
  | redHalf
  | greenHalf
  | whiteDim
deriving DecidableEq, Repr

/-- The letter index of a letter name: A, E, I, O, U are 0 to 4 (R79). -/
def letterIndex : LetterName → BitVec 8
  | .a => 0
  | .e => 1
  | .i => 2
  | .o => 3
  | .u => 4

/-- The colour index of a colour name (R53, R79). -/
def colorIndex : ColorName → BitVec 8
  | .off => 0
  | .blueFull => 1
  | .redHalf => 2
  | .greenHalf => 3
  | .whiteDim => 4

/-- A line of an action program (R79), the pseudo-instructions of R80 among them. Names are resolved: a line with
an unknown letter or colour name is no term of this type (DESIGN CHOICE, log entry 14). -/
inductive AsmLine where
  | endProg
  | beep (times freq ms : Nat)
  | melody
  | letter (l : LetterName)
  | fill (c : ColorName)
  | pause (ms : Nat)
  | reboot
  | intro
  | nop
  | rebootAfter (ms : Nat)
deriving DecidableEq, Repr

/-- The assembly errors of R79. -/
inductive AsmError where
  /-- times > 255 -/
  | times (n : Nat)
  /-- freq > 65 535 -/
  | freq (n : Nat)
  /-- ms > 65 535 -/
  | ms (n : Nat)
deriving DecidableEq, Repr

/-- `BEEP times, freq, ms` with its operands checked (R79). -/
def asmBeep (times freq ms : Nat) : Except AsmError (List Instr) :=
  if 255 < times then .error (.times times)
  else if 65535 < freq then .error (.freq freq)
  else if 65535 < ms then .error (.ms ms)
  else .ok [.beep (BitVec.ofNat 8 times) (BitVec.ofNat 16 freq) (BitVec.ofNat 16 ms)]

/-- `PAUSE ms` with its operand checked (R79). -/
def asmPause (ms : Nat) : Except AsmError (List Instr) :=
  if 65535 < ms then .error (.ms ms) else .ok [.pause (BitVec.ofNat 16 ms)]

/-- The commands after the beep in the expansion of `INTRO` (R80). -/
def introTail : List Instr :=
  [.letter (letterIndex .a), .letter (letterIndex .e), .letter (letterIndex .i), .letter (letterIndex .o),
    .letter (letterIndex .u), .melody]

/-- The exact expansion of one line (R79, R80), for a build's parameters: `INTRO` has no operand, and its beep is
`BEEP INTRO_BEEP_TIMES, BUZZER_FREQ_HZ, INTRO_BEEP_MS` (R80), whose values fit their fields by type. -/
def expandLine (p : Params) : AsmLine → Except AsmError (List Instr)
  | .endProg => .ok [.endProg]
  | .beep n f d => asmBeep n f d
  | .melody => .ok [.melody]
  | .letter l => .ok [.letter (letterIndex l)]
  | .fill c => .ok [.fill (colorIndex c)]
  | .pause d => asmPause d
  | .reboot => .ok [.reboot]
  | .intro => .ok (.beep p.introBeepTimes p.buzzerFreqHz p.introBeepMs :: introTail)
  | .nop => asmBeep 0 0 0
  | .rebootAfter d =>
    match asmPause d with
    | .ok is => .ok (is ++ [.reboot])
    | .error e => .error e

/-- The CMD words among the encodings of a list of instructions. -/
def cmdWords : List Instr → List Cmd
  | [] => []
  | i :: is =>
    match encode i with
    | .cmd w => w :: cmdWords is
    | .key _ => cmdWords is

/-- An action program from its lines (R79). -/
def assemble (p : Params) : List AsmLine → Except AsmError (List Cmd)
  | [] => .ok []
  | l :: ls =>
    match expandLine p l, assemble p ls with
    | .ok is, .ok ws => .ok (cmdWords is ++ ws)
    | .error e, _ => .error e
    | _, .error e => .error e

end Sys2Proof
end

