-- ==== Sys2Proof/WellFormed.lean ====
section
/-! DEFINITION. Well-formedness: of an instruction (spec 30_encoding.md R76), and of an action program ROM with the
five named checks of R81. -/

namespace Sys2Proof

/-- Why an instruction is refused at the configuration boundary (R76 (a)). -/
inductive InstrError where
  /-- the reserved opcode 7 (R76) -/
  | reservedOp
  /-- a letter or colour index that has no entry (R76) -/
  | reservedIndex
deriving DecidableEq, Repr

/-- The check of one instruction: opcode 7 and indices 5 and above are refused by name (R76). -/
def Instr.check : Instr → Except InstrError Unit
  | .reservedOp7 => .error .reservedOp
  | .letter g => if g.toNat ≤ 4 then .ok () else .error .reservedIndex
  | .fill k => if k.toNat ≤ 4 then .ok () else .error .reservedIndex
  | .keyNone => .ok ()
  | .key1 => .ok ()
  | .key2 => .ok ()
  | .key3 => .ok ()
  | .keyA => .ok ()
  | .key4 => .ok ()
  | .key5 => .ok ()
  | .key6 => .ok ()
  | .keyB => .ok ()
  | .key7 => .ok ()
  | .key8 => .ok ()
  | .key9 => .ok ()
  | .keyC => .ok ()
  | .keyStar => .ok ()
  | .key0 => .ok ()
  | .keyHash => .ok ()
  | .keyD => .ok ()
  | .endProg => .ok ()
  | .beep _ _ _ => .ok ()
  | .melody => .ok ()
  | .pause _ => .ok ()
  | .reboot => .ok ()

/-- The instruction passes `Instr.check`. -/
def Instr.wf (i : Instr) : Bool := i.check == .ok ()

/-- A command word is `END` or `REBOOT`, the two that may end a program (R81 `wf_term`). -/
def isTerm (w : Cmd) : Bool := cmdOp w == 0 || cmdOp w == 6

/-- `wf_len`: 1 to 8 commands (R81). -/
def wfLen (l : List Cmd) : Bool := 1 ≤ l.length && l.length ≤ 8

/-- `wf_term`: the last command is `END` or `REBOOT` and no earlier one is (R81). -/
def wfTerm : List Cmd → Bool
  | [] => false
  | [w] => isTerm w
  | w :: v :: l => !isTerm w && wfTerm (v :: l)

/-- `wf_op` of one word: OP is not 7 (R81). -/
def wfOp (w : Cmd) : Bool := cmdOp w != 7

/-- `wf_rsv` of one word: RSV is 0, and every field that R74 marks "must be 0" is 0 (R81). A word with OP = 7 has no
such field; `wf_op` refuses it. -/
def wfRsv (w : Cmd) : Bool :=
  cmdRsv w == 0 &&
    match (cmdOp w).toNat with
    | 0 => cmdA w == 0 && cmdF w == 0 && cmdD w == 0
    | 1 => true
    | 2 => cmdA w == 0 && cmdF w == 0 && cmdD w == 0
    | 3 => cmdF w == 0 && cmdD w == 0
    | 4 => cmdF w == 0 && cmdD w == 0
    | 5 => cmdA w == 0 && cmdF w == 0
    | 6 => cmdA w == 0 && cmdF w == 0 && cmdD w == 0
    | _ => true

/-- `wf_idx` of one word: a `LETTER` or `FILL` has A at most 4 (R81). -/
def wfIdx (w : Cmd) : Bool := !(cmdOp w == 3 || cmdOp w == 4) || decide ((cmdA w).toNat ≤ 4)

/-- A word passes the three checks of R81 that look at one command. -/
def wfWord (w : Cmd) : Bool := wfOp w && wfRsv w && wfIdx w

/-- Which named check of R81 a program fails, in the order R81 lists them. -/
inductive ProgError where
  | wfLen
  | wfTerm
  | wfOp
  | wfRsv
  | wfIdx
deriving DecidableEq, Repr

/-- The check of one program (R81). -/
def checkProg (l : List Cmd) : Except ProgError Unit :=
  if !wfLen l then .error .wfLen
  else if !wfTerm l then .error .wfTerm
  else if !l.all wfOp then .error .wfOp
  else if !l.all wfRsv then .error .wfRsv
  else if !l.all wfIdx then .error .wfIdx
  else .ok ()

/-- One program is well-formed (R81). -/
def wfProg (l : List Cmd) : Bool := wfLen l && wfTerm l && l.all wfWord

/-- A value of `ACTPROG` is well-formed: every list passes every check (R81). -/
def wfActProg (a : ActProg) : Bool := a.toList.all wfProg

end Sys2Proof
end

