-- ==== Sys2Proof/Machine/Rom.lean ====
section
/-! DEFINITION. The read-only tables (spec 20_memory.md R50 to R56) and the reference action program ROM
(43_dispatcher.md R176). A read is combinational and returns the whole entry (R56); an index with no entry gives none. -/

namespace Sys2Proof.Machine

/-- `LAYOUT(r, c)`: the character of a key (R51). It only names codes; the block never emits it. -/
def layout (r c : BitVec 2) : Char :=
  match r.toNat, c.toNat with
  | 0, 0 => '1'
  | 0, 1 => '2'
  | 0, 2 => '3'
  | 0, _ => 'A'
  | 1, 0 => '4'
  | 1, 1 => '5'
  | 1, 2 => '6'
  | 1, _ => 'B'
  | 2, 0 => '7'
  | 2, 1 => '8'
  | 2, 2 => '9'
  | 2, _ => 'C'
  | _, 0 => '*'
  | _, 1 => '0'
  | _, 2 => '#'
  | _, _ => 'D'

/-- The character of a KEY code, none for "none" (R71, R72). -/
def keyChar (c : KeyCode) : Option Char := if keyV c then some (layout (keyRow c) (keyCol c)) else none

/-- `COLOR[k]` (R53): five entries; indices 5 and above have none. -/
def colorRom (p : Params) (k : Nat) : Option Rgb :=
  match k with
  | 0 => some p.off
  | 1 => some p.blueFull
  | 2 => some p.redHalf
  | 3 => some p.greenHalf
  | 4 => some p.whiteDim
  | _ => none

/-- `GLYPH[g]` (R52): five entries; indices 5 and above have none. -/
def glyphRom (p : Params) (g : Nat) : Option Glyph := p.glyph[g]?

/-- `MELODY[i]` for a note index 0..7 (R54). -/
def melodyRom (p : Params) (i : BitVec 3) : Note := p.melody.get i.toFin

/-- The toy configuration of spec/95_test_vectors.md: `CLK_HZ = 8000`, `SETTLE_CYC = 2`, `BUZZER_FREQ_HZ = 1000` and
every default. Tests use it; no meaning depends on it. -/
def toyParams : Params := {}

/-- The program of an Unmapped key (R77, R178): `END`. -/
def unmappedProg : List Cmd := [0x000000000000]

/-- The program of key '1' (R176, R177): `INTRO` and `END`; its first word is `BEEP INTRO_BEEP_TIMES, BUZZER_FREQ_HZ,
INTRO_BEEP_MS` (R80). -/
def introProg (p : Params) : List Cmd :=
  [mkCmd 1 0 p.introBeepTimes p.buzzerFreqHz p.introBeepMs, 0x600000000000, 0x600100000000, 0x600200000000, 0x600300000000,
    0x600400000000, 0x400000000000, 0x000000000000]

/-- The program of key '0' (R176, R190): `PAUSE REBOOT_PAUSE_MS` and `REBOOT`. -/
def rebootProg (p : Params) : List Cmd := [mkCmd 5 0 0 0 p.rebootPauseMs, 0xC00000000000]

/-- `ACTPROG_REF` (R176): the normative value of `ACTPROG`, by key index. -/
def actProgRef (p : Params) : ActProg :=
  #v[introProg p,
    unmappedProg,
    unmappedProg,
    [0x800000000000, 0x000000000000],
    unmappedProg,
    unmappedProg,
    unmappedProg,
    [0x800100000000, 0x000000000000],
    unmappedProg,
    unmappedProg,
    unmappedProg,
    [0x800200000000, 0x000000000000],
    unmappedProg,
    rebootProg p,
    [0x800400000000, 0x000000000000],
    [0x800300000000, 0x000000000000]]

/-- `ACTPROG[k]` for a key index k (R55). -/
def programOf (a : ActProg) (k : BitVec 4) : List Cmd := a.get k.toFin

end Sys2Proof.Machine
end

