-- ==== Sys2Proof/Machine/State.lean ====
section
/-! DEFINITION. The state of the block (spec 10_state.md R23, R24), what can stop a step, and the state right after
reset (70_reset_and_hazards.md R230). -/

namespace Sys2Proof.Machine

/-- The phase register `ph` (R23): exactly the 15 named values; code 15 is no value of it (93 I-19). -/
inductive Phase where
  | idleWait
  | ksSettle
  | ksCol
  | ksRel
  | dispFetch
  | beepOn
  | beepGap
  | melOn
  | melGap
  | frEmit
  | frStep
  | frHold
  | pauseW
  | halt
  | fault
deriving DecidableEq, Repr

/-- `fault_code` (R24, R212), the record of the block's own model fault. -/
inductive FaultCode where
  | none
  | reservedOp
  | reservedIndex
  | progOverrun
deriving DecidableEq, Repr

/-- `fr_kind` (R24): 0 = FILL, 1 = LETTER. -/
inductive FrameKind where
  | fill
  | letter
deriving DecidableEq, Repr

/-- One cycle's whole content: every register of R24 (enumerated ones as types of names, log entry 9), and beside them the
build's parameters and action program ROM (R34, R55: no step changes them; log entry 1) and the model's own input queue and
cycle counter (log entry 2). There is no memory (R50; log entry 10). -/
structure State where
  /-- `ph`, 4 bits (R23) -/
  ph : Phase
  /-- `fault_code`, 2 bits -/
  faultCode : FaultCode
  /-- `dcnt`: remaining cycles of the current wait phase -/
  dcnt : BitVec 48
  /-- `scnt`: remaining settle cycles -/
  scnt : BitVec 16
  /-- `ks_r`: row being scanned -/
  ksR : BitVec 2
  /-- `ks_c`: column being sampled -/
  ksC : BitVec 2
  /-- `row_n`: row line drive (port) -/
  rowN : BitVec 4
  /-- `sync1`: first synchroniser stage of `col_n` -/
  sync1 : BitVec 4
  /-- `sync2`: second synchroniser stage, the value the scanner reads -/
  sync2 : BitVec 4
  /-- `key`: last scanned key code (R25) -/
  key : KeyCode
  /-- `apc`: index of the current command -/
  apc : BitVec 4
  /-- `tg_rem`: beeps still to sound -/
  tgRem : BitVec 8
  /-- `tg_d`: beep duration in ms -/
  tgD : BitVec 16
  /-- `tg_lvl`: compare level of the current beep -/
  tgLvl : BitVec 13
  /-- `tg_note`: index of the current note -/
  tgNote : BitVec 3
  /-- `fr_kind`, 1 bit -/
  frKind : FrameKind
  /-- `fr_idx`: colour or letter index -/
  frIdx : BitVec 3
  /-- `fr_pix`: frame index of the word on `led_word` -/
  frPix : BitVec 5
  /-- `fr_rep`: replay count -/
  frRep : BitVec 5
  /-- `led_valid` (port) -/
  ledValid : Bool
  /-- `led_word` (port) -/
  ledWord : PixWord
  /-- `pwm_cnt`: PWM counter -/
  pwmCnt : BitVec 12
  /-- `pwm_frac`: fractional divider accumulator -/
  pwmFrac : BitVec 12
  /-- `pwm_div16`: PWM divider in 1/16 units -/
  pwmDiv16 : BitVec 12
  /-- `pwm_level`: PWM compare level -/
  pwmLevel : BitVec 13
  /-- `reboot_req` (port) -/
  rebootReq : Bool
  /-- `log_valid` (port) -/
  logValid : Bool
  /-- `log_code` (port) -/
  logCode : KeyCode
  /-- configuration: the build's parameters (R5, R34) -/
  cfg : Params
  /-- configuration: the action program ROM `ACTPROG` (R55) -/
  rom : ActProg
  /-- model: the input levels prescribed for this and the following cycles; past its end they are free -/
  inputs : List Pins
  /-- model: which cycle this is, the argument of the free values -/
  cycle : Nat
deriving DecidableEq, Repr

/-- What stops the model. The block's own `FAULT` (R212) is no stop: it is a phase, entered by a next state. -/
inductive Fault where
  /-- The renderer is asked for a frame word that no ROM entry gives: an index `fr_idx` of 5 or above, or a frame index
  above 24, in FR_EMIT or FR_STEP. R56: such a read is never performed. Raised by the phase rules of FR_EMIT and FR_STEP,
  in states no run from reset reaches. Safe: the model stops where the spec gives no effect. DEDUCED, log entry 8. -/
  | romIndexAbsent
deriving DecidableEq, Repr

/-- Why the model has no answer for an instruction. -/
inductive Refusal where
  /-- An instruction without a meaning yet, refused in exec's arm. Safe. No arm uses it: every instruction has a meaning. -/
  | notModelled (mnemonic : String)
deriving DecidableEq, Repr

/-- What one cycle without reset does: run an instruction that is fetched in it, or a phase rule's own outcome. -/
inductive Turn where
  /-- the phase rule selects this instruction -/
  | instr (i : Instr)
  /-- the phase rule's own effect -/
  | phase (o : Host.Outcome State Fault Refusal)

/-- The reset values of the register table (R24, R230) over a configuration, an input queue and a cycle number. -/
def State.resetWith (cfg : Params) (rom : ActProg) (inputs : List Pins) (cycle : Nat) : State where
  ph := .idleWait
  faultCode := .none
  dcnt := 0
  scnt := 0
  ksR := 0
  ksC := 0
  rowN := 0b1111
  sync1 := 0b1111
  sync2 := 0b1111
  key := 0x00
  apc := 0
  tgRem := 0
  tgD := 0
  tgLvl := 0
  tgNote := 0
  frKind := .fill
  frIdx := 0
  frPix := 0
  frRep := 0
  ledValid := false
  ledWord := 0
  pwmCnt := 0
  pwmFrac := 0
  pwmDiv16 := 16
  pwmLevel := 0
  rebootReq := false
  logValid := false
  logCode := 0
  cfg := cfg
  rom := rom
  inputs := inputs
  cycle := cycle

/-- The machine right after reset (R230), for the build at hand with the normative action program ROM (R55, R176), no
input level prescribed, in the first cycle after reset (R232). -/
def State.reset : State := State.resetWith Config.build (actProgRef Config.build) [] 1

end Sys2Proof.Machine
end

