-- ==== Sys2Proof/Machine/Operands.lean ====
section
/-! DEFINITION. What the operands of a command become (spec 30_encoding.md R75): durations to cycle counts, frequencies
to dividers and levels, indices to colours and pixel words; and the codes of the enumerated registers. The block has no
flags (10_state.md R26), so there is no Flags file. -/

namespace Sys2Proof.Machine

/-- `T = TICKS_PER_MS = CLK_HZ / 1000` (R6). -/
def ticksPerMs (p : Params) : Nat := p.clkHz / 1000

/-- The cycle count of a duration of `ms` milliseconds (R8 `LOADWAIT`, R75). -/
def msCycles (p : Params) (ms : Nat) : Nat := ms * ticksPerMs p

/-- `DIV16_MIN = 2^DIV_FRAC_BITS` (R6), the divider 1.0. -/
def div16Min (p : Params) : Nat := 2 ^ p.divFracBits

/-- `DIV16_MAX = 2^(DIV_INT_BITS + DIV_FRAC_BITS) - 1` (R6), the divider 255 + 15/16. -/
def div16Max (p : Params) : Nat := 2 ^ (p.divIntBits + p.divFracBits) - 1

/-- `div16(F)`, in 1/16 units: floor division, clamped, and the maximum for F = 0 (R141). -/
def div16 (p : Params) (f : BitVec 16) : Nat :=
  if f = 0 then div16Max p else min (div16Max p) (max (div16Min p) ((16 * p.clkHz) / (f.toNat * p.pwmRes)))

/-- `level_on(F)` (R142): a frequency of 0 is silence. -/
def levelOn (p : Params) (f : BitVec 16) : BitVec 13 := if f = 0 then 0 else BitVec.ofNat 13 p.pwmLevelOn

/-- `PACK` (R58): the LED word of a colour, the same for every command. -/
def packRgb (p : Params) (c : Rgb) : PixWord :=
  match p.pack with
  | .grbHi => c.g ++ c.r ++ c.b ++ 0#8
  | .gLo => Config.gLoHigh p c ++ c.r ++ c.g ++ Config.gLoLow p c

/-- The colour of one glyph cell (R121). -/
def cellColor (p : Params) (bits : Glyph) (i : Nat) : Rgb := if bits.getLsbD i then p.letterColor else p.off

/-- `px(kind, idx, i)` (R121): the colour of frame index i, 0..24 (R57); none outside the tables. -/
def px (p : Params) (kind : FrameKind) (idx i : Nat) : Option Rgb :=
  if 24 < i then none
  else
    match kind with
    | .fill => colorRom p idx
    | .letter => (glyphRom p idx).map (fun bits => cellColor p bits i)

/-- `word(kind, idx, i) = PACK(px(kind, idx, i))` (R121). -/
def pixWord (p : Params) (kind : FrameKind) (idx i : Nat) : Option PixWord := (px p kind idx i).map (packRgb p)

/-- `onehot4(r) = 1 << r` (R7). -/
def onehot4 (r : BitVec 2) : BitVec 4 := 1#4 <<< r.toNat

/-- The phase codes of R23. -/
def phaseCode : Phase → BitVec 4
  | .idleWait => 0
  | .ksSettle => 1
  | .ksCol => 2
  | .ksRel => 3
  | .dispFetch => 4
  | .beepOn => 5
  | .beepGap => 6
  | .melOn => 7
  | .melGap => 8
  | .frEmit => 9
  | .frStep => 10
  | .frHold => 11
  | .pauseW => 12
  | .halt => 13
  | .fault => 14

/-- The fault codes of R212. -/
def faultCodeBits : FaultCode → BitVec 2
  | .none => 0
  | .reservedOp => 1
  | .reservedIndex => 2
  | .progOverrun => 3

/-- The frame kind's bit (R24). -/
def frameKindBit : FrameKind → BitVec 1
  | .fill => 0
  | .letter => 1

/-- The source's two control states and the terminal ones (R23, R200). -/
inductive ControlState where
  | idle
  | dispatching
  | terminal
deriving DecidableEq, Repr

/-- The control state a phase belongs to (R23, R200). -/
def controlState : Phase → ControlState
  | .idleWait => .idle
  | .ksSettle => .idle
  | .ksCol => .idle
  | .ksRel => .idle
  | .dispFetch => .dispatching
  | .beepOn => .dispatching
  | .beepGap => .dispatching
  | .melOn => .dispatching
  | .melGap => .dispatching
  | .frEmit => .dispatching
  | .frStep => .dispatching
  | .frHold => .dispatching
  | .pauseW => .dispatching
  | .halt => .terminal
  | .fault => .terminal

end Sys2Proof.Machine
end

