-- ==== Sys2Proof/Machine/Ops.lean ====
section
/-! DEFINITION. The shared operations over the registers (spec 00_scope.md R8): the input ports, register writes, waits,
the log pulse, the row drive, the audio parameters, the frame start, entering the model fault, and the always-running part
of a cycle (44_control_loop.md R203). -/

namespace Sys2Proof.Machine

/-! ### Input ports -/

/-- The levels on the input ports at the edge that ends the j-th cycle from this one: what the state prescribes, and a
free value where it prescribes nothing (R8, R21; 93 I-12, I-13). -/
def State.pinsAt (s : State) (j : Nat) : Pins :=
  match s.inputs[j]? with
  | some p => p
  | none => Config.freePins (s.cycle + j)

/-- The input levels of the current cycle: `in.rst`, `in.col_n`, `in.led_ready` (R8). -/
def State.pins (s : State) : Pins := s.pinsAt 0

/-! ### Register writes and the sequencer -/

/-- The value a `w`-bit register holds after a write of `n`: `n` where it fits, and a free value where it does not (R7
gives no wrap-around; log entry 3). -/
def State.fit (s : State) (w n : Nat) : BitVec w := if n < 2 ^ w then BitVec.ofNat w n else Config.overWidth s.cycle w n

/-- The value `dcnt` takes for a count of `n` cycles: its width is `DCNT_W` (R24), which is 48 (D31). -/
def State.fitCount (s : State) (n : Nat) : BitVec 48 := (s.fit s.cfg.dcntW n).setWidth 48

/-- `LOADWAIT(n, W)`: `dcnt <- n * T ; ph <- W` (R8). -/
def State.loadWait (s : State) (ms : Nat) (w : Phase) : State :=
  { s with dcnt := s.fitCount (msCycles s.cfg ms), ph := w }

/-- `apc <- apc + 1 ; ph <- DISP_FETCH`: the next command of the program. -/
def State.nextCommand (s : State) : State := { s with apc := s.fit 4 (s.apc.toNat + 1), ph := .dispFetch }

/-- `emit LOG(k)`: `log_valid <- 1 ; log_code <- k` (R8). -/
def State.emitLog (s : State) (k : KeyCode) : State := { s with logValid := true, logCode := k }

/-- `raise FAULT(reason)`: `ph <- FAULT ; fault_code <- reason`, and nothing else (R8, R212, R215). It is the block's
whole exception entry; the only way back is `rst` (R216), which is `State.onReset`. -/
def State.raiseFault (s : State) (reason : FaultCode) : State := { s with ph := .fault, faultCode := reason }

/-! ### Scanner -/

/-- `DRIVE_ROW(r)` (R102). -/
def State.driveRow (s : State) (r : BitVec 2) : State :=
  { s with ksR := r, ksC := 0, rowN := ~~~(onehot4 r), scnt := s.fit 16 s.cfg.settleCyc, ph := .ksSettle }

/-- `SCAN_START`: `key <- 0x00 ; DRIVE_ROW(0)` (R102). -/
def State.scanStart (s : State) : State := { s with key := 0x00 }.driveRow 0

/-- The scan's none-exit (R104): the row high again, no dispatch, no log, the idle wait. -/
def State.noneExit (s : State) : State := { s with rowN := 0b1111 }.loadWait s.cfg.idleMs .idleWait

/-- The release exit (R105): the row high again, the key code and `apc` written, the log pulse, and the dispatcher. -/
def State.dispatchKey (s : State) (code : KeyCode) : State :=
  { s with rowN := 0b1111, key := code, apc := 0, ph := .dispFetch }.emitLog code

/-! ### Tone generator -/

/-- `TONE_ON(F)` (R143): both audio parameters at one edge; the counter keeps its phase. -/
def State.toneOn (s : State) (f : BitVec 16) : State :=
  { s with pwmDiv16 := BitVec.ofNat 12 (div16 s.cfg f), pwmFrac := 0, pwmLevel := levelOn s.cfg f }

/-- `TONE_OFF` (R144). -/
def State.toneOff (s : State) : State := { s with pwmLevel := 0 }

/-- A note of the melody sounds: `TONE_ON(MELODY[i].F) ; LOADWAIT(MELODY[i].D, MEL_ON)` (R151, R153). -/
def State.soundNote (s : State) (i : BitVec 3) : State :=
  ({ s with tgNote := i }.toneOn (melodyRom s.cfg i).freq).loadWait (melodyRom s.cfg i).ms.toNat .melOn

/-! ### Frame renderer -/

/-- The writes that start a frame (R122, R123): kind, index, pixel 24, replay 0, the first word offered. -/
def State.startFrame (s : State) (kind : FrameKind) (idx : BitVec 3) (w : PixWord) : State :=
  { s with frKind := kind, frIdx := idx, frPix := 24, frRep := 0, ledWord := w, ledValid := true, ph := .frEmit }

/-! ### The always-running part of a cycle -/

/-- The synchroniser (R101): `sync1 <- in.col_n ; sync2 <- sync1`. -/
def State.syncStep (s : State) : State := { s with sync1 := s.pins.colN, sync2 := s.sync1 }

/-- The PWM counter (R145): `pwm_cnt <- (pwm_cnt + 1) mod PWM_RES` where the accumulator passes the divider. -/
def State.pwmStep (s : State) : State :=
  if s.pwmDiv16.toNat ≤ s.pwmFrac.toNat + 16 then
    { s with pwmFrac := s.fit 12 (s.pwmFrac.toNat + 16 - s.pwmDiv16.toNat), pwmCnt := s.fit 12 ((s.pwmCnt.toNat + 1) % s.cfg.pwmRes) }
  else { s with pwmFrac := s.fit 12 (s.pwmFrac.toNat + 16) }

/-- What every cycle without reset does whatever `ph` is (R203): the synchroniser, the PWM counter, `log_valid <- 0`;
and in the model the cycle's prescribed inputs are used up and the cycle is counted. A phase rule's own writes come on top
of it, and read only registers that it does not touch (DEDUCED, log entry 7). -/
def State.clocked (s : State) : State :=
  { s.syncStep.pwmStep with logValid := false, inputs := s.inputs.tail, cycle := s.cycle + 1 }

/-- What an edge with `rst = 1` does (R230): every register takes its reset value. The configuration stays (R34). -/
def State.onReset (s : State) : State := State.resetWith s.cfg s.rom s.inputs.tail (s.cycle + 1)

end Sys2Proof.Machine
end

