-- ==== Sys2Proof/Machine/Wait.lean ====
section
/-! DEFINITION. Wait phases (spec 00_scope.md R8): what one cycle of such a phase does, given its exit action. -/

namespace Sys2Proof.Machine

/-- One cycle of a wait phase (R8): `if dcnt <= 1 then exit else dcnt <- dcnt - 1`. The exit action writes on top of the
always-running part. An exit does not write `dcnt` unless its own rule does. -/
def waitTurn (s : State) (leave : State → Host.Outcome State Fault Refusal) : Turn :=
  if s.dcnt.toNat ≤ 1 then .phase (leave s.clocked) else .phase (.next { s.clocked with dcnt := s.dcnt - 1 })

end Sys2Proof.Machine
end

