-- ==== Sys2Proof/Machine/Dispatcher.lean ====
section
/-! DEFINITION. The action dispatcher: the fetch, the commands END, PAUSE, REBOOT and the reserved opcode, and the phase
PAUSE_W (spec 43_dispatcher.md R171 to R175); the phases of the control loop (44_control_loop.md R201, R204) and the model
fault's (60_exceptions.md R212). -/

namespace Sys2Proof.Machine

/-- The command `ACTPROG[key[3:0]][apc]`, none past the program's end (R55, R171). -/
def State.command (s : State) : Option Cmd := (programOf s.rom (keyIndex s.key))[s.apc.toNat]?

/-- DISP_FETCH (R171): past the program's end PROG_OVERRUN, else the command fetched. -/
def dispFetchTurn (s : State) : Turn :=
  match s.command with
  | some w => .instr (decodeCmd w)
  | none => .phase (.next (s.clocked.raiseFault .progOverrun))

/-- END (R172): Dispatching to Idle. -/
def execEnd (s : State) : Host.Outcome State Fault Refusal := .next (s.loadWait s.cfg.idleMs .idleWait)

/-- PAUSE D (R173). -/
def execPause (ms : BitVec 16) (s : State) : Host.Outcome State Fault Refusal := .next (s.loadWait ms.toNat .pauseW)

/-- REBOOT (R175): the request rises and the sequencer halts. -/
def execReboot (s : State) : Host.Outcome State Fault Refusal := .next { s with rebootReq := true, ph := .halt }

/-- The reserved opcode 7 (R76, R171): the model fault RESERVED_OP. -/
def execReservedOp7 (s : State) : Host.Outcome State Fault Refusal := .next (s.raiseFault .reservedOp)

/-- The exit of PAUSE_W (R174). -/
def leavePauseW (s : State) : Host.Outcome State Fault Refusal := .next s.nextCommand

/-- PAUSE_W, a wait phase (R174). -/
def pauseWTurn (s : State) : Turn := waitTurn s leavePauseW

/-- The exit of IDLE_WAIT (R201): the scan starts. -/
def leaveIdleWait (s : State) : Host.Outcome State Fault Refusal := .next s.scanStart

/-- IDLE_WAIT, a wait phase: the delay between iterations (R201). -/
def idleWaitTurn (s : State) : Turn := waitTurn s leaveIdleWait

/-- HALT (R204): nothing but the always-running part. -/
def haltTurn (s : State) : Turn := .phase (.next s.clocked)

/-- FAULT (R212): nothing but the always-running part. -/
def faultTurn (s : State) : Turn := .phase (.next s.clocked)

end Sys2Proof.Machine
end

