-- ==== Sys2Proof/Machine/Keys.lean ====
section
/-! DEFINITION. The KEY codes (spec 30_encoding.md R71, R72; 43_dispatcher.md R177 to R193). A key code's own cycle is
the exit of the scan that produced it: it starts the dispatch of its key index's action program, whose commands the
following cycles fetch (R171), or, for "none", goes straight to the idle wait. DEDUCED, log entry 6: the spec gives a key
code its program and its event projection, and this cycle is the part of them that the code itself performs. -/

namespace Sys2Proof.Machine

/-- "none": never dispatched, no log pulse, straight to the idle wait (R104, R193). -/
def execKeyNone (s : State) : Host.Outcome State Fault Refusal := .next s.noneExit

/-- Key '1' (PlayIntroSequence): KEY 0x10 is dispatched and logged (R105, R177). -/
def execKey1 (s : State) : Host.Outcome State Fault Refusal := .next (s.dispatchKey 0x10)

/-- Key '2' (Unmapped): KEY 0x11 is dispatched and logged (R105, R178). -/
def execKey2 (s : State) : Host.Outcome State Fault Refusal := .next (s.dispatchKey 0x11)

/-- Key '3' (Unmapped): KEY 0x12 is dispatched and logged (R105, R179). -/
def execKey3 (s : State) : Host.Outcome State Fault Refusal := .next (s.dispatchKey 0x12)

/-- Key 'A' (AllColor(off)): KEY 0x13 is dispatched and logged (R105, R180). -/
def execKeyA (s : State) : Host.Outcome State Fault Refusal := .next (s.dispatchKey 0x13)

/-- Key '4' (Unmapped): KEY 0x14 is dispatched and logged (R105, R181). -/
def execKey4 (s : State) : Host.Outcome State Fault Refusal := .next (s.dispatchKey 0x14)

/-- Key '5' (Unmapped): KEY 0x15 is dispatched and logged (R105, R182). -/
def execKey5 (s : State) : Host.Outcome State Fault Refusal := .next (s.dispatchKey 0x15)

/-- Key '6' (Unmapped): KEY 0x16 is dispatched and logged (R105, R183). -/
def execKey6 (s : State) : Host.Outcome State Fault Refusal := .next (s.dispatchKey 0x16)

/-- Key 'B' (AllColor(blue, full)): KEY 0x17 is dispatched and logged (R105, R184). -/
def execKeyB (s : State) : Host.Outcome State Fault Refusal := .next (s.dispatchKey 0x17)

/-- Key '7' (Unmapped): KEY 0x18 is dispatched and logged (R105, R185). -/
def execKey7 (s : State) : Host.Outcome State Fault Refusal := .next (s.dispatchKey 0x18)

/-- Key '8' (Unmapped): KEY 0x19 is dispatched and logged (R105, R186). -/
def execKey8 (s : State) : Host.Outcome State Fault Refusal := .next (s.dispatchKey 0x19)

/-- Key '9' (Unmapped): KEY 0x1A is dispatched and logged (R105, R187). -/
def execKey9 (s : State) : Host.Outcome State Fault Refusal := .next (s.dispatchKey 0x1A)

/-- Key 'C' (AllColor(red, 50%)): KEY 0x1B is dispatched and logged (R105, R188). -/
def execKeyC (s : State) : Host.Outcome State Fault Refusal := .next (s.dispatchKey 0x1B)

/-- Key '*' (Unmapped): KEY 0x1C is dispatched and logged (R105, R189). -/
def execKeyStar (s : State) : Host.Outcome State Fault Refusal := .next (s.dispatchKey 0x1C)

/-- Key '0' (RequestReboot): KEY 0x1D is dispatched and logged (R105, R190). -/
def execKey0 (s : State) : Host.Outcome State Fault Refusal := .next (s.dispatchKey 0x1D)

/-- Key '#' (AllColor(white, dim)): KEY 0x1E is dispatched and logged (R105, R191). -/
def execKeyHash (s : State) : Host.Outcome State Fault Refusal := .next (s.dispatchKey 0x1E)

/-- Key 'D' (AllColor(green, 50%)): KEY 0x1F is dispatched and logged (R105, R192). -/
def execKeyD (s : State) : Host.Outcome State Fault Refusal := .next (s.dispatchKey 0x1F)

end Sys2Proof.Machine
end

