-- ==== Sys2Proof/Machine/Renderer.lean ====
section
/-! DEFINITION. The frame renderer: the commands FILL and LETTER and the phases FR_EMIT, FR_STEP and FR_HOLD (spec
41_frame_renderer.md R121 to R126). A frame is never stored: each word is computed from ROM when it is loaded. -/

namespace Sys2Proof.Machine

/-- A command that starts a frame: an index with no ROM entry raises RESERVED_INDEX and does nothing else (R171, R215). -/
def startFrameOr (kind : FrameKind) (idx : BitVec 8) (s : State) : State :=
  match pixWord s.cfg kind idx.toNat 24 with
  | some w => s.startFrame kind (idx.setWidth 3) w
  | none => s.raiseFault .reservedIndex

/-- FILL k (R122). -/
def execFill (k : BitVec 8) (s : State) : Host.Outcome State Fault Refusal := .next (startFrameOr .fill k s)

/-- LETTER g (R123). -/
def execLetter (g : BitVec 8) (s : State) : Host.Outcome State Fault Refusal := .next (startFrameOr .letter g s)

/-- What follows the last word of a frame (R124): the replay step, or the hold of the frame's kind. -/
def State.frameDone (s : State) : State :=
  match s.frKind, s.cfg.renderMode with
  | .letter, .replay => { s with ledValid := false }.loadWait s.cfg.replayStepMs .frStep
  | .letter, .single => { s with ledValid := false }.loadWait s.cfg.glyphHoldMs .frHold
  | .fill, _ => { s with ledValid := false }.loadWait s.cfg.fillHoldMs .frHold

/-- FR_EMIT (R124): with `led_ready` the pending word is accepted, and the next frame index down is offered. -/
def frEmitTurn (s : State) : Turn :=
  if s.pins.ledReady then
    if s.frPix = 0 then .phase (.next s.clocked.frameDone)
    else
      match pixWord s.cfg s.frKind s.frIdx.toNat (s.frPix.toNat - 1) with
      | some w => .phase (.next { s.clocked with frPix := s.frPix - 1, ledWord := w })
      | none => .phase (.fault .romIndexAbsent)
  else .phase (.next s.clocked)

/-- The exit of FR_STEP (R125): the trailing hold after 25 frames, else the next replay of the whole frame. -/
def leaveFrStep (s : State) : Host.Outcome State Fault Refusal :=
  if s.frRep = 24 then .next (s.loadWait s.cfg.replayTailMs .frHold)
  else
    match pixWord s.cfg .letter s.frIdx.toNat 24 with
    | some w => .next { s with frRep := s.fit 5 (s.frRep.toNat + 1), frPix := 24, ledWord := w, ledValid := true, ph := .frEmit }
    | none => .fault .romIndexAbsent

/-- FR_STEP, a wait phase (R125). -/
def frStepTurn (s : State) : Turn := waitTurn s leaveFrStep

/-- The exit of FR_HOLD (R126). -/
def leaveFrHold (s : State) : Host.Outcome State Fault Refusal := .next s.nextCommand

/-- FR_HOLD, a wait phase: the display hold (R126). -/
def frHoldTurn (s : State) : Turn := waitTurn s leaveFrHold

end Sys2Proof.Machine
end

