-- ==== Sys2Proof/Machine/Scanner.lean ====
section
/-! DEFINITION. The phase rules of the keypad scanner (spec 40_keypad_scanner.md R103 to R105). Each reads the state
before the edge and writes on top of the always-running part (44_control_loop.md R203). -/

namespace Sys2Proof.Machine

/-- The level of the column being sampled, `sync2[ks_c]` (R104, R105). -/
def State.column (s : State) : Bool := s.sync2.getLsbD s.ksC.toNat

/-- KS_SETTLE (R103). -/
def ksSettleTurn (s : State) : Turn :=
  if s.scnt.toNat ≤ 1 then .phase (.next { s.clocked with ph := .ksCol })
  else .phase (.next { s.clocked with scnt := s.scnt - 1 })

/-- KS_COL (R104): a low column is a press; else the next column, the next row, or the code "none". -/
def ksColTurn (s : State) : Turn :=
  if s.column = false then .phase (.next { s.clocked with ph := .ksRel })
  else if s.ksC.toNat < 3 then .phase (.next { s.clocked with ksC := s.ksC + 1 })
  else if s.ksR.toNat < 3 then .phase (.next (s.clocked.driveRow (s.ksR + 1)))
  else .instr (decodeKey 0x00)

/-- KS_REL (R105): on release the key code `{1, ks_r, ks_c}`; else nothing of the scanner changes. -/
def ksRelTurn (s : State) : Turn :=
  if s.column then .instr (decodeKey (keyCodeOf s.ksR s.ksC)) else .phase (.next s.clocked)

end Sys2Proof.Machine
end

