-- ==== Sys2Proof/Machine/Tone.lean ====
section
/-! DEFINITION. The tone generator: the commands BEEP and MELODY and the phases BEEP_ON, BEEP_GAP, MEL_ON and MEL_GAP
(spec 42_tone_generator.md R148 to R153). -/

namespace Sys2Proof.Machine

/-- BEEP n, F, D (R148): n = 0 sounds nothing and goes on to the next command. -/
def execBeep (times : BitVec 8) (freq ms : BitVec 16) (s : State) : Host.Outcome State Fault Refusal :=
  if times = 0 then .next s.nextCommand
  else .next (({ s with tgRem := times, tgD := ms, tgLvl := levelOn s.cfg freq }.toneOn freq).loadWait ms.toNat .beepOn)

/-- The exit of BEEP_ON (R149). -/
def leaveBeepOn (s : State) : Host.Outcome State Fault Refusal := .next (s.toneOff.loadWait s.cfg.beepGapMs .beepGap)

/-- BEEP_ON, a wait phase: the tone sounds (R149). -/
def beepOnTurn (s : State) : Turn := waitTurn s leaveBeepOn

/-- The exit of BEEP_GAP (R150): a repetition sets only the level. -/
def leaveBeepGap (s : State) : Host.Outcome State Fault Refusal :=
  if s.tgRem.toNat ≤ 1 then .next s.nextCommand
  else .next ({ s with tgRem := s.tgRem - 1, pwmLevel := s.tgLvl }.loadWait s.tgD.toNat .beepOn)

/-- BEEP_GAP, a wait phase: the silence after each beep (R150). -/
def beepGapTurn (s : State) : Turn := waitTurn s leaveBeepGap

/-- MELODY (R151). -/
def execMelody (s : State) : Host.Outcome State Fault Refusal := .next (s.soundNote 0)

/-- The exit of MEL_ON (R152). -/
def leaveMelOn (s : State) : Host.Outcome State Fault Refusal := .next (s.toneOff.loadWait s.cfg.melGapMs .melGap)

/-- MEL_ON, a wait phase: a note sounds (R152). -/
def melOnTurn (s : State) : Turn := waitTurn s leaveMelOn

/-- The exit of MEL_GAP (R153): the gap follows every note, the last among them (90_conflicts.md C7). -/
def leaveMelGap (s : State) : Host.Outcome State Fault Refusal :=
  if s.tgNote = 7 then .next s.nextCommand else .next (s.soundNote (s.tgNote + 1))

/-- MEL_GAP, a wait phase: the silence after each note (R153). -/
def melGapTurn (s : State) : Turn := waitTurn s leaveMelGap

end Sys2Proof.Machine
end

