-- ==== Sys2Proof/Machine/Dispatch.lean ====
section
/-! DEFINITION. One arm per constructor of Instr, each one direct call of that instruction's meaning. A meaning writes the
registers its rule writes, on top of a state whose always-running part the step has already advanced (log entry 7). -/

namespace Sys2Proof.Machine

def exec (i : Instr) (s : State) : Host.Outcome State Fault Refusal :=
  match i with
  | .keyNone => Sys2Proof.Machine.execKeyNone s
  | .key1 => Sys2Proof.Machine.execKey1 s
  | .key2 => Sys2Proof.Machine.execKey2 s
  | .key3 => Sys2Proof.Machine.execKey3 s
  | .keyA => Sys2Proof.Machine.execKeyA s
  | .key4 => Sys2Proof.Machine.execKey4 s
  | .key5 => Sys2Proof.Machine.execKey5 s
  | .key6 => Sys2Proof.Machine.execKey6 s
  | .keyB => Sys2Proof.Machine.execKeyB s
  | .key7 => Sys2Proof.Machine.execKey7 s
  | .key8 => Sys2Proof.Machine.execKey8 s
  | .key9 => Sys2Proof.Machine.execKey9 s
  | .keyC => Sys2Proof.Machine.execKeyC s
  | .keyStar => Sys2Proof.Machine.execKeyStar s
  | .key0 => Sys2Proof.Machine.execKey0 s
  | .keyHash => Sys2Proof.Machine.execKeyHash s
  | .keyD => Sys2Proof.Machine.execKeyD s
  | .endProg => Sys2Proof.Machine.execEnd s
  | .beep times freq ms => Sys2Proof.Machine.execBeep times freq ms s
  | .melody => Sys2Proof.Machine.execMelody s
  | .letter g => Sys2Proof.Machine.execLetter g s
  | .fill k => Sys2Proof.Machine.execFill k s
  | .pause ms => Sys2Proof.Machine.execPause ms s
  | .reboot => Sys2Proof.Machine.execReboot s
  | .reservedOp7 => Sys2Proof.Machine.execReservedOp7 s

end Sys2Proof.Machine
end

