-- ==== Sys2Proof/Machine/Sequencer.lean ====
section
/-! DEFINITION. The case over the phase register (spec 44_control_loop.md R203), and how an instruction is placed where
the sequencer fetches its next one. Step.lean only calls these. -/

namespace Sys2Proof.Machine

/-- The phase rule of the cycle (R203): exactly one applies. -/
def turn (s : State) : Turn :=
  match s.ph with
  | .idleWait => idleWaitTurn s
  | .ksSettle => ksSettleTurn s
  | .ksCol => ksColTurn s
  | .ksRel => ksRelTurn s
  | .dispFetch => dispFetchTurn s
  | .beepOn => beepOnTurn s
  | .beepGap => beepGapTurn s
  | .melOn => melOnTurn s
  | .melGap => melGapTurn s
  | .frEmit => frEmitTurn s
  | .frStep => frStepTurn s
  | .frHold => frHoldTurn s
  | .pauseW => pauseWTurn s
  | .halt => haltTurn s
  | .fault => faultTurn s

/-- The whole of a cycle without reset: an instruction runs on top of the always-running part (R203). -/
def runTurn (s : State) (t : Turn) : Host.Outcome State Fault Refusal :=
  match t with
  | .instr i => exec i s.clocked
  | .phase o => o

/-- One cycle (R203): `rst` overrides every other rule (R214, R230). -/
def cycleStep (s : State) : Host.Outcome State Fault Refusal :=
  if s.pins.rst then .next s.onReset else runTurn s (turn s)

/-- The instruction the current cycle fetches, none where the phase rule selects no instruction. -/
def State.fetched (s : State) : Option Instr :=
  match turn s with
  | .instr i => some i
  | .phase _ => none

/-- The state with `rst` low in the current cycle and nothing else of its inputs changed. -/
def State.withoutReset (s : State) : State := { s with inputs := { s.pins with rst := false } :: s.inputs.tail }

/-- A CMD word as the first command of the selected program, about to be fetched: `ph = DISP_FETCH`, a valid key, `apc = 0`;
the program's other commands stay. -/
def State.placeCmd (s : State) (w : Cmd) : State :=
  { s.withoutReset with
    ph := .dispFetch
    key := 1#1 ++ keyIndex s.key
    apc := 0
    rom := s.rom.set (keyIndex s.key).toNat (w :: (programOf s.rom (keyIndex s.key)).tail) (keyIndex s.key).isLt }

/-- A KEY code as the scanner's result about to be taken: for V = 1 the release of key (r, c) in KS_REL, for V = 0 the last
column of the last row, high, in KS_COL. -/
def State.placeKey (s : State) (c : KeyCode) : State :=
  if keyV c then
    { s.withoutReset with
      ph := .ksRel, ksR := keyRow c, ksC := keyCol c, rowN := ~~~(onehot4 (keyRow c)), sync2 := 0b1111 }
  else { s.withoutReset with ph := .ksCol, ksR := 3, ksC := 3, rowN := 0b0111, sync2 := 0b1111 }

/-- The state about to fetch and run the instruction that `nbits` bits of value `w` are; unchanged where they are none.
DESIGN CHOICE, log entry 5: it stands for a build whose ROM holds the command, or for a key just released. -/
def State.place (s : State) (nbits w : Nat) : State :=
  match codeOfBits nbits w with
  | .ok (.key c) => s.placeKey c
  | .ok (.cmd v) => s.placeCmd v
  | .error _ => s

end Sys2Proof.Machine
end

