-- ==== Sys2Proof/Machine/Step.lean ====
section
/-! DEFINITION. The step: one clock cycle of the block (spec 10_state.md R20, 44_control_loop.md R203). -/

namespace Sys2Proof.Machine

/-- One step is one cycle (R20). -/
def step (s : State) : Host.Outcome State Fault Refusal := cycleStep s

/-- `s` with the instruction placed where `step` fetches its next one, so that the very next step runs it. -/
def State.withFetchWord (s : State) (nbits w : Nat) : State := s.place nbits w

end Sys2Proof.Machine
end

