-- ==== Sys2Proof/Machine/Ports.lean ====
section
/-! DEFINITION. What the outside sees: the Moore output `pwm_out` (spec 10_state.md R35, 42_tone_generator.md R146), the
event projection of a run (00_scope.md R9), and the keypad environment law (40_keypad_scanner.md R109), which only
statements and tests use: a step takes `col_n` as a free input. -/

namespace Sys2Proof.Machine

/-- `pwm_out` (R146): a function of `pwm_cnt` and `pwm_level` only (R35). -/
def State.pwmOut (s : State) : Bool := decide (s.pwmCnt.toNat < s.pwmLevel.toNat)

/-- The output ports (R21). -/
structure Outputs where
  rowN : BitVec 4
  ledValid : Bool
  ledWord : PixWord
  pwmOut : Bool
  rebootReq : Bool
  logValid : Bool
  logCode : KeyCode
deriving DecidableEq, Repr

/-- The levels on the output ports in a cycle (R21). -/
def State.outputs (s : State) : Outputs where
  rowN := s.rowN
  ledValid := s.ledValid
  ledWord := s.ledWord
  pwmOut := s.pwmOut
  rebootReq := s.rebootReq
  logValid := s.logValid
  logCode := s.logCode

/-- A port event (R9). -/
inductive Event where
  /-- `LEDW(w)`: the LED channel accepts a word -/
  | ledw (w : PixWord)
  /-- `TONE(div16, level)`: the PWM parameters have changed -/
  | tone (div16 : BitVec 12) (level : BitVec 13)
  /-- `LOG(k)` -/
  | log (k : KeyCode)
  /-- `REBOOT`: `reboot_req` has risen -/
  | reboot
deriving DecidableEq, Repr

/-- The word the LED channel accepts in a cycle: `led_valid = 1` and `in.led_ready = 1` (R9, R60). -/
def State.ledAccepted (s : State) : Option PixWord := if s.ledValid && s.pins.ledReady then some s.ledWord else none

/-- The events of a cycle, given the cycle before it (R9). A tone event is a change of the pair, whatever writes it
(DEDUCED, log entry 15). -/
def cycleEvents (prev cur : State) : List Event :=
  (match cur.ledAccepted with
    | some w => [.ledw w]
    | none => []) ++
  (if prev.pwmDiv16 = cur.pwmDiv16 ∧ prev.pwmLevel = cur.pwmLevel then [] else [.tone cur.pwmDiv16 cur.pwmLevel]) ++
  (if cur.logValid then [.log cur.logCode] else []) ++
  (if cur.rebootReq && !prev.rebootReq then [.reboot] else [])

/-- The event projection of `n` cycles from `cur`, each event stamped with its cycle (R9). -/
def project : Nat → State → State → List (Nat × Event)
  | 0, _, _ => []
  | n + 1, prev, cur =>
    (cycleEvents prev cur).map (fun e => (cur.cycle, e)) ++
      match step cur with
      | .next t => project n cur t
      | .fault _ => []
      | .refused _ => []

/-- What `f` reads in each of `n` cycles from `s`, in order. -/
def cycleTrace {α : Type} (f : State → α) : Nat → State → List α
  | 0, _ => []
  | n + 1, s =>
    f s ::
      match step s with
      | .next t => cycleTrace f n t
      | .fault _ => []
      | .refused _ => []

/-- The words the LED channel accepts in `n` cycles from `s`, in order (R60). -/
def ledWords (n : Nat) (s : State) : List PixWord := (cycleTrace State.ledAccepted n s).reduceOption

/-- The audio channel's parameters in a cycle (R68). -/
def State.audio (s : State) : BitVec 12 × BitVec 13 := (s.pwmDiv16, s.pwmLevel)

/-- A column of the ideal switch matrix reads low exactly when a closed key of it lies in a row driven low (R109). Bit
`4*r + c` of `closed` is key (r, c). -/
def matrixCol (closed : BitVec 16) (rowN : BitVec 4) (c : Nat) : Bool :=
  !((List.range 4).any (fun r => !rowN.getLsbD r && closed.getLsbD (4 * r + c)))

/-- `col_n` under the keypad environment law (R109). -/
def matrixCols (closed : BitVec 16) (rowN : BitVec 4) : BitVec 4 :=
  BitVec.ofBool (matrixCol closed rowN 3) ++ BitVec.ofBool (matrixCol closed rowN 2) ++
    BitVec.ofBool (matrixCol closed rowN 1) ++ BitVec.ofBool (matrixCol closed rowN 0)

end Sys2Proof.Machine
end

