-- ==== Sys2Proof/Safety.lean ====
section
/-! DEFINITION. What counts as a good state and a safe run, in the terms claims use: the invariants of spec 10_state.md
R29 to R33, and the conditions under which they are stated. -/

namespace Sys2Proof.Machine

/-- The wait phases (R8, R203). -/
def isWait : Phase → Bool
  | .idleWait | .beepOn | .beepGap | .melOn | .melGap | .frStep | .frHold | .pauseW => true
  | .ksSettle | .ksCol | .ksRel | .dispFetch | .frEmit | .halt | .fault => false

/-- The phases of a scan, in which a row is driven (R29). -/
def isScan : Phase → Bool
  | .ksSettle | .ksCol | .ksRel => true
  | .idleWait | .dispFetch | .beepOn | .beepGap | .melOn | .melGap | .frEmit | .frStep | .frHold | .pauseW | .halt
  | .fault => false

/-- The phases in which a command other than END and REBOOT is being carried out (R23). -/
def isBusy : Phase → Bool
  | .beepOn | .beepGap | .melOn | .melGap | .frEmit | .frStep | .frHold | .pauseW => true
  | .idleWait | .ksSettle | .ksCol | .ksRel | .dispFetch | .halt | .fault => false

/-- R29: exactly the scanned row is driven low in a scan, and no row outside one. -/
def RowInv (s : State) : Prop := s.rowN = if isScan s.ph then ~~~(onehot4 s.ksR) else 0b1111

/-- R30: the level is off or `PWM_LEVEL_ON`, which is 2048 (R5), and on only in BEEP_ON and MEL_ON. The level of a repeated
beep is of the same two (R142, R148). -/
def AudioInv (s : State) : Prop :=
  (s.pwmLevel = 0 ∨ s.pwmLevel = 2048) ∧ (s.tgLvl = 0 ∨ s.tgLvl = 2048) ∧
    (s.pwmLevel ≠ 0 → s.ph = .beepOn ∨ s.ph = .melOn)

/-- R31: the divider is at least `DIV16_MIN = 16` and the accumulator below it; `DIV16_MAX` and `pwm_cnt < PWM_RES` are
the registers' widths. -/
def DividerInv (s : State) : Prop := 16 ≤ s.pwmDiv16.toNat ∧ s.pwmFrac.toNat < s.pwmDiv16.toNat

/-- R32: a word is pending exactly in FR_EMIT, and the reboot request stands exactly in HALT. -/
def PortInv (s : State) : Prop := (s.ledValid = true ↔ s.ph = .frEmit) ∧ (s.rebootReq = true ↔ s.ph = .halt)

/-- R33, R125: the frame registers name an entry of the tables, and FR_STEP belongs to a letter in REPLAY mode. -/
def FrameInv (s : State) : Prop :=
  s.frPix.toNat ≤ 24 ∧ s.frRep.toNat ≤ 24 ∧ s.frIdx.toNat ≤ 4 ∧
    (s.ph = .frStep → s.frKind = .letter ∧ s.cfg.renderMode = .replay)

/-- R33: in a Dispatching phase the key register holds a key. -/
def KeyInv (s : State) : Prop := controlState s.ph = .dispatching → keyV s.key = true

/-- What holds in every reachable state, whatever the action program ROM (R29 to R33). -/
def StateInv (s : State) : Prop := RowInv s ∧ AudioInv s ∧ DividerInv s ∧ PortInv s ∧ FrameInv s ∧ KeyInv s

/-- What holds besides where the ROM is well-formed (R33, R81): the block is not in FAULT, the command to fetch exists,
and a command being carried out exists and does not end its program. -/
def ProgInv (s : State) : Prop :=
  wfActProg s.rom = true ∧ s.ph ≠ .fault ∧ (s.ph = .dispFetch → ∃ w, s.command = some w) ∧
    (isBusy s.ph = true → ∃ w, s.command = some w ∧ isTerm w = false)

/-- `v` is the count `dcnt` takes for a wait of `ms` milliseconds: `ms * T`, `T = CLK_HZ / 1000`, where 48 bits hold it (R6,
R8). Where they do not, the spec names no value, and none is claimed (log entry 3). -/
def IsWaitCount (p : Params) (ms : Nat) (v : BitVec 48) : Prop :=
  ms * (p.clkHz / 1000) < 2 ^ 48 → v.toNat = ms * (p.clkHz / 1000)

/-- `v` is the settle count of a driven row: `SETTLE_CYC`, where 16 bits hold it (R24, R102; log entry 3). -/
def IsSettleCount (p : Params) (v : BitVec 16) : Prop := p.settleCyc < 2 ^ 16 → v.toNat = p.settleCyc

/-- `v` is the command index after `a`: `a + 1`, where 4 bits hold it (R7, R24; log entry 3). -/
def IsNextIndex (a v : BitVec 4) : Prop := a.toNat < 15 → v.toNat = a.toNat + 1

/-- The cycles a wait of `ms` milliseconds lasts: `max(1, ms * T)` (R8). -/
def waitSpan (p : Params) (ms : Nat) : Nat := max 1 (ms * (p.clkHz / 1000))

/-- The wait of `ms` milliseconds fits the delay counter (R240). -/
def WaitFits (p : Params) (ms : Nat) : Prop := ms * (p.clkHz / 1000) < 2 ^ 48

/-- `rst` is low in each of the `n` cycles from `s`. -/
def NoReset (n : Nat) (s : State) : Prop := ∀ j < n, (s.pinsAt j).rst = false

/-- `led_ready` is high in each of the `n` cycles from `s`. -/
def LedReady (n : Nat) (s : State) : Prop := ∀ j < n, (s.pinsAt j).ledReady = true

/-! ### Scans -/

/-- How many cycles after the first KS_SETTLE cycle of a scan the scanner decides on column c of row r, if no earlier column
read low: `r * (S + 4) + S + c`, `S = SETTLE_CYC` (R103, R104). -/
def decideAt (p : Params) (r c : Nat) : Nat := r * (p.settleCyc + 4) + p.settleCyc + c

/-- The cycle, so counted, at whose ending edge the `col_n` value of that decision is sampled: `SETTLE_CYC ≥ SYNC_STAGES`
cycles are enough for it to be a cycle of the scan (R101, R110). -/
def sampleAt (p : Params) (r c : Nat) : Nat := decideAt p r c - p.syncStages

/-- The columns of the `n` cycles from `s` are those of the ideal keypad matrix of R109 with the keys `closed j` closed at the
edge that ends the j-th cycle, and the rows as the block drives them. -/
def OnMatrix (closed : Nat → BitVec 16) (n : Nat) (s : State) : Prop :=
  ∀ j < n, ∃ u, Sys2Proof.core.run j s = .next u ∧ (s.pinsAt j).colN = matrixCols (closed j) u.rowN

/-! ### What a command shows on the LED and audio channels, cycle by cycle -/

/-- The audio channel while a tone of frequency `f` sounds for `ms` milliseconds and is silent for `gap` (R141 to R144,
R149, R152). -/
def toneTrace (p : Params) (f : BitVec 16) (ms gap : Nat) : List (BitVec 12 × BitVec 13) :=
  List.replicate (waitSpan p ms) (BitVec.ofNat 12 (div16 p f), if f = 0 then 0 else 2048) ++
    List.replicate (waitSpan p gap) (BitVec.ofNat 12 (div16 p f), 0)

/-- The audio channel during `n` beeps, each with its gap of 200 ms (R148 to R150). -/
def beepTrace (p : Params) (n : Nat) (f : BitVec 16) (ms : Nat) : List (BitVec 12 × BitVec 13) :=
  (List.replicate n (toneTrace p f ms 200)).flatten

/-- The audio channel during the eight notes, each with its gap of 150 ms (R151 to R153). -/
def melodyTrace (p : Params) : List (BitVec 12 × BitVec 13) :=
  (List.finRange 8).flatMap (fun i => toneTrace p (p.melody.get i).freq (p.melody.get i).ms.toNat 150)

/-- The cycles of the eight notes and their gaps (R154). -/
def melodySpan (p : Params) : Nat := ∑ i : Fin 8, (waitSpan p (p.melody.get i).ms.toNat + waitSpan p 150)

/-- The 25 words of letter `g`'s frame, frame index 24 first (R59, R128). -/
def letterFrame (p : Params) (g : Fin 5) : List PixWord :=
  (List.range 25).map (fun j => packRgb p (if (p.glyph.get g).getLsbD (24 - j) then p.letterColor else ⟨0, 0, 0⟩))

/-- The words the LED channel accepts in each cycle of a LETTER from its DISP_FETCH cycle, with the channel ready: one frame
and the hold, or 25 frames each with its step of 100 ms, and the hold of 500 ms (R124 to R126). -/
def letterTrace (p : Params) (g : Fin 5) : List (Option PixWord) :=
  none ::
    match p.renderMode with
    | .single => (letterFrame p g).map some ++ List.replicate (waitSpan p p.glyphHoldMs) none
    | .replay =>
      (List.replicate 25 ((letterFrame p g).map some ++ List.replicate (waitSpan p 100) none)).flatten ++
        List.replicate (waitSpan p 500) none

/-- The cycles of a LETTER with the channel ready (R127). -/
def letterSpan (p : Params) : Nat :=
  match p.renderMode with
  | .single => 26 + waitSpan p p.glyphHoldMs
  | .replay => 1 + 25 * (25 + waitSpan p 100) + waitSpan p 500

/-- The cycles of key '1''s dispatch with the reference program and the channel ready, from its log pulse's cycle to the last
before the idle wait (R241). -/
def introSpan (p : Params) : Nat :=
  1 + 2 * (waitSpan p 200 + waitSpan p 200) + 5 * letterSpan p + (1 + melodySpan p) + 1

end Sys2Proof.Machine
end

