-- ==== Sys2Proof/Certificates/Slice0/Obligations.lean ====
section
/-! DEFINITION. The statements for the provers, from the numbered rules of spec/. A next state is written out as the
register updates the rule gives over the state it is taken in, so each such equation is also its instruction's or phase's
frame: every register not named in it, and the ROMs and parameters, stay. The block has no memory (R50). Where a register
may be written with a number it cannot hold, the value is left open (log entry 3) and everything else is still stated. -/

open Sys2Proof Sys2Proof.Machine

/-! ### Encodings -/

/-- Decoding the canonical word of an instruction gives the instruction back, for every instruction and every operand
(30_encoding.md R71 to R75). -/
def Obligations.DecodeEncodeAgree : Prop := ∀ i : Instr, decode (encode i) = i

/-- A command word passes the checks of R81 on one word exactly when it decodes to a well-formed instruction whose
canonical word it is. -/
def Obligations.WellFormedWordIsCanonical : Prop :=
  ∀ w : Cmd, wfWord w = true ↔ (encode (decodeCmd w) = .cmd w ∧ (decodeCmd w).wf = true)

/-- The 17 KEY codes of R72, each with its character, and every code with V = 0 as "none" (R71); and a few CMD words written
out bit by bit from R73 and R74 decode to the commands they stand for (V-E2), a word with a reserved bit set among them
(R76). -/
def Obligations.KeyAndCommandWordsDecode : Prop :=
  (∀ e ∈ [((0x10 : KeyCode), '1', Instr.key1), (0x11, '2', .key2), (0x12, '3', .key3), (0x13, 'A', .keyA),
      (0x14, '4', .key4), (0x15, '5', .key5), (0x16, '6', .key6), (0x17, 'B', .keyB), (0x18, '7', .key7),
      (0x19, '8', .key8), (0x1A, '9', .key9), (0x1B, 'C', .keyC), (0x1C, '*', .keyStar), (0x1D, '0', .key0),
      (0x1E, '#', .keyHash), (0x1F, 'D', .keyD)],
    decodeKey e.1 = e.2.2 ∧ keyChar e.1 = some e.2.1) ∧
  (∀ c : KeyCode, c.getLsbD 4 = false → decodeKey c = .keyNone ∧ keyChar c = none) ∧
  decodeCmd 0b000_00000_00000000_0000000000000000_0000000000000000 = .endProg ∧
  decodeCmd 0b001_00000_00000010_0000001111101000_0000000011001000 = .beep 2 1000 200 ∧
  decodeCmd 0b010_00000_00000000_0000000000000000_0000000000000000 = .melody ∧
  decodeCmd 0b011_00000_00000010_0000000000000000_0000000000000000 = .letter 2 ∧
  decodeCmd 0b100_00000_00000100_0000000000000000_0000000000000000 = .fill 4 ∧
  decodeCmd 0b100_00001_00000000_0000000000000000_0000000000000000 = .fill 0 ∧
  decodeCmd 0b101_00000_00000000_0000000000000000_0000000001100100 = .pause 100 ∧
  decodeCmd 0b110_00000_00000000_0000000000000000_0000000000000000 = .reboot ∧
  decodeCmd 0b111_00000_00000000_0000000000000000_0000000000000000 = .reservedOp7

/-- The pseudo-instructions INTRO, NOP and REBOOT_AFTER have exactly the expansions of R80, for every value of the parameters
and every operand the assembler admits: INTRO's beep is at `BUZZER_FREQ_HZ`, with INTRO_BEEP_TIMES = 2 and INTRO_BEEP_MS = 200
(R5); and NOP, in its one cycle, changes only the command index and the phase. -/
def Obligations.PseudoInstructionsExpand : Prop :=
  (∀ p : Params, expandLine p .intro =
    .ok [.beep 2 p.buzzerFreqHz 200, .letter 0, .letter 1, .letter 2, .letter 3, .letter 4, .melody]) ∧
  ((∀ p : Params, expandLine p .nop = .ok [.beep 0 0 0]) ∧ encode (.beep 0 0 0) = .cmd 0x200000000000 ∧
    ∀ s : State, ∃ a, IsNextIndex s.apc a ∧ exec (.beep 0 0 0) s = .next { s with apc := a, ph := .dispFetch }) ∧
  ∀ (p : Params) (d : BitVec 16), expandLine p (.rebootAfter d.toNat) = .ok [.pause d, .reboot]

/-- ACTPROG_REF (R176): every key index has the program of the table, assembled from its source text; every list passes
the checks of R81; the longest has 8 commands. For every value of the parameters. -/
def Obligations.ReferenceProgramsAssemble : Prop :=
  ∀ p : Params,
    assemble p [.intro, .endProg] = .ok (programOf (actProgRef p) 0) ∧
    (∀ k ∈ [(1 : BitVec 4), 2, 4, 5, 6, 8, 9, 10, 12], assemble p [.endProg] = .ok (programOf (actProgRef p) k)) ∧
    assemble p [.fill .off, .endProg] = .ok (programOf (actProgRef p) 3) ∧
    assemble p [.fill .blueFull, .endProg] = .ok (programOf (actProgRef p) 7) ∧
    assemble p [.fill .redHalf, .endProg] = .ok (programOf (actProgRef p) 11) ∧
    assemble p [.rebootAfter 100] = .ok (programOf (actProgRef p) 13) ∧
    assemble p [.fill .whiteDim, .endProg] = .ok (programOf (actProgRef p) 14) ∧
    assemble p [.fill .greenHalf, .endProg] = .ok (programOf (actProgRef p) 15) ∧
    wfActProg (actProgRef p) = true ∧
    (programOf (actProgRef p) 0).length = 8 ∧ ∀ k, (programOf (actProgRef p) k).length ≤ 8

/-! ### Operands and tables -/

/-- `div16` (R141): the formula for every frequency and clock, and the values R141 and R147 work out at 125 MHz. -/
def Obligations.DividerFollowsFormula : Prop :=
  (∀ p : Params, div16 p 0 = 4095) ∧
  (∀ (p : Params) (f : BitVec 16), f ≠ 0 → div16 p f = min 4095 (max 16 (16 * p.clkHz / (f.toNat * 4096)))) ∧
  ∀ p : Params, p.clkHz = 125000000 →
    (∀ f : BitVec 16, f.toNat ≤ 119 → div16 p f = 4095) ∧ div16 p 120 = 4069 ∧ div16 p 440 = 1109 ∧
      ∀ f : BitVec 16, 30518 ≤ f.toNat → div16 p f = 16

/-- `pwm_out` (R35, R146): high exactly while the counter is below the level; at level 2048 for the lower half of the
counter's values, at level 0 never. -/
def Obligations.PwmOutComparesCounter : Prop :=
  (∀ s : State, s.pwmOut = true ↔ s.pwmCnt.toNat < s.pwmLevel.toNat) ∧
  (∀ s : State, s.pwmLevel = 2048 → (s.pwmOut = true ↔ s.pwmCnt.toNat ≤ 2047)) ∧
  (∀ s : State, s.pwmLevel = 0 → s.pwmOut = false) ∧
  ∀ s t : State, s.pwmCnt = t.pwmCnt → s.pwmLevel = t.pwmLevel → s.pwmOut = t.pwmOut

/-- `PACK` (R58): under GRB_HI the bytes are G, R, B, 0; under G_LO red and green are in bits 23..16 and 15..8, and the
rest is left open (log entry 4). -/
def Obligations.PackPlacesChannels : Prop :=
  (∀ (p : Params) (c : Rgb), p.pack = .grbHi →
    (packRgb p c).extractLsb' 24 8 = c.g ∧ (packRgb p c).extractLsb' 16 8 = c.r ∧
      (packRgb p c).extractLsb' 8 8 = c.b ∧ (packRgb p c).extractLsb' 0 8 = 0) ∧
  ∀ (p : Params) (c : Rgb), p.pack = .gLo →
    (packRgb p c).extractLsb' 16 8 = c.r ∧ (packRgb p c).extractLsb' 8 8 = c.g

/-- The pixel function (R121): a fill has its colour at every frame index, a letter the letter colour or off by its glyph
bit; and it is defined for exactly the five indices of either table (R52, R53) and the 25 frame indices (R57), nothing being
read at any other (R56). -/
def Obligations.PixelFunctionReadsRoms : Prop :=
  (∀ (p : Params) (i : Nat), i ≤ 24 →
    (px p .fill 0 i = some ⟨0, 0, 0⟩ ∧ px p .fill 1 i = some p.blueFull ∧ px p .fill 2 i = some p.redHalf ∧
      px p .fill 3 i = some p.greenHalf ∧ px p .fill 4 i = some ⟨32, 64, 16⟩) ∧
    (∀ g : Fin 5, px p .letter g.val i = some (if (p.glyph.get g).getLsbD i then p.letterColor else ⟨0, 0, 0⟩)) ∧
    ∀ (k : FrameKind) (n : Nat), 5 ≤ n → px p k n i = none) ∧
  ∀ (p : Params) (k : FrameKind) (n i : Nat), 24 < i → px p k n i = none

/-! ### The commands -/

/-- END (R172): its word is 0, and it goes to the idle wait of 100 ms, leaving `apc` and everything else as they are. -/
def Obligations.EndGoesIdle : Prop :=
  encode .endProg = .cmd 0x000000000000 ∧
  ∀ s : State, ∃ v, IsWaitCount s.cfg 100 v ∧ exec .endProg s = .next { s with dcnt := v, ph := .idleWait }

/-- PAUSE D (R173): a wait of D milliseconds in PAUSE_W, and nothing else. -/
def Obligations.PauseWaits : Prop :=
  ∀ (d : BitVec 16) (s : State), encode (.pause d) = .cmd (0xA00000000000 ||| d.setWidth 48) ∧
    ∃ v, IsWaitCount s.cfg d.toNat v ∧ exec (.pause d) s = .next { s with dcnt := v, ph := .pauseW }

/-- REBOOT (R175): the request rises and the sequencer halts, and nothing else happens. -/
def Obligations.RebootHalts : Prop :=
  encode .reboot = .cmd 0xC00000000000 ∧
  ∀ s : State, exec .reboot s = .next { s with rebootReq := true, ph := .halt }

/-- The model fault without an operand (R76, R171, R212): the reserved opcode enters FAULT with RESERVED_OP, and a fetch
past the program's end with PROG_OVERRUN; two registers are written and nothing else (R215). -/
def Obligations.ReservedOpAndOverrunEnterFault : Prop :=
  (∀ s : State, exec .reservedOp7 s = .next { s with ph := .fault, faultCode := .reservedOp }) ∧
  ∀ s : State, s.pins.rst = false → s.ph = .dispFetch → (s.rom.get (s.key.extractLsb' 0 4).toFin).length ≤ s.apc.toNat →
    step s = .next { s.clocked with ph := .fault, faultCode := .progOverrun }

/-- FILL k (R122): with a colour index 0 to 4 the frame starts on the packed colour; with another, RESERVED_INDEX (R171). -/
def Obligations.FillStartsFrame : Prop :=
  ∀ (k : BitVec 8) (s : State),
    encode (.fill k) = .cmd (0x800000000000 ||| k.setWidth 48 <<< 32) ∧
    (k.toNat ≤ 4 → ∃ c, colorRom s.cfg k.toNat = some c ∧
      exec (.fill k) s = .next { s with
        frKind := .fill, frIdx := k.setWidth 3, frPix := 24, frRep := 0, ledWord := packRgb s.cfg c, ledValid := true,
        ph := .frEmit }) ∧
    (5 ≤ k.toNat → exec (.fill k) s = .next { s with ph := .fault, faultCode := .reservedIndex })

/-- LETTER g (R123): with a letter index 0 to 4 the frame starts on the word of glyph bit 24; with another,
RESERVED_INDEX (R171). -/
def Obligations.LetterStartsFrame : Prop :=
  ∀ (g : BitVec 8) (s : State),
    encode (.letter g) = .cmd (0x600000000000 ||| g.setWidth 48 <<< 32) ∧
    (∀ h : g.toNat < 5,
      exec (.letter g) s = .next { s with
        frKind := .letter, frIdx := g.setWidth 3, frPix := 24, frRep := 0,
        ledWord := packRgb s.cfg (if (s.cfg.glyph.get ⟨g.toNat, h⟩).getLsbD 24 then s.cfg.letterColor else ⟨0, 0, 0⟩),
        ledValid := true, ph := .frEmit }) ∧
    (5 ≤ g.toNat → exec (.letter g) s = .next { s with ph := .fault, faultCode := .reservedIndex })

/-- BEEP n, F, D (R148): n = 0 goes on to the next command and sounds nothing; else the beep's registers, both audio
parameters and the wait of D milliseconds. -/
def Obligations.BeepSounds : Prop :=
  ∀ (n : BitVec 8) (f d : BitVec 16) (s : State),
    encode (.beep n f d) =
      .cmd (0x200000000000 ||| n.setWidth 48 <<< 32 ||| f.setWidth 48 <<< 16 ||| d.setWidth 48) ∧
    (n = 0 → ∃ a, IsNextIndex s.apc a ∧ exec (.beep n f d) s = .next { s with apc := a, ph := .dispFetch }) ∧
    (n ≠ 0 → ∃ v q, IsWaitCount s.cfg d.toNat v ∧ q.toNat = div16 s.cfg f ∧
      exec (.beep n f d) s = .next { s with
        tgRem := n, tgD := d, tgLvl := if f = 0 then 0 else 2048, pwmDiv16 := q, pwmFrac := 0,
        pwmLevel := if f = 0 then 0 else 2048, dcnt := v, ph := .beepOn })

/-- MELODY (R151): note 0 of the melody ROM sounds for its duration. -/
def Obligations.MelodyStartsNoteZero : Prop :=
  encode .melody = .cmd 0x400000000000 ∧
  ∀ s : State, ∃ v q, IsWaitCount s.cfg (s.cfg.melody.get 0).ms.toNat v ∧ q.toNat = div16 s.cfg (s.cfg.melody.get 0).freq ∧
    exec .melody s = .next { s with
      tgNote := 0, pwmDiv16 := q, pwmFrac := 0, pwmLevel := if (s.cfg.melody.get 0).freq = 0 then 0 else 2048,
      dcnt := v, ph := .melOn }

/-! ### The KEY codes -/

/-- Each of the 16 keys (R72): the writes of the release exit of R105 with that key's code, and nothing else changes: the row
high, `key` and `log_code` the code, `apc` 0, the log pulse, and the dispatcher. That this one cycle is the meaning of a KEY
code is the model's reading, log entry 6 (DEDUCED): the spec gives a key code its program and its event projection, whose
other cycles are stated over runs. -/
def Obligations.KeyCodeIsDispatched : Prop :=
  ∀ e ∈ [(Instr.key1, (0x10 : KeyCode)), (.key2, 0x11), (.key3, 0x12), (.keyA, 0x13), (.key4, 0x14), (.key5, 0x15),
      (.key6, 0x16), (.keyB, 0x17), (.key7, 0x18), (.key8, 0x19), (.key9, 0x1A), (.keyC, 0x1B), (.keyStar, 0x1C),
      (.key0, 0x1D), (.keyHash, 0x1E), (.keyD, 0x1F)],
    ∀ s : State, exec e.1 s = .next { s with
      rowN := 0b1111, key := e.2, apc := 0, logValid := true, logCode := e.2, ph := .dispFetch }

/-- "none" (R193): its code is 0x00, and it has no dispatch and no log pulse; the row high and the idle wait are the writes of
the scan's none-exit (R104). That this exit is the meaning of the code is the model's reading, log entry 6 (DEDUCED). -/
def Obligations.NoKeyGoesIdle : Prop :=
  encode .keyNone = .key 0x00 ∧
  ∀ s : State, ∃ v, IsWaitCount s.cfg 100 v ∧
    exec .keyNone s = .next { s with rowN := 0b1111, dcnt := v, ph := .idleWait }

/-! ### The step -/

/-- A step runs the instruction it decodes: the command at `ACTPROG[key[3:0]][apc]` in DISP_FETCH (R171), the code of the
released key in KS_REL (R105), the code "none" at the end of an empty scan (R104); on top of the always-running part of the
cycle (R203), which `AlwaysRunningPart` states. Two clauses are the model's reading: that a KEY code runs as the instruction
of the scan's exit cycle is log entry 6, and that the always-running part is applied first, so that the meaning is taken at
`s.clocked`, is log entry 7 (both DEDUCED; R8 makes all writes of a cycle simultaneous). -/
def Obligations.StepRunsDecodedInstruction : Prop :=
  ∀ s : State, s.pins.rst = false →
    (∀ w, s.ph = .dispFetch → (s.rom.get (s.key.extractLsb' 0 4).toFin)[s.apc.toNat]? = some w →
      step s = exec (decode (.cmd w)) s.clocked) ∧
    (s.ph = .ksRel → s.sync2.getLsbD s.ksC.toNat = true →
      step s = exec (decode (.key (1#1 ++ s.ksR ++ s.ksC))) s.clocked) ∧
    (s.ph = .ksCol → s.ksR = 3 → s.ksC = 3 → s.sync2.getLsbD 3 = true → step s = exec (decode (.key 0)) s.clocked)

/-- The always-running part of a cycle (R101, R145, R203): the synchroniser takes the columns, the PWM counter ticks under
its divider, the log pulse ends, and no other register changes. That the prescribed inputs are used up and the cycle is
counted is the model's own choice (log entry 2). -/
def Obligations.AlwaysRunningPart : Prop :=
  ∀ s : State, DividerInv s → ∃ c f,
    ((s.pwmDiv16.toNat ≤ s.pwmFrac.toNat + 16 ∧ f.toNat = s.pwmFrac.toNat + 16 - s.pwmDiv16.toNat ∧
        c.toNat = (s.pwmCnt.toNat + 1) % 4096) ∨
      (s.pwmFrac.toNat + 16 < s.pwmDiv16.toNat ∧ f.toNat = s.pwmFrac.toNat + 16 ∧ c = s.pwmCnt)) ∧
    s.clocked = { s with
      sync1 := s.pins.colN, sync2 := s.sync1, pwmCnt := c, pwmFrac := f, logValid := false, inputs := s.inputs.tail,
      cycle := s.cycle + 1 }

/-- KS_SETTLE (R103). -/
def Obligations.SettlePhaseStep : Prop :=
  ∀ s : State, s.pins.rst = false → s.ph = .ksSettle →
    (s.scnt.toNat ≤ 1 → step s = .next { s.clocked with ph := .ksCol }) ∧
    (1 < s.scnt.toNat → step s = .next { s.clocked with scnt := s.scnt - 1 })

/-- KS_COL (R104): a low column, the next column, the next row, and the end of an empty scan. -/
def Obligations.ColumnPhaseStep : Prop :=
  ∀ s : State, s.pins.rst = false → s.ph = .ksCol →
    (s.sync2.getLsbD s.ksC.toNat = false → step s = .next { s.clocked with ph := .ksRel }) ∧
    (s.sync2.getLsbD s.ksC.toNat = true → s.ksC.toNat < 3 → step s = .next { s.clocked with ksC := s.ksC + 1 }) ∧
    (s.sync2.getLsbD s.ksC.toNat = true → s.ksC = 3 → s.ksR.toNat < 3 → ∃ v, IsSettleCount s.cfg v ∧
      step s = .next { s.clocked with
        ksR := s.ksR + 1, ksC := 0, rowN := ~~~(1#4 <<< (s.ksR.toNat + 1)), scnt := v, ph := .ksSettle }) ∧
    (s.sync2.getLsbD s.ksC.toNat = true → s.ksC = 3 → s.ksR = 3 → ∃ v, IsWaitCount s.cfg 100 v ∧
      step s = .next { s.clocked with rowN := 0b1111, dcnt := v, ph := .idleWait })

/-- KS_REL (R105): the dispatch on the first high sample, and until then no scanner register changes. -/
def Obligations.ReleasePhaseStep : Prop :=
  ∀ s : State, s.pins.rst = false → s.ph = .ksRel →
    (s.sync2.getLsbD s.ksC.toNat = true →
      step s = .next { s.clocked with
        rowN := 0b1111, key := 1#1 ++ s.ksR ++ s.ksC, apc := 0, logValid := true, logCode := 1#1 ++ s.ksR ++ s.ksC,
        ph := .dispFetch }) ∧
    (s.sync2.getLsbD s.ksC.toNat = false → step s = .next s.clocked)

/-- IDLE_WAIT's exit is SCAN_START (R102, R201): `key` cleared, row 0 alone driven low, the settle count loaded. -/
def Obligations.IdleExitStartsScan : Prop :=
  ∀ s : State, s.pins.rst = false → s.ph = .idleWait → s.dcnt.toNat ≤ 1 → ∃ v, IsSettleCount s.cfg v ∧
    step s = .next { s.clocked with key := 0, ksR := 0, ksC := 0, rowN := 0b1110, scnt := v, ph := .ksSettle }

/-- The exits of BEEP_ON and BEEP_GAP (R149, R150): silence for 200 ms; then the next command after the last beep, and
before it the level alone again. -/
def Obligations.BeepPhaseExits : Prop :=
  ∀ s : State, s.pins.rst = false → s.dcnt.toNat ≤ 1 →
    (s.ph = .beepOn → ∃ v, IsWaitCount s.cfg 200 v ∧
      step s = .next { s.clocked with pwmLevel := 0, dcnt := v, ph := .beepGap }) ∧
    (s.ph = .beepGap → s.tgRem.toNat ≤ 1 → ∃ a, IsNextIndex s.apc a ∧
      step s = .next { s.clocked with apc := a, ph := .dispFetch }) ∧
    (s.ph = .beepGap → 1 < s.tgRem.toNat → ∃ v, IsWaitCount s.cfg s.tgD.toNat v ∧
      step s = .next { s.clocked with tgRem := s.tgRem - 1, pwmLevel := s.tgLvl, dcnt := v, ph := .beepOn })

/-- The exits of MEL_ON and MEL_GAP (R152, R153): silence for 150 ms after every note; then the next note, and after note
7 the next command. -/
def Obligations.MelodyPhaseExits : Prop :=
  ∀ s : State, s.pins.rst = false → s.dcnt.toNat ≤ 1 →
    (s.ph = .melOn → ∃ v, IsWaitCount s.cfg 150 v ∧
      step s = .next { s.clocked with pwmLevel := 0, dcnt := v, ph := .melGap }) ∧
    (s.ph = .melGap → s.tgNote = 7 → ∃ a, IsNextIndex s.apc a ∧
      step s = .next { s.clocked with apc := a, ph := .dispFetch }) ∧
    (s.ph = .melGap → ∀ h : s.tgNote.toNat + 1 < 8, ∃ v q,
      IsWaitCount s.cfg (s.cfg.melody.get ⟨s.tgNote.toNat + 1, h⟩).ms.toNat v ∧
      q.toNat = div16 s.cfg (s.cfg.melody.get ⟨s.tgNote.toNat + 1, h⟩).freq ∧
      step s = .next { s.clocked with
        tgNote := s.tgNote + 1, pwmDiv16 := q, pwmFrac := 0,
        pwmLevel := if (s.cfg.melody.get ⟨s.tgNote.toNat + 1, h⟩).freq = 0 then 0 else 2048, dcnt := v, ph := .melOn })

/-- FR_EMIT (R124): nothing without `led_ready`; the next frame index down on an accepted word; after index 0 the hold of
the frame's kind, or the replay step. -/
def Obligations.EmitPhaseStep : Prop :=
  ∀ s : State, s.pins.rst = false → s.ph = .frEmit →
    (s.pins.ledReady = false → step s = .next s.clocked) ∧
    (s.pins.ledReady = true → s.frPix ≠ 0 → s.frPix.toNat ≤ 24 → s.frIdx.toNat ≤ 4 → ∃ c,
      px s.cfg s.frKind s.frIdx.toNat (s.frPix.toNat - 1) = some c ∧
      step s = .next { s.clocked with frPix := s.frPix - 1, ledWord := packRgb s.cfg c }) ∧
    (s.pins.ledReady = true → s.frPix = 0 → s.frKind = .letter → s.cfg.renderMode = .replay → ∃ v,
      IsWaitCount s.cfg 100 v ∧ step s = .next { s.clocked with ledValid := false, dcnt := v, ph := .frStep }) ∧
    (s.pins.ledReady = true → s.frPix = 0 → s.frKind = .letter → s.cfg.renderMode = .single → ∃ v,
      IsWaitCount s.cfg s.cfg.glyphHoldMs v ∧ step s = .next { s.clocked with ledValid := false, dcnt := v, ph := .frHold }) ∧
    (s.pins.ledReady = true → s.frPix = 0 → s.frKind = .fill → ∃ v,
      IsWaitCount s.cfg s.cfg.fillHoldMs v ∧ step s = .next { s.clocked with ledValid := false, dcnt := v, ph := .frHold })

/-- One exit of FR_STEP (R125): with `fr_rep = 24` the 500 ms hold, and below it the next replay: `fr_rep` counts on and the
frame starts again at index 24. -/
def Obligations.ReplayStepExit : Prop :=
  ∀ s : State, s.pins.rst = false → s.ph = .frStep → s.dcnt.toNat ≤ 1 →
    (s.frRep = 24 → ∃ v, IsWaitCount s.cfg 500 v ∧ step s = .next { s.clocked with dcnt := v, ph := .frHold }) ∧
    (s.frRep.toNat < 24 → ∀ h : s.frIdx.toNat < 5,
      step s = .next { s.clocked with
        frRep := s.frRep + 1, frPix := 24,
        ledWord := packRgb s.cfg (if (s.cfg.glyph.get ⟨s.frIdx.toNat, h⟩).getLsbD 24 then s.cfg.letterColor else ⟨0, 0, 0⟩),
        ledValid := true, ph := .frEmit })

/-- The exits of FR_HOLD and PAUSE_W (R126, R174): the next command. -/
def Obligations.HoldAndPauseExit : Prop :=
  ∀ s : State, s.pins.rst = false → s.ph = .frHold ∨ s.ph = .pauseW → s.dcnt.toNat ≤ 1 → ∃ a, IsNextIndex s.apc a ∧
    step s = .next { s.clocked with apc := a, ph := .dispFetch }

/-- HALT and FAULT (R204, R212, R216): without `rst` nothing but the always-running part, so only `rst` leaves them. -/
def Obligations.TerminalPhasesStay : Prop :=
  ∀ s : State, s.pins.rst = false → s.ph = .halt ∨ s.ph = .fault → step s = .next s.clocked

/-! ### Reset -/

/-- An edge with `rst = 1` (R230): every register takes its reset value, whatever the state, and the configuration stays.
Nothing is said of the model's own input queue and cycle counter. -/
def Obligations.ResetEdgeLoadsResetValues : Prop :=
  ∀ s : State, s.pins.rst = true → ∃ q n, step s = .next {
    ph := .idleWait, faultCode := .none, dcnt := 0, scnt := 0, ksR := 0, ksC := 0, rowN := 0b1111, sync1 := 0b1111,
    sync2 := 0b1111, key := 0, apc := 0, tgRem := 0, tgD := 0, tgLvl := 0, tgNote := 0, frKind := .fill, frIdx := 0,
    frPix := 0, frRep := 0, ledValid := false, ledWord := 0, pwmCnt := 0, pwmFrac := 0, pwmDiv16 := 16, pwmLevel := 0,
    rebootReq := false, logValid := false, logCode := 0, cfg := s.cfg, rom := s.rom, inputs := q, cycle := n }

/-- The machine right after reset (R24, R230): the table's values, the normative action program ROM for its parameters
(R55, R176), and inactive outputs. -/
def Obligations.ResetStateIsTheTable : Prop :=
  State.reset.ph = .idleWait ∧ State.reset.faultCode = .none ∧ State.reset.dcnt = 0 ∧ State.reset.scnt = 0 ∧
  State.reset.ksR = 0 ∧ State.reset.ksC = 0 ∧ State.reset.sync1 = 0b1111 ∧ State.reset.sync2 = 0b1111 ∧
  State.reset.key = 0 ∧ State.reset.apc = 0 ∧ State.reset.tgRem = 0 ∧ State.reset.tgD = 0 ∧ State.reset.tgLvl = 0 ∧
  State.reset.tgNote = 0 ∧ State.reset.frKind = .fill ∧ State.reset.frIdx = 0 ∧ State.reset.frPix = 0 ∧
  State.reset.frRep = 0 ∧ State.reset.pwmCnt = 0 ∧ State.reset.pwmFrac = 0 ∧ State.reset.pwmDiv16 = 16 ∧
  State.reset.pwmLevel = 0 ∧ State.reset.rom = actProgRef State.reset.cfg ∧
  State.reset.outputs =
    { rowN := 0b1111, ledValid := false, ledWord := 0, pwmOut := false, rebootReq := false, logValid := false, logCode := 0 }

/-! ### Invariants and whole-machine rules -/

/-- The invariants R29 to R33 hold right after reset, those about the program among them. -/
def Obligations.ResetMeetsInvariants : Prop := StateInv State.reset ∧ ProgInv State.reset

/-- Every step keeps the invariants R29 to R33 that hold whatever the action program ROM: exactly one row low in a scan
and none outside, sound only in BEEP_ON and MEL_ON, the divider's range, a word pending exactly in FR_EMIT, the reboot
request exactly in HALT, the frame registers' bounds, a key in every Dispatching phase. -/
def Obligations.StepKeepsInvariant : Prop := ∀ s t : State, StateInv s → step s = .next t → StateInv t

/-- With a well-formed action program ROM (R81) every step keeps the block out of FAULT and inside its programs (R33,
R212). -/
def Obligations.StepKeepsProgramInvariant : Prop := ∀ s t : State, ProgInv s → step s = .next t → ProgInv t

/-- R33: with a well-formed ROM, in a Dispatching phase `apc` is at most 7 and names a command. -/
def Obligations.DispatchStaysInProgram : Prop :=
  ∀ s : State, ProgInv s → controlState s.ph = .dispatching →
    s.apc.toNat ≤ 7 ∧ s.apc.toNat < (s.rom.get (s.key.extractLsb' 0 4).toFin).length

/-- The block raises no exception that stops it (R56, R210): from every state that meets the invariant a step answers a
next state, whatever the inputs. -/
def Obligations.InvariantStatesNeverStop : Prop := ∀ s : State, StateInv s → ∃ t, step s = .next t

/-- No step, reset among them, changes a parameter or a ROM (R34, R66). -/
def Obligations.RomsNeverChange : Prop := ∀ s t : State, step s = .next t → t.cfg = s.cfg ∧ t.rom = s.rom

/-- `reboot_req` rises only where the dispatcher fetches a REBOOT (R175, R217), and falls only at a reset (R231). -/
def Obligations.RebootRequestOrigin : Prop :=
  ∀ s t : State, step s = .next t →
    (s.rebootReq = false → t.rebootReq = true →
      s.ph = .dispFetch ∧ ∃ w, (s.rom.get (s.key.extractLsb' 0 4).toFin)[s.apc.toNat]? = some w ∧ decodeCmd w = .reboot) ∧
    (s.rebootReq = true → t.rebootReq = false → s.pins.rst = true)

/-- Without `rst`, the audio channel's registers change only where a BEEP or MELODY starts and in the tone generator's own
wait phases (R68, R155). -/
def Obligations.OnlyToneGeneratorWritesAudio : Prop :=
  ∀ s t : State, s.pins.rst = false → step s = .next t → t.pwmDiv16 ≠ s.pwmDiv16 ∨ t.pwmLevel ≠ s.pwmLevel →
    s.ph = .beepOn ∨ s.ph = .beepGap ∨ s.ph = .melOn ∨ s.ph = .melGap ∨
      s.ph = .dispFetch ∧ ∃ w, s.command = some w ∧ (decodeCmd w = .melody ∨
        ∃ n f d, n ≠ 0 ∧ decodeCmd w = .beep n f d)

/-- Without `rst`, the LED port changes only where a FILL or LETTER starts and in the renderer's phases FR_EMIT and FR_STEP
(R120). -/
def Obligations.OnlyRendererWritesLeds : Prop :=
  ∀ s t : State, s.pins.rst = false → step s = .next t → t.ledValid ≠ s.ledValid ∨ t.ledWord ≠ s.ledWord →
    s.ph = .frEmit ∨ s.ph = .frStep ∨
      s.ph = .dispFetch ∧ ∃ w, s.command = some w ∧ ((∃ k, decodeCmd w = .fill k) ∨ ∃ g, decodeCmd w = .letter g)

/-- A pending word is stable until it is accepted (R60): in a state that meets the invariant, while `led_valid = 1` and the
channel is not ready, the word stays and stays offered. -/
def Obligations.PendingWordIsStable : Prop :=
  ∀ s : State, StateInv s → s.ledValid = true → s.pins.rst = false → s.pins.ledReady = false →
    ∃ t, step s = .next t ∧ t.ledValid = true ∧ t.ledWord = s.ledWord ∧ t.frPix = s.frPix ∧ t.ph = .frEmit

/-- The log pulse (R105, R200, R221): without `rst` it is raised exactly where Idle becomes Dispatching, which is the
release in KS_REL, with the dispatched key's code. -/
def Obligations.LogPulseMarksDispatch : Prop :=
  ∀ s t : State, s.pins.rst = false → step s = .next t →
    (t.logValid = true ↔ controlState s.ph = .idle ∧ controlState t.ph = .dispatching) ∧
    (t.logValid = true → s.ph = .ksRel ∧ t.ph = .dispFetch ∧ t.apc = 0 ∧ t.key = 1#1 ++ s.ksR ++ s.ksC ∧ t.logCode = t.key) ∧
    (t.logValid = false → t.logCode = s.logCode)

/-- The columns are read only in KS_COL and KS_REL (R205): in every other phase two states that differ only in the
synchroniser and in the level of `col_n` in this cycle step to states that differ only in the synchroniser. -/
def Obligations.ColumnsReadOnlyInScan : Prop :=
  ∀ (s t : State) (a b c : BitVec 4), s.ph ≠ .ksCol → s.ph ≠ .ksRel → step s = .next t →
    ∃ u, step { s with sync1 := a, sync2 := b, inputs := { s.pins with colN := c } :: s.inputs.tail } = .next u ∧
      { u with sync1 := t.sync1, sync2 := t.sync2 } = t

/-! ### Runs -/

/-- A wait phase lasts `max(1, dcnt)` cycles (R8). A cycle with `dcnt` above 1 counts it down by one and changes nothing but
the always-running part; so in fewer than `max(1, dcnt)` cycles every register but `dcnt`, the synchroniser, the PWM counter
and `log_valid` (0 from the second cycle on) is as it was, `reboot_req`, `log_code` and the other output registers among them;
and after exactly `max(1, dcnt)` cycles the phase is left. (FR_STEP's exit reads the glyph of a letter index, R125.) That the
model's own input queue and cycle counter go on by one a cycle is the model's choice, log entry 2. -/
def Obligations.WaitPhaseLasts : Prop :=
  (∀ s : State, isWait s.ph = true → s.pins.rst = false → 1 < s.dcnt.toNat →
    step s = .next { s.clocked with dcnt := s.dcnt - 1 }) ∧
  (∀ (s : State) (n : Nat), isWait s.ph = true → n < max 1 s.dcnt.toNat → NoReset n s →
    ∃ t, Sys2Proof.core.run n s = .next t ∧ t.dcnt.toNat = s.dcnt.toNat - n ∧ (0 < n → t.logValid = false) ∧
      t = { s with
        dcnt := t.dcnt, sync1 := t.sync1, sync2 := t.sync2, pwmCnt := t.pwmCnt, pwmFrac := t.pwmFrac,
        logValid := t.logValid, inputs := s.inputs.drop n, cycle := s.cycle + n }) ∧
  ∀ s : State, isWait s.ph = true → (s.ph = .frStep → s.frIdx.toNat ≤ 4) → NoReset (max 1 s.dcnt.toNat) s →
    ∃ t, Sys2Proof.core.run (max 1 s.dcnt.toNat) s = .next t ∧ t.ph ≠ s.ph

/-- A held key holds the block in KS_REL for ever (R105, R213): while the watched column reads low, for any number of
cycles, the row stays driven and `key`, `led_valid`, `pwm_level` and `reboot_req` stay as they are. -/
def Obligations.HeldKeyHoldsScanner : Prop :=
  ∀ (s : State) (n : Nat), s.ph = .ksRel → NoReset n s → s.sync2.getLsbD s.ksC.toNat = false →
    s.sync1.getLsbD s.ksC.toNat = false → (∀ j < n, (s.pinsAt j).colN.getLsbD s.ksC.toNat = false) →
    ∃ t, Sys2Proof.core.run n s = .next t ∧ t.ph = .ksRel ∧ t.ksR = s.ksR ∧ t.ksC = s.ksC ∧ t.rowN = s.rowN ∧
      t.key = s.key ∧ t.ledValid = s.ledValid ∧ t.pwmLevel = s.pwmLevel ∧ t.rebootReq = s.rebootReq

/-- The first column that reads low is taken, in row-major order (R104, R106, R112). In one row: with column levels `v` held
steady, a row whose lowest low column is `c` enters KS_REL on column `c` after `c + 1` cycles of KS_COL. Over a whole scan, whatever
`col_n` does: where column `c` of row `r` is low at its sampling edge (R110) and every earlier column in row-major order was
high at its own, the first KS_REL cycle is cycle `r * (S + 4) + S + c + 2` of the scan, with row `r` alone driven and key
`(r, c)` selected, and before it the scan is in KS_SETTLE and KS_COL. And under the keypad law R109, with one key closed from the
scan's first cycle until after the cycle that decides on it, and then released, the scan ends with that key's code and
character (R112). -/
def Obligations.FirstLowColumnWins : Prop :=
  (∀ (s : State) (v : BitVec 4) (c : Nat), s.ph = .ksCol → s.ksC = 0 → c < 4 → v.getLsbD c = false →
      (∀ d < c, v.getLsbD d = true) → s.sync2 = v → s.sync1 = v →
      NoReset (c + 1) s → (∀ j < c + 1, (s.pinsAt j).colN = v) →
      ∃ t, Sys2Proof.core.run (c + 1) s = .next t ∧ t.ph = .ksRel ∧ t.ksR = s.ksR ∧ t.ksC.toNat = c ∧ t.rowN = s.rowN) ∧
  (∀ (s : State) (r c : Nat), s.ph = .ksSettle → s.ksR = 0 → s.ksC = 0 → s.rowN = 0b1110 → s.cfg.settleCyc < 2 ^ 16 →
    s.scnt.toNat = s.cfg.settleCyc → r < 4 → c < 4 →
    (s.pinsAt (sampleAt s.cfg r c)).colN.getLsbD c = false →
    (∀ a < 4, ∀ b < 4, 4 * a + b < 4 * r + c → (s.pinsAt (sampleAt s.cfg a b)).colN.getLsbD b = true) →
    NoReset (decideAt s.cfg r c + 1) s →
    (∃ t, Sys2Proof.core.run (decideAt s.cfg r c + 1) s = .next t ∧ t.ph = .ksRel ∧ t.ksR.toNat = r ∧ t.ksC.toNat = c ∧
      t.rowN = ~~~(1#4 <<< r) ∧ t.key = s.key) ∧
    ∀ n ≤ decideAt s.cfg r c, ∃ t, Sys2Proof.core.run n s = .next t ∧ (t.ph = .ksSettle ∨ t.ph = .ksCol)) ∧
  ∀ (s : State) (r c : BitVec 2) (m : Nat), s.ph = .ksSettle → s.ksR = 0 → s.ksC = 0 → s.rowN = 0b1110 →
    s.cfg.settleCyc < 2 ^ 16 → s.scnt.toNat = s.cfg.settleCyc → decideAt s.cfg r.toNat c.toNat < m → NoReset (m + 3) s →
    OnMatrix (fun j => if j < m then 1#16 <<< (4 * r.toNat + c.toNat) else 0) (m + 3) s →
    ∃ t, Sys2Proof.core.run (m + 3) s = .next t ∧ t.ph = .dispFetch ∧ t.key = 1#1 ++ r ++ c ∧ t.logValid = true ∧
      t.logCode = 1#1 ++ r ++ c ∧ t.apc = 0 ∧ t.rowN = 0b1111 ∧ keyChar t.key = some (layout r c)

/-- A scan that finds no key lasts exactly `4 * (SETTLE_CYC + 4)` cycles, from its first KS_SETTLE cycle (R110), and ends in
the idle wait with no row driven, no log pulse and `key` as it was. -/
def Obligations.EmptyScanLasts : Prop :=
  ∀ s : State, s.ph = .ksSettle → s.ksR = 0 → s.ksC = 0 → s.cfg.settleCyc < 2 ^ 16 → s.scnt.toNat = s.cfg.settleCyc →
    s.sync1 = 0b1111 → s.sync2 = 0b1111 → NoReset (4 * (s.cfg.settleCyc + 4)) s →
    (∀ j < 4 * (s.cfg.settleCyc + 4), (s.pinsAt j).colN = 0b1111) →
    (∃ t, Sys2Proof.core.run (4 * (s.cfg.settleCyc + 4)) s = .next t ∧ t.ph = .idleWait ∧ t.rowN = 0b1111 ∧
      t.key = s.key ∧ t.logValid = false ∧ IsWaitCount s.cfg 100 t.dcnt) ∧
    ∀ n < 4 * (s.cfg.settleCyc + 4), ∃ t, Sys2Proof.core.run n s = .next t ∧ isScan t.ph = true

/-- A frame is 25 words in reverse index order (R59, R124, R128): from its first FR_EMIT cycle, with the channel ready, the
words accepted in 25 cycles are those of frame indices 24 down to 0, and then none is pending. -/
def Obligations.FrameWordsInReverseOrder : Prop :=
  ∀ s : State, s.ph = .frEmit → s.ledValid = true → s.frPix = 24 → s.frIdx.toNat ≤ 4 →
    pixWord s.cfg s.frKind s.frIdx.toNat 24 = some s.ledWord → NoReset 25 s → LedReady 25 s →
    (ledWords 25 s).map some = (List.range 25).map (fun j => pixWord s.cfg s.frKind s.frIdx.toNat (24 - j)) ∧
    ∃ t, Sys2Proof.core.run 25 s = .next t ∧ t.ledValid = false ∧ (t.ph = .frHold ∨ t.ph = .frStep)

/-- FILL k from its DISP_FETCH cycle (R127, R128): 25 words of its one colour, then the hold, and the next command after
`26 + max(1, FILL_HOLD_MS * T)` cycles. -/
def Obligations.FillSpan : Prop :=
  ∀ (s : State) (w : Cmd) (k : BitVec 8) (c : Rgb), s.ph = .dispFetch → s.command = some w → decodeCmd w = .fill k →
    colorRom s.cfg k.toNat = some c → s.ledValid = false → s.apc.toNat < 15 → WaitFits s.cfg s.cfg.fillHoldMs →
    NoReset (26 + waitSpan s.cfg s.cfg.fillHoldMs) s → LedReady 26 s →
    ledWords 26 s = List.replicate 25 (packRgb s.cfg c) ∧
    ∃ t, Sys2Proof.core.run (26 + waitSpan s.cfg s.cfg.fillHoldMs) s = .next t ∧ t.ph = .dispFetch ∧
      t.apc.toNat = s.apc.toNat + 1 ∧ t.key = s.key ∧ t.ledValid = false ∧ t.pwmLevel = s.pwmLevel

/-- LETTER g from its DISP_FETCH cycle, with the channel ready (R125, R127, R128). In SINGLE mode: the 25 words of its glyph,
index 24 first, then the hold, and the next command after `26 + max(1, GLYPH_HOLD_MS * T)` cycles. In REPLAY mode: 25 whole
frames, 625 words, each frame followed by 100 ms without a word and the last by 500 ms more, and the next command after
`1 + 25 * (25 + 100 * T) + 500 * T = 626 + 3000 * T` cycles. -/
def Obligations.LetterSpan : Prop :=
  ∀ (s : State) (w : Cmd) (g : BitVec 8) (h : g.toNat < 5), s.ph = .dispFetch → s.command = some w →
    decodeCmd w = .letter g → s.ledValid = false → s.apc.toNat < 15 →
    (s.cfg.renderMode = .single → WaitFits s.cfg s.cfg.glyphHoldMs →
      NoReset (26 + waitSpan s.cfg s.cfg.glyphHoldMs) s → LedReady 26 s →
      ledWords 26 s = (List.range 25).map (fun j =>
        packRgb s.cfg (if (s.cfg.glyph.get ⟨g.toNat, h⟩).getLsbD (24 - j) then s.cfg.letterColor else ⟨0, 0, 0⟩)) ∧
      cycleTrace State.ledAccepted (26 + waitSpan s.cfg s.cfg.glyphHoldMs) s = letterTrace s.cfg ⟨g.toNat, h⟩ ∧
      ∃ t, Sys2Proof.core.run (26 + waitSpan s.cfg s.cfg.glyphHoldMs) s = .next t ∧ t.ph = .dispFetch ∧
        t.apc.toNat = s.apc.toNat + 1 ∧ t.key = s.key ∧ t.ledValid = false ∧ t.pwmLevel = s.pwmLevel) ∧
    (s.cfg.renderMode = .replay → WaitFits s.cfg 500 →
      NoReset (626 + 3000 * (s.cfg.clkHz / 1000)) s → LedReady (626 + 3000 * (s.cfg.clkHz / 1000)) s →
      1 + 25 * (25 + waitSpan s.cfg 100) + waitSpan s.cfg 500 = 626 + 3000 * (s.cfg.clkHz / 1000) ∧
      cycleTrace State.ledAccepted (626 + 3000 * (s.cfg.clkHz / 1000)) s =
        none :: (List.replicate 25 ((letterFrame s.cfg ⟨g.toNat, h⟩).map some ++
          List.replicate (waitSpan s.cfg 100) none)).flatten ++ List.replicate (waitSpan s.cfg 500) none ∧
      (ledWords (626 + 3000 * (s.cfg.clkHz / 1000)) s).length = 625 ∧
      ∃ t, Sys2Proof.core.run (626 + 3000 * (s.cfg.clkHz / 1000)) s = .next t ∧ t.ph = .dispFetch ∧
        t.apc.toNat = s.apc.toNat + 1 ∧ t.key = s.key ∧ t.ledValid = false ∧ t.pwmLevel = s.pwmLevel)

/-- BEEP n, F, D from its DISP_FETCH cycle (R154, R155): the audio channel shows, cycle by cycle, n tones of `max(1, D * T)`
cycles at `div16(F)` and the level of F (0 for F = 0), each followed by `max(1, 200 * T)` cycles of level 0, and nothing else;
then the next command, after `1 + n * (max(1, D * T) + max(1, 200 * T))` cycles, in silence. -/
def Obligations.BeepSpan : Prop :=
  ∀ (s : State) (w : Cmd) (n : BitVec 8) (f d : BitVec 16), s.ph = .dispFetch → s.command = some w →
    decodeCmd w = .beep n f d → n ≠ 0 → s.apc.toNat < 15 → WaitFits s.cfg d.toNat → WaitFits s.cfg 200 →
    NoReset (1 + n.toNat * (waitSpan s.cfg d.toNat + waitSpan s.cfg 200)) s →
    cycleTrace State.audio (1 + n.toNat * (waitSpan s.cfg d.toNat + waitSpan s.cfg 200)) s =
      s.audio :: (List.replicate n.toNat (
        List.replicate (waitSpan s.cfg d.toNat) (BitVec.ofNat 12 (div16 s.cfg f), if f = 0 then 0 else 2048) ++
        List.replicate (waitSpan s.cfg 200) (BitVec.ofNat 12 (div16 s.cfg f), 0))).flatten ∧
    ∃ t, Sys2Proof.core.run (1 + n.toNat * (waitSpan s.cfg d.toNat + waitSpan s.cfg 200)) s = .next t ∧
      t.ph = .dispFetch ∧ t.apc.toNat = s.apc.toNat + 1 ∧ t.key = s.key ∧ t.pwmLevel = 0 ∧
      t.pwmDiv16.toNat = div16 s.cfg f ∧ t.ledValid = s.ledValid

/-- MELODY from its DISP_FETCH cycle (R154, R155): the audio channel shows, cycle by cycle, the eight notes in table order,
note i for `max(1, D_i * T)` cycles at `div16(F_i)` and the level of F_i, each followed by `max(1, 150 * T)` cycles of level 0,
and nothing else; then the next command, after `1 + Σ (max(1, D_i * T) + max(1, 150 * T))` cycles, in silence. -/
def Obligations.MelodySpan : Prop :=
  ∀ (s : State) (w : Cmd), s.ph = .dispFetch → s.command = some w → decodeCmd w = .melody → s.apc.toNat < 15 →
    (∀ i, WaitFits s.cfg (s.cfg.melody.get i).ms.toNat) → WaitFits s.cfg 150 →
    NoReset (1 + ∑ i : Fin 8, (waitSpan s.cfg (s.cfg.melody.get i).ms.toNat + waitSpan s.cfg 150)) s →
    cycleTrace State.audio (1 + ∑ i : Fin 8, (waitSpan s.cfg (s.cfg.melody.get i).ms.toNat + waitSpan s.cfg 150)) s =
      s.audio :: (List.finRange 8).flatMap (fun i =>
        List.replicate (waitSpan s.cfg (s.cfg.melody.get i).ms.toNat)
          (BitVec.ofNat 12 (div16 s.cfg (s.cfg.melody.get i).freq), if (s.cfg.melody.get i).freq = 0 then 0 else 2048) ++
        List.replicate (waitSpan s.cfg 150) (BitVec.ofNat 12 (div16 s.cfg (s.cfg.melody.get i).freq), 0)) ∧
    ∃ t, Sys2Proof.core.run (1 + ∑ i : Fin 8, (waitSpan s.cfg (s.cfg.melody.get i).ms.toNat + waitSpan s.cfg 150)) s = .next t ∧
      t.ph = .dispFetch ∧ t.apc.toNat = s.apc.toNat + 1 ∧ t.key = s.key ∧ t.pwmLevel = 0 ∧ t.tgNote = 7 ∧
      t.ledValid = s.ledValid

/-- The PWM counter's rate (R145, R147): from an accumulator of 0 under a constant divider d, after n ticks the counter has
advanced by `floor(16 * n / d)`, modulo 4096, and the accumulator holds the remainder; so it wraps every `256 * d` ticks. -/
def Obligations.PwmCounterRate : Prop :=
  ∀ (s : State) (n : Nat), s.pwmFrac = 0 → 16 ≤ s.pwmDiv16.toNat →
    (State.pwmStep^[n] s).pwmCnt.toNat = (s.pwmCnt.toNat + 16 * n / s.pwmDiv16.toNat) % 4096 ∧
    (State.pwmStep^[n] s).pwmFrac.toNat = 16 * n % s.pwmDiv16.toNat ∧
    State.pwmStep^[256 * s.pwmDiv16.toNat] s = s

/-- Key '1''s dispatch with the reference ROM, from its log pulse's cycle, with the channel ready (R177, R194(a)). Cycle by cycle,
the audio channel shows the two beeps at `div16(BUZZER_FREQ_HZ)` of 200 ms with 200 ms of silence after each, silence until the
melody, and the melody's eight notes in table order with their gaps; the LED channel accepts nothing during the beeps, then the
frames of A, E, I, O, U with their holds (25 frames of each in REPLAY mode), and nothing after them; no further log pulse and no
reboot request comes; and the idle wait of 100 ms follows. With the default holds and notes it takes `133 + 21000 * T` cycles in
SINGLE mode and `3133 + 21000 * T` in REPLAY mode (R241). -/
def Obligations.IntroKeyDispatch : Prop :=
  ∀ s : State, s.ph = .dispFetch → s.apc = 0 → s.rom = actProgRef s.cfg → s.key = 0x10 → s.ledValid = false →
    WaitFits s.cfg 500 → WaitFits s.cfg s.cfg.glyphHoldMs → (∀ i, WaitFits s.cfg (s.cfg.melody.get i).ms.toNat) →
    NoReset (introSpan s.cfg) s → LedReady (introSpan s.cfg) s →
    cycleTrace State.audio (introSpan s.cfg) s =
      s.audio :: beepTrace s.cfg 2 s.cfg.buzzerFreqHz 200 ++
        List.replicate (5 * letterSpan s.cfg + 1) (BitVec.ofNat 12 (div16 s.cfg s.cfg.buzzerFreqHz), 0) ++
        melodyTrace s.cfg ++ [(BitVec.ofNat 12 (div16 s.cfg (s.cfg.melody.get 7).freq), 0)] ∧
    cycleTrace State.ledAccepted (introSpan s.cfg) s =
      List.replicate (1 + 2 * (waitSpan s.cfg 200 + waitSpan s.cfg 200)) none ++
        (List.finRange 5).flatMap (letterTrace s.cfg) ++ List.replicate (1 + melodySpan s.cfg + 1) none ∧
    cycleTrace State.logValid (introSpan s.cfg) s = s.logValid :: List.replicate (introSpan s.cfg - 1) false ∧
    cycleTrace State.rebootReq (introSpan s.cfg) s = List.replicate (introSpan s.cfg) s.rebootReq ∧
    (∃ t, Sys2Proof.core.run (introSpan s.cfg) s = .next t ∧ t.ph = .idleWait ∧ IsWaitCount s.cfg 100 t.dcnt ∧
      t.key = s.key ∧ t.pwmLevel = 0 ∧ t.ledValid = false ∧ t.rebootReq = s.rebootReq ∧ t.logValid = false) ∧
    (s.cfg.glyphHoldMs = 3000 → (∀ i, (s.cfg.melody.get i).ms = 500) →
      introSpan s.cfg = (if s.cfg.renderMode = .single then 133 else 3133) + 21000 * (s.cfg.clkHz / 1000))

/-- The Unmapped keys' dispatch with the reference ROM (R77, R178 to R189): its one DISP_FETCH cycle goes to the idle wait,
and no LED, audio, reboot or log output is raised. -/
def Obligations.UnmappedKeyDispatch : Prop :=
  ∀ s : State, s.ph = .dispFetch → s.apc = 0 → s.rom = actProgRef s.cfg → s.pins.rst = false →
    s.key ∈ [(0x11 : KeyCode), 0x12, 0x14, 0x15, 0x16, 0x18, 0x19, 0x1A, 0x1C] →
    ∃ v, IsWaitCount s.cfg 100 v ∧ step s = .next { s.clocked with dcnt := v, ph := .idleWait }

/-- The solid-colour keys' dispatch with the reference ROM (R180, R184, R188, R191, R192, R194): 25 words of the key's
colour, and the idle wait after `27 + max(1, FILL_HOLD_MS * T)` cycles from the log pulse's cycle, 28 by default (R241). -/
def Obligations.SolidColourKeyDispatch : Prop :=
  ∀ (s : State) (c : Rgb), s.ph = .dispFetch → s.apc = 0 → s.rom = actProgRef s.cfg → s.ledValid = false →
    (s.key, c) ∈ [((0x13 : KeyCode), (⟨0, 0, 0⟩ : Rgb)), (0x17, s.cfg.blueFull), (0x1B, s.cfg.redHalf),
      (0x1E, ⟨32, 64, 16⟩), (0x1F, s.cfg.greenHalf)] →
    WaitFits s.cfg s.cfg.fillHoldMs → NoReset (27 + waitSpan s.cfg s.cfg.fillHoldMs) s → LedReady 26 s →
    ledWords 26 s = List.replicate 25 (packRgb s.cfg c) ∧
    ∃ t, Sys2Proof.core.run (27 + waitSpan s.cfg s.cfg.fillHoldMs) s = .next t ∧ t.ph = .idleWait ∧
      IsWaitCount s.cfg 100 t.dcnt ∧ t.pwmLevel = s.pwmLevel ∧ t.rebootReq = s.rebootReq

/-- Key '0''s dispatch with the reference ROM (R190, R194): the reboot request is raised `100 * T + 2` cycles after the log
pulse's cycle began, not before, and the block is then in HALT. -/
def Obligations.RebootKeyDispatch : Prop :=
  ∀ s : State, s.ph = .dispFetch → s.apc = 0 → s.rom = actProgRef s.cfg → s.key = 0x1D → s.rebootReq = false →
    WaitFits s.cfg 100 → NoReset (100 * (s.cfg.clkHz / 1000) + 2) s →
    (∃ t, Sys2Proof.core.run (100 * (s.cfg.clkHz / 1000) + 2) s = .next t ∧ t.ph = .halt ∧ t.rebootReq = true) ∧
    ∀ n < 100 * (s.cfg.clkHz / 1000) + 2, ∃ t, Sys2Proof.core.run n s = .next t ∧ t.rebootReq = false

/-- REBOOT is terminal (R204, R239): from HALT, for any number of cycles without `rst`, the block stays in HALT with the
request up, no row driven and no word offered, as the invariant gives them. -/
def Obligations.HaltIsTerminal : Prop :=
  ∀ (s : State) (n : Nat), StateInv s → s.ph = .halt → NoReset n s →
    ∃ t, Sys2Proof.core.run n s = .next t ∧ t.ph = .halt ∧ t.rebootReq = true ∧ t.rowN = 0b1111 ∧ t.ledValid = false ∧
      t.pwmOut = false
end

