-- ==== Sys2Proof/Laws/State.lean ====
section
/-! SUPPORT. What each shared operation writes and what it leaves: one lemma per field per update, true by unfolding the
operation once, so that no later proof unfolds it. -/

namespace Sys2Proof.Machine

@[simp] theorem loadWait_ph (s : State) (ms : Nat) (w : Phase) : (s.loadWait ms w).ph = w := rfl
@[simp] theorem loadWait_faultCode (s : State) (ms : Nat) (w : Phase) : (s.loadWait ms w).faultCode = s.faultCode := rfl
@[simp] theorem loadWait_dcnt (s : State) (ms : Nat) (w : Phase) : (s.loadWait ms w).dcnt = s.fitCount (msCycles s.cfg ms) := rfl
@[simp] theorem loadWait_scnt (s : State) (ms : Nat) (w : Phase) : (s.loadWait ms w).scnt = s.scnt := rfl
@[simp] theorem loadWait_ksR (s : State) (ms : Nat) (w : Phase) : (s.loadWait ms w).ksR = s.ksR := rfl
@[simp] theorem loadWait_ksC (s : State) (ms : Nat) (w : Phase) : (s.loadWait ms w).ksC = s.ksC := rfl
@[simp] theorem loadWait_rowN (s : State) (ms : Nat) (w : Phase) : (s.loadWait ms w).rowN = s.rowN := rfl
@[simp] theorem loadWait_sync1 (s : State) (ms : Nat) (w : Phase) : (s.loadWait ms w).sync1 = s.sync1 := rfl
@[simp] theorem loadWait_sync2 (s : State) (ms : Nat) (w : Phase) : (s.loadWait ms w).sync2 = s.sync2 := rfl
@[simp] theorem loadWait_key (s : State) (ms : Nat) (w : Phase) : (s.loadWait ms w).key = s.key := rfl
@[simp] theorem loadWait_apc (s : State) (ms : Nat) (w : Phase) : (s.loadWait ms w).apc = s.apc := rfl
@[simp] theorem loadWait_tgRem (s : State) (ms : Nat) (w : Phase) : (s.loadWait ms w).tgRem = s.tgRem := rfl
@[simp] theorem loadWait_tgD (s : State) (ms : Nat) (w : Phase) : (s.loadWait ms w).tgD = s.tgD := rfl
@[simp] theorem loadWait_tgLvl (s : State) (ms : Nat) (w : Phase) : (s.loadWait ms w).tgLvl = s.tgLvl := rfl
@[simp] theorem loadWait_tgNote (s : State) (ms : Nat) (w : Phase) : (s.loadWait ms w).tgNote = s.tgNote := rfl
@[simp] theorem loadWait_frKind (s : State) (ms : Nat) (w : Phase) : (s.loadWait ms w).frKind = s.frKind := rfl
@[simp] theorem loadWait_frIdx (s : State) (ms : Nat) (w : Phase) : (s.loadWait ms w).frIdx = s.frIdx := rfl
@[simp] theorem loadWait_frPix (s : State) (ms : Nat) (w : Phase) : (s.loadWait ms w).frPix = s.frPix := rfl
@[simp] theorem loadWait_frRep (s : State) (ms : Nat) (w : Phase) : (s.loadWait ms w).frRep = s.frRep := rfl
@[simp] theorem loadWait_ledValid (s : State) (ms : Nat) (w : Phase) : (s.loadWait ms w).ledValid = s.ledValid := rfl
@[simp] theorem loadWait_ledWord (s : State) (ms : Nat) (w : Phase) : (s.loadWait ms w).ledWord = s.ledWord := rfl
@[simp] theorem loadWait_pwmCnt (s : State) (ms : Nat) (w : Phase) : (s.loadWait ms w).pwmCnt = s.pwmCnt := rfl
@[simp] theorem loadWait_pwmFrac (s : State) (ms : Nat) (w : Phase) : (s.loadWait ms w).pwmFrac = s.pwmFrac := rfl
@[simp] theorem loadWait_pwmDiv16 (s : State) (ms : Nat) (w : Phase) : (s.loadWait ms w).pwmDiv16 = s.pwmDiv16 := rfl
@[simp] theorem loadWait_pwmLevel (s : State) (ms : Nat) (w : Phase) : (s.loadWait ms w).pwmLevel = s.pwmLevel := rfl
@[simp] theorem loadWait_rebootReq (s : State) (ms : Nat) (w : Phase) : (s.loadWait ms w).rebootReq = s.rebootReq := rfl
@[simp] theorem loadWait_logValid (s : State) (ms : Nat) (w : Phase) : (s.loadWait ms w).logValid = s.logValid := rfl
@[simp] theorem loadWait_logCode (s : State) (ms : Nat) (w : Phase) : (s.loadWait ms w).logCode = s.logCode := rfl
@[simp] theorem loadWait_cfg (s : State) (ms : Nat) (w : Phase) : (s.loadWait ms w).cfg = s.cfg := rfl
@[simp] theorem loadWait_rom (s : State) (ms : Nat) (w : Phase) : (s.loadWait ms w).rom = s.rom := rfl
@[simp] theorem loadWait_inputs (s : State) (ms : Nat) (w : Phase) : (s.loadWait ms w).inputs = s.inputs := rfl
@[simp] theorem loadWait_cycle (s : State) (ms : Nat) (w : Phase) : (s.loadWait ms w).cycle = s.cycle := rfl

@[simp] theorem nextCommand_ph (s : State) : (s.nextCommand).ph = .dispFetch := rfl
@[simp] theorem nextCommand_faultCode (s : State) : (s.nextCommand).faultCode = s.faultCode := rfl
@[simp] theorem nextCommand_dcnt (s : State) : (s.nextCommand).dcnt = s.dcnt := rfl
@[simp] theorem nextCommand_scnt (s : State) : (s.nextCommand).scnt = s.scnt := rfl
@[simp] theorem nextCommand_ksR (s : State) : (s.nextCommand).ksR = s.ksR := rfl
@[simp] theorem nextCommand_ksC (s : State) : (s.nextCommand).ksC = s.ksC := rfl
@[simp] theorem nextCommand_rowN (s : State) : (s.nextCommand).rowN = s.rowN := rfl
@[simp] theorem nextCommand_sync1 (s : State) : (s.nextCommand).sync1 = s.sync1 := rfl
@[simp] theorem nextCommand_sync2 (s : State) : (s.nextCommand).sync2 = s.sync2 := rfl
@[simp] theorem nextCommand_key (s : State) : (s.nextCommand).key = s.key := rfl
@[simp] theorem nextCommand_apc (s : State) : (s.nextCommand).apc = s.fit 4 (s.apc.toNat + 1) := rfl
@[simp] theorem nextCommand_tgRem (s : State) : (s.nextCommand).tgRem = s.tgRem := rfl
@[simp] theorem nextCommand_tgD (s : State) : (s.nextCommand).tgD = s.tgD := rfl
@[simp] theorem nextCommand_tgLvl (s : State) : (s.nextCommand).tgLvl = s.tgLvl := rfl
@[simp] theorem nextCommand_tgNote (s : State) : (s.nextCommand).tgNote = s.tgNote := rfl
@[simp] theorem nextCommand_frKind (s : State) : (s.nextCommand).frKind = s.frKind := rfl
@[simp] theorem nextCommand_frIdx (s : State) : (s.nextCommand).frIdx = s.frIdx := rfl
@[simp] theorem nextCommand_frPix (s : State) : (s.nextCommand).frPix = s.frPix := rfl
@[simp] theorem nextCommand_frRep (s : State) : (s.nextCommand).frRep = s.frRep := rfl
@[simp] theorem nextCommand_ledValid (s : State) : (s.nextCommand).ledValid = s.ledValid := rfl
@[simp] theorem nextCommand_ledWord (s : State) : (s.nextCommand).ledWord = s.ledWord := rfl
@[simp] theorem nextCommand_pwmCnt (s : State) : (s.nextCommand).pwmCnt = s.pwmCnt := rfl
@[simp] theorem nextCommand_pwmFrac (s : State) : (s.nextCommand).pwmFrac = s.pwmFrac := rfl
@[simp] theorem nextCommand_pwmDiv16 (s : State) : (s.nextCommand).pwmDiv16 = s.pwmDiv16 := rfl
@[simp] theorem nextCommand_pwmLevel (s : State) : (s.nextCommand).pwmLevel = s.pwmLevel := rfl
@[simp] theorem nextCommand_rebootReq (s : State) : (s.nextCommand).rebootReq = s.rebootReq := rfl
@[simp] theorem nextCommand_logValid (s : State) : (s.nextCommand).logValid = s.logValid := rfl
@[simp] theorem nextCommand_logCode (s : State) : (s.nextCommand).logCode = s.logCode := rfl
@[simp] theorem nextCommand_cfg (s : State) : (s.nextCommand).cfg = s.cfg := rfl
@[simp] theorem nextCommand_rom (s : State) : (s.nextCommand).rom = s.rom := rfl
@[simp] theorem nextCommand_inputs (s : State) : (s.nextCommand).inputs = s.inputs := rfl
@[simp] theorem nextCommand_cycle (s : State) : (s.nextCommand).cycle = s.cycle := rfl

@[simp] theorem emitLog_ph (s : State) (k : KeyCode) : (s.emitLog k).ph = s.ph := rfl
@[simp] theorem emitLog_faultCode (s : State) (k : KeyCode) : (s.emitLog k).faultCode = s.faultCode := rfl
@[simp] theorem emitLog_dcnt (s : State) (k : KeyCode) : (s.emitLog k).dcnt = s.dcnt := rfl
@[simp] theorem emitLog_scnt (s : State) (k : KeyCode) : (s.emitLog k).scnt = s.scnt := rfl
@[simp] theorem emitLog_ksR (s : State) (k : KeyCode) : (s.emitLog k).ksR = s.ksR := rfl
@[simp] theorem emitLog_ksC (s : State) (k : KeyCode) : (s.emitLog k).ksC = s.ksC := rfl
@[simp] theorem emitLog_rowN (s : State) (k : KeyCode) : (s.emitLog k).rowN = s.rowN := rfl
@[simp] theorem emitLog_sync1 (s : State) (k : KeyCode) : (s.emitLog k).sync1 = s.sync1 := rfl
@[simp] theorem emitLog_sync2 (s : State) (k : KeyCode) : (s.emitLog k).sync2 = s.sync2 := rfl
@[simp] theorem emitLog_key (s : State) (k : KeyCode) : (s.emitLog k).key = s.key := rfl
@[simp] theorem emitLog_apc (s : State) (k : KeyCode) : (s.emitLog k).apc = s.apc := rfl
@[simp] theorem emitLog_tgRem (s : State) (k : KeyCode) : (s.emitLog k).tgRem = s.tgRem := rfl
@[simp] theorem emitLog_tgD (s : State) (k : KeyCode) : (s.emitLog k).tgD = s.tgD := rfl
@[simp] theorem emitLog_tgLvl (s : State) (k : KeyCode) : (s.emitLog k).tgLvl = s.tgLvl := rfl
@[simp] theorem emitLog_tgNote (s : State) (k : KeyCode) : (s.emitLog k).tgNote = s.tgNote := rfl
@[simp] theorem emitLog_frKind (s : State) (k : KeyCode) : (s.emitLog k).frKind = s.frKind := rfl
@[simp] theorem emitLog_frIdx (s : State) (k : KeyCode) : (s.emitLog k).frIdx = s.frIdx := rfl
@[simp] theorem emitLog_frPix (s : State) (k : KeyCode) : (s.emitLog k).frPix = s.frPix := rfl
@[simp] theorem emitLog_frRep (s : State) (k : KeyCode) : (s.emitLog k).frRep = s.frRep := rfl
@[simp] theorem emitLog_ledValid (s : State) (k : KeyCode) : (s.emitLog k).ledValid = s.ledValid := rfl
@[simp] theorem emitLog_ledWord (s : State) (k : KeyCode) : (s.emitLog k).ledWord = s.ledWord := rfl
@[simp] theorem emitLog_pwmCnt (s : State) (k : KeyCode) : (s.emitLog k).pwmCnt = s.pwmCnt := rfl
@[simp] theorem emitLog_pwmFrac (s : State) (k : KeyCode) : (s.emitLog k).pwmFrac = s.pwmFrac := rfl
@[simp] theorem emitLog_pwmDiv16 (s : State) (k : KeyCode) : (s.emitLog k).pwmDiv16 = s.pwmDiv16 := rfl
@[simp] theorem emitLog_pwmLevel (s : State) (k : KeyCode) : (s.emitLog k).pwmLevel = s.pwmLevel := rfl
@[simp] theorem emitLog_rebootReq (s : State) (k : KeyCode) : (s.emitLog k).rebootReq = s.rebootReq := rfl
@[simp] theorem emitLog_logValid (s : State) (k : KeyCode) : (s.emitLog k).logValid = true := rfl
@[simp] theorem emitLog_logCode (s : State) (k : KeyCode) : (s.emitLog k).logCode = k := rfl
@[simp] theorem emitLog_cfg (s : State) (k : KeyCode) : (s.emitLog k).cfg = s.cfg := rfl
@[simp] theorem emitLog_rom (s : State) (k : KeyCode) : (s.emitLog k).rom = s.rom := rfl
@[simp] theorem emitLog_inputs (s : State) (k : KeyCode) : (s.emitLog k).inputs = s.inputs := rfl
@[simp] theorem emitLog_cycle (s : State) (k : KeyCode) : (s.emitLog k).cycle = s.cycle := rfl

@[simp] theorem raiseFault_ph (s : State) (r : FaultCode) : (s.raiseFault r).ph = .fault := rfl
@[simp] theorem raiseFault_faultCode (s : State) (r : FaultCode) : (s.raiseFault r).faultCode = r := rfl
@[simp] theorem raiseFault_dcnt (s : State) (r : FaultCode) : (s.raiseFault r).dcnt = s.dcnt := rfl
@[simp] theorem raiseFault_scnt (s : State) (r : FaultCode) : (s.raiseFault r).scnt = s.scnt := rfl
@[simp] theorem raiseFault_ksR (s : State) (r : FaultCode) : (s.raiseFault r).ksR = s.ksR := rfl
@[simp] theorem raiseFault_ksC (s : State) (r : FaultCode) : (s.raiseFault r).ksC = s.ksC := rfl
@[simp] theorem raiseFault_rowN (s : State) (r : FaultCode) : (s.raiseFault r).rowN = s.rowN := rfl
@[simp] theorem raiseFault_sync1 (s : State) (r : FaultCode) : (s.raiseFault r).sync1 = s.sync1 := rfl
@[simp] theorem raiseFault_sync2 (s : State) (r : FaultCode) : (s.raiseFault r).sync2 = s.sync2 := rfl
@[simp] theorem raiseFault_key (s : State) (r : FaultCode) : (s.raiseFault r).key = s.key := rfl
@[simp] theorem raiseFault_apc (s : State) (r : FaultCode) : (s.raiseFault r).apc = s.apc := rfl
@[simp] theorem raiseFault_tgRem (s : State) (r : FaultCode) : (s.raiseFault r).tgRem = s.tgRem := rfl
@[simp] theorem raiseFault_tgD (s : State) (r : FaultCode) : (s.raiseFault r).tgD = s.tgD := rfl
@[simp] theorem raiseFault_tgLvl (s : State) (r : FaultCode) : (s.raiseFault r).tgLvl = s.tgLvl := rfl
@[simp] theorem raiseFault_tgNote (s : State) (r : FaultCode) : (s.raiseFault r).tgNote = s.tgNote := rfl
@[simp] theorem raiseFault_frKind (s : State) (r : FaultCode) : (s.raiseFault r).frKind = s.frKind := rfl
@[simp] theorem raiseFault_frIdx (s : State) (r : FaultCode) : (s.raiseFault r).frIdx = s.frIdx := rfl
@[simp] theorem raiseFault_frPix (s : State) (r : FaultCode) : (s.raiseFault r).frPix = s.frPix := rfl
@[simp] theorem raiseFault_frRep (s : State) (r : FaultCode) : (s.raiseFault r).frRep = s.frRep := rfl
@[simp] theorem raiseFault_ledValid (s : State) (r : FaultCode) : (s.raiseFault r).ledValid = s.ledValid := rfl
@[simp] theorem raiseFault_ledWord (s : State) (r : FaultCode) : (s.raiseFault r).ledWord = s.ledWord := rfl
@[simp] theorem raiseFault_pwmCnt (s : State) (r : FaultCode) : (s.raiseFault r).pwmCnt = s.pwmCnt := rfl
@[simp] theorem raiseFault_pwmFrac (s : State) (r : FaultCode) : (s.raiseFault r).pwmFrac = s.pwmFrac := rfl
@[simp] theorem raiseFault_pwmDiv16 (s : State) (r : FaultCode) : (s.raiseFault r).pwmDiv16 = s.pwmDiv16 := rfl
@[simp] theorem raiseFault_pwmLevel (s : State) (r : FaultCode) : (s.raiseFault r).pwmLevel = s.pwmLevel := rfl
@[simp] theorem raiseFault_rebootReq (s : State) (r : FaultCode) : (s.raiseFault r).rebootReq = s.rebootReq := rfl
@[simp] theorem raiseFault_logValid (s : State) (r : FaultCode) : (s.raiseFault r).logValid = s.logValid := rfl
@[simp] theorem raiseFault_logCode (s : State) (r : FaultCode) : (s.raiseFault r).logCode = s.logCode := rfl
@[simp] theorem raiseFault_cfg (s : State) (r : FaultCode) : (s.raiseFault r).cfg = s.cfg := rfl
@[simp] theorem raiseFault_rom (s : State) (r : FaultCode) : (s.raiseFault r).rom = s.rom := rfl
@[simp] theorem raiseFault_inputs (s : State) (r : FaultCode) : (s.raiseFault r).inputs = s.inputs := rfl
@[simp] theorem raiseFault_cycle (s : State) (r : FaultCode) : (s.raiseFault r).cycle = s.cycle := rfl

@[simp] theorem driveRow_ph (s : State) (r : BitVec 2) : (s.driveRow r).ph = .ksSettle := rfl
@[simp] theorem driveRow_faultCode (s : State) (r : BitVec 2) : (s.driveRow r).faultCode = s.faultCode := rfl
@[simp] theorem driveRow_dcnt (s : State) (r : BitVec 2) : (s.driveRow r).dcnt = s.dcnt := rfl
@[simp] theorem driveRow_scnt (s : State) (r : BitVec 2) : (s.driveRow r).scnt = s.fit 16 s.cfg.settleCyc := rfl
@[simp] theorem driveRow_ksR (s : State) (r : BitVec 2) : (s.driveRow r).ksR = r := rfl
@[simp] theorem driveRow_ksC (s : State) (r : BitVec 2) : (s.driveRow r).ksC = 0 := rfl
@[simp] theorem driveRow_rowN (s : State) (r : BitVec 2) : (s.driveRow r).rowN = ~~~(onehot4 r) := rfl
@[simp] theorem driveRow_sync1 (s : State) (r : BitVec 2) : (s.driveRow r).sync1 = s.sync1 := rfl
@[simp] theorem driveRow_sync2 (s : State) (r : BitVec 2) : (s.driveRow r).sync2 = s.sync2 := rfl
@[simp] theorem driveRow_key (s : State) (r : BitVec 2) : (s.driveRow r).key = s.key := rfl
@[simp] theorem driveRow_apc (s : State) (r : BitVec 2) : (s.driveRow r).apc = s.apc := rfl
@[simp] theorem driveRow_tgRem (s : State) (r : BitVec 2) : (s.driveRow r).tgRem = s.tgRem := rfl
@[simp] theorem driveRow_tgD (s : State) (r : BitVec 2) : (s.driveRow r).tgD = s.tgD := rfl
@[simp] theorem driveRow_tgLvl (s : State) (r : BitVec 2) : (s.driveRow r).tgLvl = s.tgLvl := rfl
@[simp] theorem driveRow_tgNote (s : State) (r : BitVec 2) : (s.driveRow r).tgNote = s.tgNote := rfl
@[simp] theorem driveRow_frKind (s : State) (r : BitVec 2) : (s.driveRow r).frKind = s.frKind := rfl
@[simp] theorem driveRow_frIdx (s : State) (r : BitVec 2) : (s.driveRow r).frIdx = s.frIdx := rfl
@[simp] theorem driveRow_frPix (s : State) (r : BitVec 2) : (s.driveRow r).frPix = s.frPix := rfl
@[simp] theorem driveRow_frRep (s : State) (r : BitVec 2) : (s.driveRow r).frRep = s.frRep := rfl
@[simp] theorem driveRow_ledValid (s : State) (r : BitVec 2) : (s.driveRow r).ledValid = s.ledValid := rfl
@[simp] theorem driveRow_ledWord (s : State) (r : BitVec 2) : (s.driveRow r).ledWord = s.ledWord := rfl
@[simp] theorem driveRow_pwmCnt (s : State) (r : BitVec 2) : (s.driveRow r).pwmCnt = s.pwmCnt := rfl
@[simp] theorem driveRow_pwmFrac (s : State) (r : BitVec 2) : (s.driveRow r).pwmFrac = s.pwmFrac := rfl
@[simp] theorem driveRow_pwmDiv16 (s : State) (r : BitVec 2) : (s.driveRow r).pwmDiv16 = s.pwmDiv16 := rfl
@[simp] theorem driveRow_pwmLevel (s : State) (r : BitVec 2) : (s.driveRow r).pwmLevel = s.pwmLevel := rfl
@[simp] theorem driveRow_rebootReq (s : State) (r : BitVec 2) : (s.driveRow r).rebootReq = s.rebootReq := rfl
@[simp] theorem driveRow_logValid (s : State) (r : BitVec 2) : (s.driveRow r).logValid = s.logValid := rfl
@[simp] theorem driveRow_logCode (s : State) (r : BitVec 2) : (s.driveRow r).logCode = s.logCode := rfl
@[simp] theorem driveRow_cfg (s : State) (r : BitVec 2) : (s.driveRow r).cfg = s.cfg := rfl
@[simp] theorem driveRow_rom (s : State) (r : BitVec 2) : (s.driveRow r).rom = s.rom := rfl
@[simp] theorem driveRow_inputs (s : State) (r : BitVec 2) : (s.driveRow r).inputs = s.inputs := rfl
@[simp] theorem driveRow_cycle (s : State) (r : BitVec 2) : (s.driveRow r).cycle = s.cycle := rfl

@[simp] theorem scanStart_ph (s : State) : (s.scanStart).ph = .ksSettle := rfl
@[simp] theorem scanStart_faultCode (s : State) : (s.scanStart).faultCode = s.faultCode := rfl
@[simp] theorem scanStart_dcnt (s : State) : (s.scanStart).dcnt = s.dcnt := rfl
@[simp] theorem scanStart_scnt (s : State) : (s.scanStart).scnt = s.fit 16 s.cfg.settleCyc := rfl
@[simp] theorem scanStart_ksR (s : State) : (s.scanStart).ksR = 0 := rfl
@[simp] theorem scanStart_ksC (s : State) : (s.scanStart).ksC = 0 := rfl
@[simp] theorem scanStart_rowN (s : State) : (s.scanStart).rowN = ~~~(onehot4 0) := rfl
@[simp] theorem scanStart_sync1 (s : State) : (s.scanStart).sync1 = s.sync1 := rfl
@[simp] theorem scanStart_sync2 (s : State) : (s.scanStart).sync2 = s.sync2 := rfl
@[simp] theorem scanStart_key (s : State) : (s.scanStart).key = 0x00 := rfl
@[simp] theorem scanStart_apc (s : State) : (s.scanStart).apc = s.apc := rfl
@[simp] theorem scanStart_tgRem (s : State) : (s.scanStart).tgRem = s.tgRem := rfl
@[simp] theorem scanStart_tgD (s : State) : (s.scanStart).tgD = s.tgD := rfl
@[simp] theorem scanStart_tgLvl (s : State) : (s.scanStart).tgLvl = s.tgLvl := rfl
@[simp] theorem scanStart_tgNote (s : State) : (s.scanStart).tgNote = s.tgNote := rfl
@[simp] theorem scanStart_frKind (s : State) : (s.scanStart).frKind = s.frKind := rfl
@[simp] theorem scanStart_frIdx (s : State) : (s.scanStart).frIdx = s.frIdx := rfl
@[simp] theorem scanStart_frPix (s : State) : (s.scanStart).frPix = s.frPix := rfl
@[simp] theorem scanStart_frRep (s : State) : (s.scanStart).frRep = s.frRep := rfl
@[simp] theorem scanStart_ledValid (s : State) : (s.scanStart).ledValid = s.ledValid := rfl
@[simp] theorem scanStart_ledWord (s : State) : (s.scanStart).ledWord = s.ledWord := rfl
@[simp] theorem scanStart_pwmCnt (s : State) : (s.scanStart).pwmCnt = s.pwmCnt := rfl
@[simp] theorem scanStart_pwmFrac (s : State) : (s.scanStart).pwmFrac = s.pwmFrac := rfl
@[simp] theorem scanStart_pwmDiv16 (s : State) : (s.scanStart).pwmDiv16 = s.pwmDiv16 := rfl
@[simp] theorem scanStart_pwmLevel (s : State) : (s.scanStart).pwmLevel = s.pwmLevel := rfl
@[simp] theorem scanStart_rebootReq (s : State) : (s.scanStart).rebootReq = s.rebootReq := rfl
@[simp] theorem scanStart_logValid (s : State) : (s.scanStart).logValid = s.logValid := rfl
@[simp] theorem scanStart_logCode (s : State) : (s.scanStart).logCode = s.logCode := rfl
@[simp] theorem scanStart_cfg (s : State) : (s.scanStart).cfg = s.cfg := rfl
@[simp] theorem scanStart_rom (s : State) : (s.scanStart).rom = s.rom := rfl
@[simp] theorem scanStart_inputs (s : State) : (s.scanStart).inputs = s.inputs := rfl
@[simp] theorem scanStart_cycle (s : State) : (s.scanStart).cycle = s.cycle := rfl

@[simp] theorem noneExit_ph (s : State) : (s.noneExit).ph = .idleWait := rfl
@[simp] theorem noneExit_faultCode (s : State) : (s.noneExit).faultCode = s.faultCode := rfl
@[simp] theorem noneExit_dcnt (s : State) : (s.noneExit).dcnt = s.fitCount (msCycles s.cfg s.cfg.idleMs) := rfl
@[simp] theorem noneExit_scnt (s : State) : (s.noneExit).scnt = s.scnt := rfl
@[simp] theorem noneExit_ksR (s : State) : (s.noneExit).ksR = s.ksR := rfl
@[simp] theorem noneExit_ksC (s : State) : (s.noneExit).ksC = s.ksC := rfl
@[simp] theorem noneExit_rowN (s : State) : (s.noneExit).rowN = 0b1111 := rfl
@[simp] theorem noneExit_sync1 (s : State) : (s.noneExit).sync1 = s.sync1 := rfl
@[simp] theorem noneExit_sync2 (s : State) : (s.noneExit).sync2 = s.sync2 := rfl
@[simp] theorem noneExit_key (s : State) : (s.noneExit).key = s.key := rfl
@[simp] theorem noneExit_apc (s : State) : (s.noneExit).apc = s.apc := rfl
@[simp] theorem noneExit_tgRem (s : State) : (s.noneExit).tgRem = s.tgRem := rfl
@[simp] theorem noneExit_tgD (s : State) : (s.noneExit).tgD = s.tgD := rfl
@[simp] theorem noneExit_tgLvl (s : State) : (s.noneExit).tgLvl = s.tgLvl := rfl
@[simp] theorem noneExit_tgNote (s : State) : (s.noneExit).tgNote = s.tgNote := rfl
@[simp] theorem noneExit_frKind (s : State) : (s.noneExit).frKind = s.frKind := rfl
@[simp] theorem noneExit_frIdx (s : State) : (s.noneExit).frIdx = s.frIdx := rfl
@[simp] theorem noneExit_frPix (s : State) : (s.noneExit).frPix = s.frPix := rfl
@[simp] theorem noneExit_frRep (s : State) : (s.noneExit).frRep = s.frRep := rfl
@[simp] theorem noneExit_ledValid (s : State) : (s.noneExit).ledValid = s.ledValid := rfl
@[simp] theorem noneExit_ledWord (s : State) : (s.noneExit).ledWord = s.ledWord := rfl
@[simp] theorem noneExit_pwmCnt (s : State) : (s.noneExit).pwmCnt = s.pwmCnt := rfl
@[simp] theorem noneExit_pwmFrac (s : State) : (s.noneExit).pwmFrac = s.pwmFrac := rfl
@[simp] theorem noneExit_pwmDiv16 (s : State) : (s.noneExit).pwmDiv16 = s.pwmDiv16 := rfl
@[simp] theorem noneExit_pwmLevel (s : State) : (s.noneExit).pwmLevel = s.pwmLevel := rfl
@[simp] theorem noneExit_rebootReq (s : State) : (s.noneExit).rebootReq = s.rebootReq := rfl
@[simp] theorem noneExit_logValid (s : State) : (s.noneExit).logValid = s.logValid := rfl
@[simp] theorem noneExit_logCode (s : State) : (s.noneExit).logCode = s.logCode := rfl
@[simp] theorem noneExit_cfg (s : State) : (s.noneExit).cfg = s.cfg := rfl
@[simp] theorem noneExit_rom (s : State) : (s.noneExit).rom = s.rom := rfl
@[simp] theorem noneExit_inputs (s : State) : (s.noneExit).inputs = s.inputs := rfl
@[simp] theorem noneExit_cycle (s : State) : (s.noneExit).cycle = s.cycle := rfl

@[simp] theorem dispatchKey_ph (s : State) (k : KeyCode) : (s.dispatchKey k).ph = .dispFetch := rfl
@[simp] theorem dispatchKey_faultCode (s : State) (k : KeyCode) : (s.dispatchKey k).faultCode = s.faultCode := rfl
@[simp] theorem dispatchKey_dcnt (s : State) (k : KeyCode) : (s.dispatchKey k).dcnt = s.dcnt := rfl
@[simp] theorem dispatchKey_scnt (s : State) (k : KeyCode) : (s.dispatchKey k).scnt = s.scnt := rfl
@[simp] theorem dispatchKey_ksR (s : State) (k : KeyCode) : (s.dispatchKey k).ksR = s.ksR := rfl
@[simp] theorem dispatchKey_ksC (s : State) (k : KeyCode) : (s.dispatchKey k).ksC = s.ksC := rfl
@[simp] theorem dispatchKey_rowN (s : State) (k : KeyCode) : (s.dispatchKey k).rowN = 0b1111 := rfl
@[simp] theorem dispatchKey_sync1 (s : State) (k : KeyCode) : (s.dispatchKey k).sync1 = s.sync1 := rfl
@[simp] theorem dispatchKey_sync2 (s : State) (k : KeyCode) : (s.dispatchKey k).sync2 = s.sync2 := rfl
@[simp] theorem dispatchKey_key (s : State) (k : KeyCode) : (s.dispatchKey k).key = k := rfl
@[simp] theorem dispatchKey_apc (s : State) (k : KeyCode) : (s.dispatchKey k).apc = 0 := rfl
@[simp] theorem dispatchKey_tgRem (s : State) (k : KeyCode) : (s.dispatchKey k).tgRem = s.tgRem := rfl
@[simp] theorem dispatchKey_tgD (s : State) (k : KeyCode) : (s.dispatchKey k).tgD = s.tgD := rfl
@[simp] theorem dispatchKey_tgLvl (s : State) (k : KeyCode) : (s.dispatchKey k).tgLvl = s.tgLvl := rfl
@[simp] theorem dispatchKey_tgNote (s : State) (k : KeyCode) : (s.dispatchKey k).tgNote = s.tgNote := rfl
@[simp] theorem dispatchKey_frKind (s : State) (k : KeyCode) : (s.dispatchKey k).frKind = s.frKind := rfl
@[simp] theorem dispatchKey_frIdx (s : State) (k : KeyCode) : (s.dispatchKey k).frIdx = s.frIdx := rfl
@[simp] theorem dispatchKey_frPix (s : State) (k : KeyCode) : (s.dispatchKey k).frPix = s.frPix := rfl
@[simp] theorem dispatchKey_frRep (s : State) (k : KeyCode) : (s.dispatchKey k).frRep = s.frRep := rfl
@[simp] theorem dispatchKey_ledValid (s : State) (k : KeyCode) : (s.dispatchKey k).ledValid = s.ledValid := rfl
@[simp] theorem dispatchKey_ledWord (s : State) (k : KeyCode) : (s.dispatchKey k).ledWord = s.ledWord := rfl
@[simp] theorem dispatchKey_pwmCnt (s : State) (k : KeyCode) : (s.dispatchKey k).pwmCnt = s.pwmCnt := rfl
@[simp] theorem dispatchKey_pwmFrac (s : State) (k : KeyCode) : (s.dispatchKey k).pwmFrac = s.pwmFrac := rfl
@[simp] theorem dispatchKey_pwmDiv16 (s : State) (k : KeyCode) : (s.dispatchKey k).pwmDiv16 = s.pwmDiv16 := rfl
@[simp] theorem dispatchKey_pwmLevel (s : State) (k : KeyCode) : (s.dispatchKey k).pwmLevel = s.pwmLevel := rfl
@[simp] theorem dispatchKey_rebootReq (s : State) (k : KeyCode) : (s.dispatchKey k).rebootReq = s.rebootReq := rfl
@[simp] theorem dispatchKey_logValid (s : State) (k : KeyCode) : (s.dispatchKey k).logValid = true := rfl
@[simp] theorem dispatchKey_logCode (s : State) (k : KeyCode) : (s.dispatchKey k).logCode = k := rfl
@[simp] theorem dispatchKey_cfg (s : State) (k : KeyCode) : (s.dispatchKey k).cfg = s.cfg := rfl
@[simp] theorem dispatchKey_rom (s : State) (k : KeyCode) : (s.dispatchKey k).rom = s.rom := rfl
@[simp] theorem dispatchKey_inputs (s : State) (k : KeyCode) : (s.dispatchKey k).inputs = s.inputs := rfl
@[simp] theorem dispatchKey_cycle (s : State) (k : KeyCode) : (s.dispatchKey k).cycle = s.cycle := rfl

@[simp] theorem toneOn_ph (s : State) (f : BitVec 16) : (s.toneOn f).ph = s.ph := rfl
@[simp] theorem toneOn_faultCode (s : State) (f : BitVec 16) : (s.toneOn f).faultCode = s.faultCode := rfl
@[simp] theorem toneOn_dcnt (s : State) (f : BitVec 16) : (s.toneOn f).dcnt = s.dcnt := rfl
@[simp] theorem toneOn_scnt (s : State) (f : BitVec 16) : (s.toneOn f).scnt = s.scnt := rfl
@[simp] theorem toneOn_ksR (s : State) (f : BitVec 16) : (s.toneOn f).ksR = s.ksR := rfl
@[simp] theorem toneOn_ksC (s : State) (f : BitVec 16) : (s.toneOn f).ksC = s.ksC := rfl
@[simp] theorem toneOn_rowN (s : State) (f : BitVec 16) : (s.toneOn f).rowN = s.rowN := rfl
@[simp] theorem toneOn_sync1 (s : State) (f : BitVec 16) : (s.toneOn f).sync1 = s.sync1 := rfl
@[simp] theorem toneOn_sync2 (s : State) (f : BitVec 16) : (s.toneOn f).sync2 = s.sync2 := rfl
@[simp] theorem toneOn_key (s : State) (f : BitVec 16) : (s.toneOn f).key = s.key := rfl
@[simp] theorem toneOn_apc (s : State) (f : BitVec 16) : (s.toneOn f).apc = s.apc := rfl
@[simp] theorem toneOn_tgRem (s : State) (f : BitVec 16) : (s.toneOn f).tgRem = s.tgRem := rfl
@[simp] theorem toneOn_tgD (s : State) (f : BitVec 16) : (s.toneOn f).tgD = s.tgD := rfl
@[simp] theorem toneOn_tgLvl (s : State) (f : BitVec 16) : (s.toneOn f).tgLvl = s.tgLvl := rfl
@[simp] theorem toneOn_tgNote (s : State) (f : BitVec 16) : (s.toneOn f).tgNote = s.tgNote := rfl
@[simp] theorem toneOn_frKind (s : State) (f : BitVec 16) : (s.toneOn f).frKind = s.frKind := rfl
@[simp] theorem toneOn_frIdx (s : State) (f : BitVec 16) : (s.toneOn f).frIdx = s.frIdx := rfl
@[simp] theorem toneOn_frPix (s : State) (f : BitVec 16) : (s.toneOn f).frPix = s.frPix := rfl
@[simp] theorem toneOn_frRep (s : State) (f : BitVec 16) : (s.toneOn f).frRep = s.frRep := rfl
@[simp] theorem toneOn_ledValid (s : State) (f : BitVec 16) : (s.toneOn f).ledValid = s.ledValid := rfl
@[simp] theorem toneOn_ledWord (s : State) (f : BitVec 16) : (s.toneOn f).ledWord = s.ledWord := rfl
@[simp] theorem toneOn_pwmCnt (s : State) (f : BitVec 16) : (s.toneOn f).pwmCnt = s.pwmCnt := rfl
@[simp] theorem toneOn_pwmFrac (s : State) (f : BitVec 16) : (s.toneOn f).pwmFrac = 0 := rfl
@[simp] theorem toneOn_pwmDiv16 (s : State) (f : BitVec 16) : (s.toneOn f).pwmDiv16 = BitVec.ofNat 12 (div16 s.cfg f) := rfl
@[simp] theorem toneOn_pwmLevel (s : State) (f : BitVec 16) : (s.toneOn f).pwmLevel = levelOn s.cfg f := rfl
@[simp] theorem toneOn_rebootReq (s : State) (f : BitVec 16) : (s.toneOn f).rebootReq = s.rebootReq := rfl
@[simp] theorem toneOn_logValid (s : State) (f : BitVec 16) : (s.toneOn f).logValid = s.logValid := rfl
@[simp] theorem toneOn_logCode (s : State) (f : BitVec 16) : (s.toneOn f).logCode = s.logCode := rfl
@[simp] theorem toneOn_cfg (s : State) (f : BitVec 16) : (s.toneOn f).cfg = s.cfg := rfl
@[simp] theorem toneOn_rom (s : State) (f : BitVec 16) : (s.toneOn f).rom = s.rom := rfl
@[simp] theorem toneOn_inputs (s : State) (f : BitVec 16) : (s.toneOn f).inputs = s.inputs := rfl
@[simp] theorem toneOn_cycle (s : State) (f : BitVec 16) : (s.toneOn f).cycle = s.cycle := rfl

@[simp] theorem toneOff_ph (s : State) : (s.toneOff).ph = s.ph := rfl
@[simp] theorem toneOff_faultCode (s : State) : (s.toneOff).faultCode = s.faultCode := rfl
@[simp] theorem toneOff_dcnt (s : State) : (s.toneOff).dcnt = s.dcnt := rfl
@[simp] theorem toneOff_scnt (s : State) : (s.toneOff).scnt = s.scnt := rfl
@[simp] theorem toneOff_ksR (s : State) : (s.toneOff).ksR = s.ksR := rfl
@[simp] theorem toneOff_ksC (s : State) : (s.toneOff).ksC = s.ksC := rfl
@[simp] theorem toneOff_rowN (s : State) : (s.toneOff).rowN = s.rowN := rfl
@[simp] theorem toneOff_sync1 (s : State) : (s.toneOff).sync1 = s.sync1 := rfl
@[simp] theorem toneOff_sync2 (s : State) : (s.toneOff).sync2 = s.sync2 := rfl
@[simp] theorem toneOff_key (s : State) : (s.toneOff).key = s.key := rfl
@[simp] theorem toneOff_apc (s : State) : (s.toneOff).apc = s.apc := rfl
@[simp] theorem toneOff_tgRem (s : State) : (s.toneOff).tgRem = s.tgRem := rfl
@[simp] theorem toneOff_tgD (s : State) : (s.toneOff).tgD = s.tgD := rfl
@[simp] theorem toneOff_tgLvl (s : State) : (s.toneOff).tgLvl = s.tgLvl := rfl
@[simp] theorem toneOff_tgNote (s : State) : (s.toneOff).tgNote = s.tgNote := rfl
@[simp] theorem toneOff_frKind (s : State) : (s.toneOff).frKind = s.frKind := rfl
@[simp] theorem toneOff_frIdx (s : State) : (s.toneOff).frIdx = s.frIdx := rfl
@[simp] theorem toneOff_frPix (s : State) : (s.toneOff).frPix = s.frPix := rfl
@[simp] theorem toneOff_frRep (s : State) : (s.toneOff).frRep = s.frRep := rfl
@[simp] theorem toneOff_ledValid (s : State) : (s.toneOff).ledValid = s.ledValid := rfl
@[simp] theorem toneOff_ledWord (s : State) : (s.toneOff).ledWord = s.ledWord := rfl
@[simp] theorem toneOff_pwmCnt (s : State) : (s.toneOff).pwmCnt = s.pwmCnt := rfl
@[simp] theorem toneOff_pwmFrac (s : State) : (s.toneOff).pwmFrac = s.pwmFrac := rfl
@[simp] theorem toneOff_pwmDiv16 (s : State) : (s.toneOff).pwmDiv16 = s.pwmDiv16 := rfl
@[simp] theorem toneOff_pwmLevel (s : State) : (s.toneOff).pwmLevel = 0 := rfl
@[simp] theorem toneOff_rebootReq (s : State) : (s.toneOff).rebootReq = s.rebootReq := rfl
@[simp] theorem toneOff_logValid (s : State) : (s.toneOff).logValid = s.logValid := rfl
@[simp] theorem toneOff_logCode (s : State) : (s.toneOff).logCode = s.logCode := rfl
@[simp] theorem toneOff_cfg (s : State) : (s.toneOff).cfg = s.cfg := rfl
@[simp] theorem toneOff_rom (s : State) : (s.toneOff).rom = s.rom := rfl
@[simp] theorem toneOff_inputs (s : State) : (s.toneOff).inputs = s.inputs := rfl
@[simp] theorem toneOff_cycle (s : State) : (s.toneOff).cycle = s.cycle := rfl

@[simp] theorem soundNote_ph (s : State) (i : BitVec 3) : (s.soundNote i).ph = .melOn := rfl
@[simp] theorem soundNote_faultCode (s : State) (i : BitVec 3) : (s.soundNote i).faultCode = s.faultCode := rfl
@[simp] theorem soundNote_dcnt (s : State) (i : BitVec 3) : (s.soundNote i).dcnt = s.fitCount (msCycles s.cfg (melodyRom s.cfg i).ms.toNat) := rfl
@[simp] theorem soundNote_scnt (s : State) (i : BitVec 3) : (s.soundNote i).scnt = s.scnt := rfl
@[simp] theorem soundNote_ksR (s : State) (i : BitVec 3) : (s.soundNote i).ksR = s.ksR := rfl
@[simp] theorem soundNote_ksC (s : State) (i : BitVec 3) : (s.soundNote i).ksC = s.ksC := rfl
@[simp] theorem soundNote_rowN (s : State) (i : BitVec 3) : (s.soundNote i).rowN = s.rowN := rfl
@[simp] theorem soundNote_sync1 (s : State) (i : BitVec 3) : (s.soundNote i).sync1 = s.sync1 := rfl
@[simp] theorem soundNote_sync2 (s : State) (i : BitVec 3) : (s.soundNote i).sync2 = s.sync2 := rfl
@[simp] theorem soundNote_key (s : State) (i : BitVec 3) : (s.soundNote i).key = s.key := rfl
@[simp] theorem soundNote_apc (s : State) (i : BitVec 3) : (s.soundNote i).apc = s.apc := rfl
@[simp] theorem soundNote_tgRem (s : State) (i : BitVec 3) : (s.soundNote i).tgRem = s.tgRem := rfl
@[simp] theorem soundNote_tgD (s : State) (i : BitVec 3) : (s.soundNote i).tgD = s.tgD := rfl
@[simp] theorem soundNote_tgLvl (s : State) (i : BitVec 3) : (s.soundNote i).tgLvl = s.tgLvl := rfl
@[simp] theorem soundNote_tgNote (s : State) (i : BitVec 3) : (s.soundNote i).tgNote = i := rfl
@[simp] theorem soundNote_frKind (s : State) (i : BitVec 3) : (s.soundNote i).frKind = s.frKind := rfl
@[simp] theorem soundNote_frIdx (s : State) (i : BitVec 3) : (s.soundNote i).frIdx = s.frIdx := rfl
@[simp] theorem soundNote_frPix (s : State) (i : BitVec 3) : (s.soundNote i).frPix = s.frPix := rfl
@[simp] theorem soundNote_frRep (s : State) (i : BitVec 3) : (s.soundNote i).frRep = s.frRep := rfl
@[simp] theorem soundNote_ledValid (s : State) (i : BitVec 3) : (s.soundNote i).ledValid = s.ledValid := rfl
@[simp] theorem soundNote_ledWord (s : State) (i : BitVec 3) : (s.soundNote i).ledWord = s.ledWord := rfl
@[simp] theorem soundNote_pwmCnt (s : State) (i : BitVec 3) : (s.soundNote i).pwmCnt = s.pwmCnt := rfl
@[simp] theorem soundNote_pwmFrac (s : State) (i : BitVec 3) : (s.soundNote i).pwmFrac = 0 := rfl
@[simp] theorem soundNote_pwmDiv16 (s : State) (i : BitVec 3) : (s.soundNote i).pwmDiv16 = BitVec.ofNat 12 (div16 s.cfg (melodyRom s.cfg i).freq) := rfl
@[simp] theorem soundNote_pwmLevel (s : State) (i : BitVec 3) : (s.soundNote i).pwmLevel = levelOn s.cfg (melodyRom s.cfg i).freq := rfl
@[simp] theorem soundNote_rebootReq (s : State) (i : BitVec 3) : (s.soundNote i).rebootReq = s.rebootReq := rfl
@[simp] theorem soundNote_logValid (s : State) (i : BitVec 3) : (s.soundNote i).logValid = s.logValid := rfl
@[simp] theorem soundNote_logCode (s : State) (i : BitVec 3) : (s.soundNote i).logCode = s.logCode := rfl
@[simp] theorem soundNote_cfg (s : State) (i : BitVec 3) : (s.soundNote i).cfg = s.cfg := rfl
@[simp] theorem soundNote_rom (s : State) (i : BitVec 3) : (s.soundNote i).rom = s.rom := rfl
@[simp] theorem soundNote_inputs (s : State) (i : BitVec 3) : (s.soundNote i).inputs = s.inputs := rfl
@[simp] theorem soundNote_cycle (s : State) (i : BitVec 3) : (s.soundNote i).cycle = s.cycle := rfl

@[simp] theorem startFrame_ph (s : State) (k : FrameKind) (x : BitVec 3) (w : PixWord) : (s.startFrame k x w).ph = .frEmit := rfl
@[simp] theorem startFrame_faultCode (s : State) (k : FrameKind) (x : BitVec 3) (w : PixWord) : (s.startFrame k x w).faultCode = s.faultCode := rfl
@[simp] theorem startFrame_dcnt (s : State) (k : FrameKind) (x : BitVec 3) (w : PixWord) : (s.startFrame k x w).dcnt = s.dcnt := rfl
@[simp] theorem startFrame_scnt (s : State) (k : FrameKind) (x : BitVec 3) (w : PixWord) : (s.startFrame k x w).scnt = s.scnt := rfl
@[simp] theorem startFrame_ksR (s : State) (k : FrameKind) (x : BitVec 3) (w : PixWord) : (s.startFrame k x w).ksR = s.ksR := rfl
@[simp] theorem startFrame_ksC (s : State) (k : FrameKind) (x : BitVec 3) (w : PixWord) : (s.startFrame k x w).ksC = s.ksC := rfl
@[simp] theorem startFrame_rowN (s : State) (k : FrameKind) (x : BitVec 3) (w : PixWord) : (s.startFrame k x w).rowN = s.rowN := rfl
@[simp] theorem startFrame_sync1 (s : State) (k : FrameKind) (x : BitVec 3) (w : PixWord) : (s.startFrame k x w).sync1 = s.sync1 := rfl
@[simp] theorem startFrame_sync2 (s : State) (k : FrameKind) (x : BitVec 3) (w : PixWord) : (s.startFrame k x w).sync2 = s.sync2 := rfl
@[simp] theorem startFrame_key (s : State) (k : FrameKind) (x : BitVec 3) (w : PixWord) : (s.startFrame k x w).key = s.key := rfl
@[simp] theorem startFrame_apc (s : State) (k : FrameKind) (x : BitVec 3) (w : PixWord) : (s.startFrame k x w).apc = s.apc := rfl
@[simp] theorem startFrame_tgRem (s : State) (k : FrameKind) (x : BitVec 3) (w : PixWord) : (s.startFrame k x w).tgRem = s.tgRem := rfl
@[simp] theorem startFrame_tgD (s : State) (k : FrameKind) (x : BitVec 3) (w : PixWord) : (s.startFrame k x w).tgD = s.tgD := rfl
@[simp] theorem startFrame_tgLvl (s : State) (k : FrameKind) (x : BitVec 3) (w : PixWord) : (s.startFrame k x w).tgLvl = s.tgLvl := rfl
@[simp] theorem startFrame_tgNote (s : State) (k : FrameKind) (x : BitVec 3) (w : PixWord) : (s.startFrame k x w).tgNote = s.tgNote := rfl
@[simp] theorem startFrame_frKind (s : State) (k : FrameKind) (x : BitVec 3) (w : PixWord) : (s.startFrame k x w).frKind = k := rfl
@[simp] theorem startFrame_frIdx (s : State) (k : FrameKind) (x : BitVec 3) (w : PixWord) : (s.startFrame k x w).frIdx = x := rfl
@[simp] theorem startFrame_frPix (s : State) (k : FrameKind) (x : BitVec 3) (w : PixWord) : (s.startFrame k x w).frPix = 24 := rfl
@[simp] theorem startFrame_frRep (s : State) (k : FrameKind) (x : BitVec 3) (w : PixWord) : (s.startFrame k x w).frRep = 0 := rfl
@[simp] theorem startFrame_ledValid (s : State) (k : FrameKind) (x : BitVec 3) (w : PixWord) : (s.startFrame k x w).ledValid = true := rfl
@[simp] theorem startFrame_ledWord (s : State) (k : FrameKind) (x : BitVec 3) (w : PixWord) : (s.startFrame k x w).ledWord = w := rfl
@[simp] theorem startFrame_pwmCnt (s : State) (k : FrameKind) (x : BitVec 3) (w : PixWord) : (s.startFrame k x w).pwmCnt = s.pwmCnt := rfl
@[simp] theorem startFrame_pwmFrac (s : State) (k : FrameKind) (x : BitVec 3) (w : PixWord) : (s.startFrame k x w).pwmFrac = s.pwmFrac := rfl
@[simp] theorem startFrame_pwmDiv16 (s : State) (k : FrameKind) (x : BitVec 3) (w : PixWord) : (s.startFrame k x w).pwmDiv16 = s.pwmDiv16 := rfl
@[simp] theorem startFrame_pwmLevel (s : State) (k : FrameKind) (x : BitVec 3) (w : PixWord) : (s.startFrame k x w).pwmLevel = s.pwmLevel := rfl
@[simp] theorem startFrame_rebootReq (s : State) (k : FrameKind) (x : BitVec 3) (w : PixWord) : (s.startFrame k x w).rebootReq = s.rebootReq := rfl
@[simp] theorem startFrame_logValid (s : State) (k : FrameKind) (x : BitVec 3) (w : PixWord) : (s.startFrame k x w).logValid = s.logValid := rfl
@[simp] theorem startFrame_logCode (s : State) (k : FrameKind) (x : BitVec 3) (w : PixWord) : (s.startFrame k x w).logCode = s.logCode := rfl
@[simp] theorem startFrame_cfg (s : State) (k : FrameKind) (x : BitVec 3) (w : PixWord) : (s.startFrame k x w).cfg = s.cfg := rfl
@[simp] theorem startFrame_rom (s : State) (k : FrameKind) (x : BitVec 3) (w : PixWord) : (s.startFrame k x w).rom = s.rom := rfl
@[simp] theorem startFrame_inputs (s : State) (k : FrameKind) (x : BitVec 3) (w : PixWord) : (s.startFrame k x w).inputs = s.inputs := rfl
@[simp] theorem startFrame_cycle (s : State) (k : FrameKind) (x : BitVec 3) (w : PixWord) : (s.startFrame k x w).cycle = s.cycle := rfl

@[simp] theorem syncStep_ph (s : State) : (s.syncStep).ph = s.ph := rfl
@[simp] theorem syncStep_faultCode (s : State) : (s.syncStep).faultCode = s.faultCode := rfl
@[simp] theorem syncStep_dcnt (s : State) : (s.syncStep).dcnt = s.dcnt := rfl
@[simp] theorem syncStep_scnt (s : State) : (s.syncStep).scnt = s.scnt := rfl
@[simp] theorem syncStep_ksR (s : State) : (s.syncStep).ksR = s.ksR := rfl
@[simp] theorem syncStep_ksC (s : State) : (s.syncStep).ksC = s.ksC := rfl
@[simp] theorem syncStep_rowN (s : State) : (s.syncStep).rowN = s.rowN := rfl
@[simp] theorem syncStep_sync1 (s : State) : (s.syncStep).sync1 = s.pins.colN := rfl
@[simp] theorem syncStep_sync2 (s : State) : (s.syncStep).sync2 = s.sync1 := rfl
@[simp] theorem syncStep_key (s : State) : (s.syncStep).key = s.key := rfl
@[simp] theorem syncStep_apc (s : State) : (s.syncStep).apc = s.apc := rfl
@[simp] theorem syncStep_tgRem (s : State) : (s.syncStep).tgRem = s.tgRem := rfl
@[simp] theorem syncStep_tgD (s : State) : (s.syncStep).tgD = s.tgD := rfl
@[simp] theorem syncStep_tgLvl (s : State) : (s.syncStep).tgLvl = s.tgLvl := rfl
@[simp] theorem syncStep_tgNote (s : State) : (s.syncStep).tgNote = s.tgNote := rfl
@[simp] theorem syncStep_frKind (s : State) : (s.syncStep).frKind = s.frKind := rfl
@[simp] theorem syncStep_frIdx (s : State) : (s.syncStep).frIdx = s.frIdx := rfl
@[simp] theorem syncStep_frPix (s : State) : (s.syncStep).frPix = s.frPix := rfl
@[simp] theorem syncStep_frRep (s : State) : (s.syncStep).frRep = s.frRep := rfl
@[simp] theorem syncStep_ledValid (s : State) : (s.syncStep).ledValid = s.ledValid := rfl
@[simp] theorem syncStep_ledWord (s : State) : (s.syncStep).ledWord = s.ledWord := rfl
@[simp] theorem syncStep_pwmCnt (s : State) : (s.syncStep).pwmCnt = s.pwmCnt := rfl
@[simp] theorem syncStep_pwmFrac (s : State) : (s.syncStep).pwmFrac = s.pwmFrac := rfl
@[simp] theorem syncStep_pwmDiv16 (s : State) : (s.syncStep).pwmDiv16 = s.pwmDiv16 := rfl
@[simp] theorem syncStep_pwmLevel (s : State) : (s.syncStep).pwmLevel = s.pwmLevel := rfl
@[simp] theorem syncStep_rebootReq (s : State) : (s.syncStep).rebootReq = s.rebootReq := rfl
@[simp] theorem syncStep_logValid (s : State) : (s.syncStep).logValid = s.logValid := rfl
@[simp] theorem syncStep_logCode (s : State) : (s.syncStep).logCode = s.logCode := rfl
@[simp] theorem syncStep_cfg (s : State) : (s.syncStep).cfg = s.cfg := rfl
@[simp] theorem syncStep_rom (s : State) : (s.syncStep).rom = s.rom := rfl
@[simp] theorem syncStep_inputs (s : State) : (s.syncStep).inputs = s.inputs := rfl
@[simp] theorem syncStep_cycle (s : State) : (s.syncStep).cycle = s.cycle := rfl

@[simp] theorem pwmStep_ph (s : State) : s.pwmStep.ph = s.ph := by unfold State.pwmStep; split <;> rfl
@[simp] theorem pwmStep_faultCode (s : State) : s.pwmStep.faultCode = s.faultCode := by unfold State.pwmStep; split <;> rfl
@[simp] theorem pwmStep_dcnt (s : State) : s.pwmStep.dcnt = s.dcnt := by unfold State.pwmStep; split <;> rfl
@[simp] theorem pwmStep_scnt (s : State) : s.pwmStep.scnt = s.scnt := by unfold State.pwmStep; split <;> rfl
@[simp] theorem pwmStep_ksR (s : State) : s.pwmStep.ksR = s.ksR := by unfold State.pwmStep; split <;> rfl
@[simp] theorem pwmStep_ksC (s : State) : s.pwmStep.ksC = s.ksC := by unfold State.pwmStep; split <;> rfl
@[simp] theorem pwmStep_rowN (s : State) : s.pwmStep.rowN = s.rowN := by unfold State.pwmStep; split <;> rfl
@[simp] theorem pwmStep_sync1 (s : State) : s.pwmStep.sync1 = s.sync1 := by unfold State.pwmStep; split <;> rfl
@[simp] theorem pwmStep_sync2 (s : State) : s.pwmStep.sync2 = s.sync2 := by unfold State.pwmStep; split <;> rfl
@[simp] theorem pwmStep_key (s : State) : s.pwmStep.key = s.key := by unfold State.pwmStep; split <;> rfl
@[simp] theorem pwmStep_apc (s : State) : s.pwmStep.apc = s.apc := by unfold State.pwmStep; split <;> rfl
@[simp] theorem pwmStep_tgRem (s : State) : s.pwmStep.tgRem = s.tgRem := by unfold State.pwmStep; split <;> rfl
@[simp] theorem pwmStep_tgD (s : State) : s.pwmStep.tgD = s.tgD := by unfold State.pwmStep; split <;> rfl
@[simp] theorem pwmStep_tgLvl (s : State) : s.pwmStep.tgLvl = s.tgLvl := by unfold State.pwmStep; split <;> rfl
@[simp] theorem pwmStep_tgNote (s : State) : s.pwmStep.tgNote = s.tgNote := by unfold State.pwmStep; split <;> rfl
@[simp] theorem pwmStep_frKind (s : State) : s.pwmStep.frKind = s.frKind := by unfold State.pwmStep; split <;> rfl
@[simp] theorem pwmStep_frIdx (s : State) : s.pwmStep.frIdx = s.frIdx := by unfold State.pwmStep; split <;> rfl
@[simp] theorem pwmStep_frPix (s : State) : s.pwmStep.frPix = s.frPix := by unfold State.pwmStep; split <;> rfl
@[simp] theorem pwmStep_frRep (s : State) : s.pwmStep.frRep = s.frRep := by unfold State.pwmStep; split <;> rfl
@[simp] theorem pwmStep_ledValid (s : State) : s.pwmStep.ledValid = s.ledValid := by unfold State.pwmStep; split <;> rfl
@[simp] theorem pwmStep_ledWord (s : State) : s.pwmStep.ledWord = s.ledWord := by unfold State.pwmStep; split <;> rfl
@[simp] theorem pwmStep_pwmDiv16 (s : State) : s.pwmStep.pwmDiv16 = s.pwmDiv16 := by unfold State.pwmStep; split <;> rfl
@[simp] theorem pwmStep_pwmLevel (s : State) : s.pwmStep.pwmLevel = s.pwmLevel := by unfold State.pwmStep; split <;> rfl
@[simp] theorem pwmStep_rebootReq (s : State) : s.pwmStep.rebootReq = s.rebootReq := by unfold State.pwmStep; split <;> rfl
@[simp] theorem pwmStep_logValid (s : State) : s.pwmStep.logValid = s.logValid := by unfold State.pwmStep; split <;> rfl
@[simp] theorem pwmStep_logCode (s : State) : s.pwmStep.logCode = s.logCode := by unfold State.pwmStep; split <;> rfl
@[simp] theorem pwmStep_cfg (s : State) : s.pwmStep.cfg = s.cfg := by unfold State.pwmStep; split <;> rfl
@[simp] theorem pwmStep_rom (s : State) : s.pwmStep.rom = s.rom := by unfold State.pwmStep; split <;> rfl
@[simp] theorem pwmStep_inputs (s : State) : s.pwmStep.inputs = s.inputs := by unfold State.pwmStep; split <;> rfl
@[simp] theorem pwmStep_cycle (s : State) : s.pwmStep.cycle = s.cycle := by unfold State.pwmStep; split <;> rfl

@[simp] theorem clocked_ph (s : State) : s.clocked.ph = s.ph := pwmStep_ph s.syncStep
@[simp] theorem clocked_faultCode (s : State) : s.clocked.faultCode = s.faultCode := pwmStep_faultCode s.syncStep
@[simp] theorem clocked_dcnt (s : State) : s.clocked.dcnt = s.dcnt := pwmStep_dcnt s.syncStep
@[simp] theorem clocked_scnt (s : State) : s.clocked.scnt = s.scnt := pwmStep_scnt s.syncStep
@[simp] theorem clocked_ksR (s : State) : s.clocked.ksR = s.ksR := pwmStep_ksR s.syncStep
@[simp] theorem clocked_ksC (s : State) : s.clocked.ksC = s.ksC := pwmStep_ksC s.syncStep
@[simp] theorem clocked_rowN (s : State) : s.clocked.rowN = s.rowN := pwmStep_rowN s.syncStep
@[simp] theorem clocked_sync1 (s : State) : s.clocked.sync1 = s.pins.colN := pwmStep_sync1 s.syncStep
@[simp] theorem clocked_sync2 (s : State) : s.clocked.sync2 = s.sync1 := pwmStep_sync2 s.syncStep
@[simp] theorem clocked_key (s : State) : s.clocked.key = s.key := pwmStep_key s.syncStep
@[simp] theorem clocked_apc (s : State) : s.clocked.apc = s.apc := pwmStep_apc s.syncStep
@[simp] theorem clocked_tgRem (s : State) : s.clocked.tgRem = s.tgRem := pwmStep_tgRem s.syncStep
@[simp] theorem clocked_tgD (s : State) : s.clocked.tgD = s.tgD := pwmStep_tgD s.syncStep
@[simp] theorem clocked_tgLvl (s : State) : s.clocked.tgLvl = s.tgLvl := pwmStep_tgLvl s.syncStep
@[simp] theorem clocked_tgNote (s : State) : s.clocked.tgNote = s.tgNote := pwmStep_tgNote s.syncStep
@[simp] theorem clocked_frKind (s : State) : s.clocked.frKind = s.frKind := pwmStep_frKind s.syncStep
@[simp] theorem clocked_frIdx (s : State) : s.clocked.frIdx = s.frIdx := pwmStep_frIdx s.syncStep
@[simp] theorem clocked_frPix (s : State) : s.clocked.frPix = s.frPix := pwmStep_frPix s.syncStep
@[simp] theorem clocked_frRep (s : State) : s.clocked.frRep = s.frRep := pwmStep_frRep s.syncStep
@[simp] theorem clocked_ledValid (s : State) : s.clocked.ledValid = s.ledValid := pwmStep_ledValid s.syncStep
@[simp] theorem clocked_ledWord (s : State) : s.clocked.ledWord = s.ledWord := pwmStep_ledWord s.syncStep
@[simp] theorem clocked_pwmCnt (s : State) : s.clocked.pwmCnt = s.syncStep.pwmStep.pwmCnt := rfl
@[simp] theorem clocked_pwmFrac (s : State) : s.clocked.pwmFrac = s.syncStep.pwmStep.pwmFrac := rfl
@[simp] theorem clocked_pwmDiv16 (s : State) : s.clocked.pwmDiv16 = s.pwmDiv16 := pwmStep_pwmDiv16 s.syncStep
@[simp] theorem clocked_pwmLevel (s : State) : s.clocked.pwmLevel = s.pwmLevel := pwmStep_pwmLevel s.syncStep
@[simp] theorem clocked_rebootReq (s : State) : s.clocked.rebootReq = s.rebootReq := pwmStep_rebootReq s.syncStep
@[simp] theorem clocked_logValid (s : State) : s.clocked.logValid = false := rfl
@[simp] theorem clocked_logCode (s : State) : s.clocked.logCode = s.logCode := pwmStep_logCode s.syncStep
@[simp] theorem clocked_cfg (s : State) : s.clocked.cfg = s.cfg := pwmStep_cfg s.syncStep
@[simp] theorem clocked_rom (s : State) : s.clocked.rom = s.rom := pwmStep_rom s.syncStep
@[simp] theorem clocked_inputs (s : State) : s.clocked.inputs = s.inputs.tail := rfl
@[simp] theorem clocked_cycle (s : State) : s.clocked.cycle = s.cycle + 1 := rfl

end Sys2Proof.Machine
end

