-- ==== Sys2Proof/Laws/Ops.lean ====
section
/-! SUPPORT. What each shared operation of the step can do, said once: the input levels from one cycle to the next,
register writes that fit, the PWM counter, wait phases, the step as reset or a turn, and every turn as a case. -/

namespace Sys2Proof.Machine

/-! ### Parameters of one admissible value (R5; log entry 11) -/

@[simp] theorem params_pwmRes (p : Params) : p.pwmRes = 4096 := p.sourceFixed.1
@[simp] theorem params_pwmLevelOn (p : Params) : p.pwmLevelOn = 2048 := p.sourceFixed.2.1
@[simp] theorem params_idleMs (p : Params) : p.idleMs = 100 := p.sourceFixed.2.2.1
@[simp] theorem params_beepGapMs (p : Params) : p.beepGapMs = 200 := p.sourceFixed.2.2.2.1
@[simp] theorem params_melGapMs (p : Params) : p.melGapMs = 150 := p.sourceFixed.2.2.2.2.1
@[simp] theorem params_rebootPauseMs (p : Params) : p.rebootPauseMs = 100 := p.sourceFixed.2.2.2.2.2.1
@[simp] theorem params_introBeepTimes (p : Params) : p.introBeepTimes = 2 := p.sourceFixed.2.2.2.2.2.2.1
@[simp] theorem params_introBeepMs (p : Params) : p.introBeepMs = 200 := p.sourceFixed.2.2.2.2.2.2.2.1
@[simp] theorem params_off (p : Params) : p.off = ⟨0, 0, 0⟩ := p.sourceFixed.2.2.2.2.2.2.2.2.1
@[simp] theorem params_whiteDim (p : Params) : p.whiteDim = ⟨32, 64, 16⟩ := p.sourceFixed.2.2.2.2.2.2.2.2.2.1
@[simp] theorem params_replayStepMs (p : Params) : p.replayStepMs = 100 := p.sourceFixed.2.2.2.2.2.2.2.2.2.2.1
@[simp] theorem params_replayTailMs (p : Params) : p.replayTailMs = 500 := p.sourceFixed.2.2.2.2.2.2.2.2.2.2.2
@[simp] theorem params_divIntBits (p : Params) : p.divIntBits = 8 := p.decisionFixed.1
@[simp] theorem params_divFracBits (p : Params) : p.divFracBits = 4 := p.decisionFixed.2.1
@[simp] theorem params_syncStages (p : Params) : p.syncStages = 2 := p.decisionFixed.2.2.1
@[simp] theorem params_dcntW (p : Params) : p.dcntW = 48 := p.decisionFixed.2.2.2

/-- The divider 1.0 (R6). -/
@[simp] theorem div16Min_eq (p : Params) : div16Min p = 16 := by simp [div16Min]

/-- The divider 255 + 15/16 (R6). -/
@[simp] theorem div16Max_eq (p : Params) : div16Max p = 4095 := by simp [div16Max]

/-! ### Input levels -/

/-- The cycle's always-running part moves the input levels on by one cycle. -/
@[simp] theorem clocked_pinsAt (s : State) (j : Nat) : s.clocked.pinsAt j = s.pinsAt (j + 1) := by
  simp only [State.pinsAt, clocked_inputs, clocked_cycle, List.getElem?_tail, Nat.add_assoc, Nat.add_comm 1 j]

theorem onReset_pinsAt (s : State) (j : Nat) : s.onReset.pinsAt j = s.pinsAt (j + 1) := by
  have h : s.onReset.pinsAt j = s.clocked.pinsAt j := rfl
  rw [h, clocked_pinsAt]

/-- Two states with one input queue in one cycle see the same input levels. -/
theorem pinsAt_congr {s t : State} (hi : t.inputs = s.inputs) (hc : t.cycle = s.cycle) (j : Nat) :
    t.pinsAt j = s.pinsAt j := by simp only [State.pinsAt, hi, hc]

/-- A state that prescribes one and the same level for `m` cycles sees it in each of them. -/
theorem pinsAt_of_replicate {s : State} {m : Nat} {p : Pins} (h : s.inputs = List.replicate m p) {j : Nat} (hj : j < m) :
    s.pinsAt j = p := by simp [State.pinsAt, h, hj]

/-- Such a state has no reset in those cycles, if the level has none. -/
theorem noReset_of_replicate {s : State} {m n : Nat} {p : Pins} (h : s.inputs = List.replicate m p) (hp : p.rst = false)
    (hn : n ≤ m) : NoReset n s := fun j hj => by rw [pinsAt_of_replicate h (Nat.lt_of_lt_of_le hj hn), hp]

/-- Such a state has a ready LED channel in those cycles, if the level has it ready. -/
theorem ledReady_of_replicate {s : State} {m n : Nat} {p : Pins} (h : s.inputs = List.replicate m p)
    (hp : p.ledReady = true) (hn : n ≤ m) : LedReady n s := fun j hj => by
  rw [pinsAt_of_replicate h (Nat.lt_of_lt_of_le hj hn), hp]

/-! ### Register writes -/

/-- A write of a number that fits stores that number. -/
theorem fit_eq (s : State) {w n : Nat} (h : n < 2 ^ w) : s.fit w n = BitVec.ofNat w n := if_pos h

theorem fit_toNat (s : State) {w n : Nat} (h : n < 2 ^ w) : (s.fit w n).toNat = n := by
  rw [fit_eq s h, BitVec.toNat_ofNat, Nat.mod_eq_of_lt h]

/-- A wait count that 48 bits hold is stored as it is (R8, R240). -/
theorem fitCount_toNat (s : State) {n : Nat} (h : n < 2 ^ 48) : (s.fitCount n).toNat = n := by
  rw [State.fitCount, BitVec.toNat_setWidth, fit_toNat s (by simpa using h), Nat.mod_eq_of_lt h]

theorem fitCount_eq (s : State) {n : Nat} (h : n < 2 ^ 48) : s.fitCount n = BitVec.ofNat 48 n :=
  BitVec.eq_of_toNat_eq (by rw [fitCount_toNat s h, BitVec.toNat_ofNat, Nat.mod_eq_of_lt h])

/-- The divider is in its range for every frequency (R141). -/
theorem div16_bounds (p : Params) (f : BitVec 16) : 16 ≤ div16 p f ∧ div16 p f ≤ 4095 := by
  simp only [div16, div16Min_eq, div16Max_eq]
  split <;> omega

theorem div16_toNat (p : Params) (f : BitVec 16) : (BitVec.ofNat 12 (div16 p f)).toNat = div16 p f := by
  have h := (div16_bounds p f).2
  rw [BitVec.toNat_ofNat, Nat.mod_eq_of_lt (by omega)]

/-- The level of a tone is off or `PWM_LEVEL_ON`, off exactly for the frequency 0 (R142). -/
theorem levelOn_eq (p : Params) (f : BitVec 16) : levelOn p f = if f = 0 then 0 else 2048 := by
  rw [levelOn, params_pwmLevelOn]
  rfl

theorem levelOn_cases (p : Params) (f : BitVec 16) : levelOn p f = 0 ∨ levelOn p f = 2048 := by
  rw [levelOn_eq]
  split
  · exact .inl rfl
  · exact .inr rfl

/-! ### The PWM counter -/

/-- One tick of the PWM counter on numbers (R145), where the accumulator is below the divider. -/
theorem pwmStep_spec (s : State) (h : s.pwmFrac.toNat < s.pwmDiv16.toNat) (h16 : 16 ≤ s.pwmDiv16.toNat) :
    (s.pwmDiv16.toNat ≤ s.pwmFrac.toNat + 16 ∧ s.pwmStep.pwmFrac.toNat = s.pwmFrac.toNat + 16 - s.pwmDiv16.toNat ∧
        s.pwmStep.pwmCnt = s.pwmCnt + 1) ∨
      (s.pwmFrac.toNat + 16 < s.pwmDiv16.toNat ∧ s.pwmStep.pwmFrac.toNat = s.pwmFrac.toNat + 16 ∧
        s.pwmStep.pwmCnt = s.pwmCnt) := by
  have hd := s.pwmDiv16.isLt
  unfold State.pwmStep
  split
  case isTrue hle =>
    have hc : s.fit 12 ((s.pwmCnt.toNat + 1) % s.cfg.pwmRes) = s.pwmCnt + 1 := by
      have hlt : (s.pwmCnt.toNat + 1) % 4096 < 2 ^ 12 := by omega
      exact BitVec.eq_of_toNat_eq (by rw [params_pwmRes, fit_toNat s hlt]; simp [BitVec.toNat_add])
    exact .inl ⟨hle, fit_toNat s (by omega), hc⟩
  case isFalse hlt => exact .inr ⟨by omega, fit_toNat s (by omega), rfl⟩

/-- A tick keeps the accumulator below the divider (R31). -/
theorem pwmStep_keeps_frac_below (s : State) (h : s.pwmFrac.toNat < s.pwmDiv16.toNat) (h16 : 16 ≤ s.pwmDiv16.toNat) :
    s.pwmStep.pwmFrac.toNat < s.pwmDiv16.toNat := by
  obtain ⟨_, hf, _⟩ | ⟨_, hf, _⟩ := pwmStep_spec s h h16 <;> omega

/-! ### Frames -/

/-- The five colour indices have an entry, and only they (R53). -/
theorem colorRom_isSome (p : Params) (k : Nat) : (colorRom p k).isSome = decide (k ≤ 4) := by
  rcases k with _ | _ | _ | _ | _ | k <;> simp [colorRom]

/-- The five letter indices have an entry, and only they (R52). -/
theorem glyphRom_isSome (p : Params) (g : Nat) : (glyphRom p g).isSome = decide (g ≤ 4) := by
  unfold glyphRom
  by_cases h : g < 5
  · simp [h, Nat.le_of_lt_succ h]
  · simp [h, show ¬ g ≤ 4 by omega]

/-- A frame word exists exactly for the five indices and the 25 frame indices (R56, R57). -/
theorem pixWord_isSome (p : Params) (kind : FrameKind) (idx i : Nat) :
    (pixWord p kind idx i).isSome = (decide (idx ≤ 4) && decide (i ≤ 24)) := by
  unfold pixWord px
  by_cases h : 24 < i
  · simp [h, show ¬ i ≤ 24 by omega]
  · cases kind <;> simp [h, colorRom_isSome, glyphRom_isSome, show i ≤ 24 by omega]

/-- Starting a frame: with an index that has an entry the frame starts on its word for index 24, with another the model
fault RESERVED_INDEX is entered (R122, R123, R171). -/
theorem startFrameOr_spec (kind : FrameKind) (idx : BitVec 8) (s : State) :
    (idx.toNat ≤ 4 ∧ ∃ w, pixWord s.cfg kind idx.toNat 24 = some w ∧
        startFrameOr kind idx s = s.startFrame kind (idx.setWidth 3) w) ∨
      (4 < idx.toNat ∧ startFrameOr kind idx s = s.raiseFault .reservedIndex) := by
  have hs := pixWord_isSome s.cfg kind idx.toNat 24
  unfold startFrameOr
  cases hw : pixWord s.cfg kind idx.toNat 24 with
  | some w => left; simp [hw] at hs; exact ⟨hs, w, rfl, rfl⟩
  | none => right; simp [hw] at hs; exact ⟨hs, rfl⟩

/-! ### Turns and the step -/

/-- One cycle of a wait phase (R8): it leaves where `dcnt <= 1`, and counts down where not. -/
theorem waitTurn_cases (s : State) (leave : State → Host.Outcome State Fault Refusal) :
    (s.dcnt.toNat ≤ 1 ∧ waitTurn s leave = .phase (leave s.clocked)) ∨
      (1 < s.dcnt.toNat ∧ waitTurn s leave = .phase (.next { s.clocked with dcnt := s.dcnt - 1 })) := by
  unfold waitTurn
  split
  case isTrue h => exact .inl ⟨h, rfl⟩
  case isFalse h => exact .inr ⟨by omega, rfl⟩

/-- `rst` overrides everything (R214, R230). -/
theorem step_of_reset {s : State} (h : s.pins.rst = true) : step s = .next s.onReset := by
  simp only [step, cycleStep, h, if_true]

/-- Without `rst` the step is the phase rule's turn (R203). -/
theorem step_of_run {s : State} (h : s.pins.rst = false) : step s = runTurn s (turn s) := by
  simp only [step, cycleStep, h, Bool.false_eq_true, if_false]

/-- Everything a step that answers a next state can do: reset, an instruction's meaning on top of the always-running part,
or a phase rule's own next state. -/
theorem step_cases {s t : State} (h : step s = .next t) :
    (s.pins.rst = true ∧ t = s.onReset) ∨
      (s.pins.rst = false ∧ ∃ i, turn s = .instr i ∧ exec i s.clocked = .next t) ∨
      (s.pins.rst = false ∧ turn s = .phase (.next t)) := by
  cases hr : s.pins.rst with
  | true =>
    rw [step_of_reset hr] at h
    exact .inl ⟨rfl, (Host.Outcome.next.inj h).symm⟩
  | false =>
    rw [step_of_run hr] at h
    cases ht : turn s with
    | instr i => rw [ht] at h; exact .inr (.inl ⟨rfl, i, rfl, h⟩)
    | phase o => rw [ht] at h; exact .inr (.inr ⟨rfl, by rw [show o = .next t from h]⟩)

/-! ### Runs -/

/-- A run of one more step goes on from the step's next state, in any machine of the host's form. -/
theorem core_run_succ (M : Host.Core) (n : Nat) {s t : M.State} (h : M.step s = .next t) : M.run (n + 1) s = M.run n t := by
  show (match M.step s with | .next t => M.run n t | .fault r => .fault r | .refused r => .refused r) = _
  rw [h]

/-- The same of the block. -/
theorem run_succ {s t : State} (n : Nat) (h : step s = .next t) :
    Sys2Proof.core.run (n + 1) s = Sys2Proof.core.run n t := core_run_succ Sys2Proof.core n h

@[simp] theorem cycleTrace_zero {α : Type} (f : State → α) (s : State) : cycleTrace f 0 s = [] := rfl

/-- A trace of one more cycle is this cycle's value and the trace from the step's next state. -/
theorem cycleTrace_succ {α : Type} (f : State → α) {s t : State} (n : Nat) (h : step s = .next t) :
    cycleTrace f (n + 1) s = f s :: cycleTrace f n t := by rw [cycleTrace, h]

end Sys2Proof.Machine
end

