-- ==== Sys2Proof/Laws/PerInstr.lean ====
section
/-! SUPPORT. A fact about every instruction as syntax, one lemma per constructor: its canonical word has its format's
width, 5 bits for a KEY code and 48 for a CMD (spec 30_encoding.md R70, R78), and reads back as a word of that format. -/

namespace Sys2Proof.Laws.EncodingFits

/-- The canonical word of `i` is read back, from its width and its number, as the same word. -/
def Statement (i : Instr) : Prop := codeOfBits (codeBits (encode i)).1 (codeBits (encode i)).2 = .ok (encode i)

theorem of_key (c : KeyCode) : codeOfBits (codeBits (.key c)).1 (codeBits (.key c)).2 = .ok (.key c) := by
  simp [codeBits, codeOfBits, codeOfWidth, c.isLt]

theorem of_cmd (w : Cmd) : codeOfBits (codeBits (.cmd w)).1 (codeBits (.cmd w)).2 = .ok (.cmd w) := by
  simp [codeBits, codeOfBits, codeOfWidth, w.isLt]

theorem keyNone : Statement (.keyNone) := of_key _
theorem key1 : Statement (.key1) := of_key _
theorem key2 : Statement (.key2) := of_key _
theorem key3 : Statement (.key3) := of_key _
theorem keyA : Statement (.keyA) := of_key _
theorem key4 : Statement (.key4) := of_key _
theorem key5 : Statement (.key5) := of_key _
theorem key6 : Statement (.key6) := of_key _
theorem keyB : Statement (.keyB) := of_key _
theorem key7 : Statement (.key7) := of_key _
theorem key8 : Statement (.key8) := of_key _
theorem key9 : Statement (.key9) := of_key _
theorem keyC : Statement (.keyC) := of_key _
theorem keyStar : Statement (.keyStar) := of_key _
theorem key0 : Statement (.key0) := of_key _
theorem keyHash : Statement (.keyHash) := of_key _
theorem keyD : Statement (.keyD) := of_key _
theorem endProg : Statement (.endProg) := of_cmd _
theorem beep (times : BitVec 8) (freq ms : BitVec 16) : Statement (.beep times freq ms) := of_cmd _
theorem melody : Statement (.melody) := of_cmd _
theorem letter (g : BitVec 8) : Statement (.letter g) := of_cmd _
theorem fill (k : BitVec 8) : Statement (.fill k) := of_cmd _
theorem pause (ms : BitVec 16) : Statement (.pause ms) := of_cmd _
theorem reboot : Statement (.reboot) := of_cmd _
theorem reservedOp7 : Statement (.reservedOp7) := of_cmd _

end Sys2Proof.Laws.EncodingFits
end

