-- ==== Sys2Proof/Tests/Slice0.lean ====
section
/-! SUPPORT. The model's own tests: decoding of words written out from the spec's encodings (30_encoding.md R72 to R74),
ill-formed terms that each check refuses (R76, R79, R81), single steps with values from spec/95_test_vectors.md, and for
each statement with hypotheses a concrete state and operands that meet them. -/

namespace Sys2Proof.Tests
open Sys2Proof.Machine

/-! ### Decoding, one word for each constructor, its bits from R71 and R73 -/

theorem test_decode_keyNone : decode (.key 0b0_00_00) = .keyNone := by decide
theorem test_decode_key1 : decode (.key 0b1_00_00) = .key1 := by decide
theorem test_decode_key2 : decode (.key 0b1_00_01) = .key2 := by decide
theorem test_decode_key3 : decode (.key 0b1_00_10) = .key3 := by decide
theorem test_decode_keyA : decode (.key 0b1_00_11) = .keyA := by decide
theorem test_decode_key4 : decode (.key 0b1_01_00) = .key4 := by decide
theorem test_decode_key5 : decode (.key 0b1_01_01) = .key5 := by decide
theorem test_decode_key6 : decode (.key 0b1_01_10) = .key6 := by decide
theorem test_decode_keyB : decode (.key 0b1_01_11) = .keyB := by decide
theorem test_decode_key7 : decode (.key 0b1_10_00) = .key7 := by decide
theorem test_decode_key8 : decode (.key 0b1_10_01) = .key8 := by decide
theorem test_decode_key9 : decode (.key 0b1_10_10) = .key9 := by decide
theorem test_decode_keyC : decode (.key 0b1_10_11) = .keyC := by decide
theorem test_decode_keyStar : decode (.key 0b1_11_00) = .keyStar := by decide
theorem test_decode_key0 : decode (.key 0b1_11_01) = .key0 := by decide
theorem test_decode_keyHash : decode (.key 0b1_11_10) = .keyHash := by decide
theorem test_decode_keyD : decode (.key 0b1_11_11) = .keyD := by decide
theorem test_decode_endProg : decode (.cmd 0b000_00000_00000000_0000000000000000_0000000000000000) = .endProg := by decide
theorem test_decode_beep : decode (.cmd 0b001_00000_00000011_0000000110111000_0000000000000010) = .beep 3 440 2 := by decide
theorem test_decode_melody : decode (.cmd 0b010_00000_00000000_0000000000000000_0000000000000000) = .melody := by decide
theorem test_decode_letter : decode (.cmd 0b011_00000_00000001_0000000000000000_0000000000000000) = .letter 1 := by decide
theorem test_decode_fill : decode (.cmd 0b100_00000_00000010_0000000000000000_0000000000000000) = .fill 2 := by decide
theorem test_decode_pause : decode (.cmd 0b101_00000_00000000_0000000000000000_0000000000000001) = .pause 1 := by decide
theorem test_decode_reboot : decode (.cmd 0b110_00000_00000000_0000000000000000_0000000000000000) = .reboot := by decide
theorem test_decode_reservedOp7 : decode (.cmd 0b111_00000_00000000_0000000000000000_0000000000000000) = .reservedOp7 := by decide

/-- A KEY code with V = 0 is "none" whatever the other bits hold (R71). -/
theorem test_decode_none_ignores_row_col : decode (.key 0b0_10_11) = .keyNone := by decide
/-- RSV and unused fields are ignored (R76; V-E2). -/
theorem test_decode_ignores_rsv : decode (.cmd 0x810000000000) = .fill 0 := by decide
theorem test_table_word_key : decodeTableWord 8 0x1D = some .key0 := by decide
theorem test_table_word_cmd : decodeTableWord 48 0x200203E800C8 = some (.beep 2 1000 200) := by decide
theorem test_no_format_of_16_bits : codeOfBits 16 0 = .error (.noFormat 16) := by decide
theorem test_key_byte_too_wide : codeOfBits 8 0x30 = .error (.tooWide 5) := by decide
theorem test_note_format : noteBits ⟨262, 500⟩ = 0x010601F4 ∧ noteOf 0x010601F4 = ⟨262, 500⟩ := by decide
theorem test_rgb_format : rgbBits ⟨32, 64, 16⟩ = 0x204010 ∧ rgbOf 0x204010 = ⟨32, 64, 16⟩ := by decide

/-! ### Well-formedness: a term that each check refuses (R76, R81) -/

theorem test_refuses_reserved_op : Instr.reservedOp7.check = .error .reservedOp := by decide
theorem test_refuses_letter_5 : (Instr.letter 5).check = .error .reservedIndex := by decide
theorem test_refuses_fill_5 : (Instr.fill 5).check = .error .reservedIndex := by decide
theorem test_wf_len_refuses_empty : checkProg [] = .error .wfLen := by decide
theorem test_wf_len_refuses_nine : checkProg (List.replicate 8 0x200000000000 ++ [0]) = .error .wfLen := by decide
/-- V-E3: `[NOP]` has no END or REBOOT. -/
theorem test_wf_term_refuses_nop : checkProg [0x200000000000] = .error .wfTerm := by decide
theorem test_wf_term_refuses_early_end : checkProg [0, 0] = .error .wfTerm := by decide
theorem test_wf_op_refuses_op7 : checkProg [0xE00000000000, 0] = .error .wfOp := by decide
theorem test_wf_rsv_refuses_rsv : checkProg [0x810000000000, 0] = .error .wfRsv := by decide
theorem test_wf_rsv_refuses_end_operand : checkProg [0x000000000001] = .error .wfRsv := by decide
theorem test_wf_idx_refuses_letter_5 : checkProg [0x600500000000, 0] = .error .wfIdx := by decide
theorem test_wf_accepts_sample :
    checkProg [0x200100000005, 0xA00000000001, 0x800100000000, 0x200000000000, 0] = .ok () := by decide
/-- R80: INTRO's beep is at the build's own `BUZZER_FREQ_HZ`; the rest is the five letters and the melody. -/
theorem test_intro_uses_buzzer_freq : expandLine { toyParams with buzzerFreqHz := 440 } .intro =
    .ok [.beep 2 440 200, .letter 0, .letter 1, .letter 2, .letter 3, .letter 4, .melody] := by decide
theorem test_asm_refuses_times_256 : expandLine toyParams (.beep 256 0 0) = .error (.times 256) := by decide
theorem test_asm_refuses_freq_65536 : expandLine toyParams (.beep 1 65536 0) = .error (.freq 65536) := by decide
theorem test_asm_refuses_pause_65536 : expandLine toyParams (.pause 65536) = .error (.ms 65536) := by decide

/-! ### Small states -/

/-- All columns high, no reset, the LED channel ready. -/
def quiet : Pins := ⟨false, 0b1111, true⟩
/-- The same with the channel not ready. -/
def notReady : Pins := ⟨false, 0b1111, false⟩
/-- The toy configuration's state right after reset but for the phase, with quiet inputs for `n` cycles. -/
def toy (ph : Phase) (n : Nat) : State :=
  { State.resetWith toyParams (actProgRef toyParams) (List.replicate n quiet) 1 with ph := ph }
/-- The next state of an outcome, if it has one. -/
def nextOf : Host.Outcome State Fault Refusal → Option State
  | .next t => some t
  | .fault _ => none
  | .refused _ => none
/-- A configuration at 1000 Hz (one cycle a millisecond), with eight notes of duration 0. -/
def slow : Params := { toyParams with clkHz := 1000, clkOk := by decide, melody := Vector.replicate 8 ⟨0, 0⟩ }
/-- A DISP_FETCH state of key index 14 under that configuration, its program `w` and END. -/
def fetching (w : Cmd) (n : Nat) : State :=
  { State.resetWith slow ((actProgRef slow).set 14 [w, 0]) (List.replicate n quiet) 1 with ph := .dispFetch, key := 0x1E }
/-- The configuration of vector V-T1. -/
def fast : Params := { clkHz := 125000000 }

/-! ### Single steps -/

/-- V-K2: the default `SETTLE_CYC` at 125 MHz is 126; at the toy clock it is 2. -/
theorem test_default_settle : fast.settleCyc = 126 ∧ toyParams.settleCyc = 2 := by decide

/-- V-T1. -/
theorem test_div16_at_125MHz : [(0 : BitVec 16), 119, 120, 440, 30517, 30518].map (div16 fast) = [4095, 4095, 4069, 1109, 16, 16] := by
  decide
/-- V-T5. -/
theorem test_pwm_out_edges : ({ toy .beepOn 1 with pwmCnt := 2047, pwmLevel := 2048 } : State).pwmOut = true ∧
    ({ toy .beepOn 1 with pwmCnt := 2048, pwmLevel := 2048 } : State).pwmOut = false := by decide
/-- V-E2, 41 R122: FILL WHITE_DIM loads 0x4020_1000. -/
theorem test_fill_white_dim : (nextOf (exec (.fill 4) (toy .dispFetch 1))).map (fun t => (t.ledWord, t.frPix, t.frIdx)) =
    some (0x40201000, 24, 4) := by decide
theorem test_fill_5_faults : (nextOf (exec (.fill 5) (toy .dispFetch 1))).map (fun t => (t.ph, t.faultCode)) =
    some (.fault, .reservedIndex) := by decide
/-- 41 R123: LETTER A loads 0x007F_0000; V-F1: O starts with an unlit cell. -/
theorem test_letter_first_words : (nextOf (exec (.letter 0) (toy .dispFetch 1))).map (·.ledWord) = some 0x007F0000 ∧
    (nextOf (exec (.letter 3) (toy .dispFetch 1))).map (·.ledWord) = some 0 := by decide
/-- V-D2. -/
theorem test_letter_5_faults : (nextOf (exec (.letter 5) (toy .dispFetch 1))).map (fun t => faultCodeBits t.faultCode) =
    some 2 := by decide
/-- V-T6 and V-T7: 200 ms at T = 8 are 1600 cycles. -/
theorem test_beep_loads : (nextOf (exec (.beep 2 1000 200) (toy .dispFetch 1))).map
    (fun t => (t.dcnt, t.tgRem, t.pwmDiv16, t.pwmLevel)) = some (1600, 2, 16, 2048) := by decide
/-- L3-4: a frequency of 0 changes the divider and stays silent. -/
theorem test_beep_silent : (nextOf (exec (.beep 1 0 5) (toy .dispFetch 1))).map (fun t => (t.pwmDiv16, t.pwmLevel, t.dcnt)) =
    some (4095, 0, 40) := by decide
/-- V-T8: a 500 ms note at T = 8. -/
theorem test_melody_first_note : (nextOf (exec .melody (toy .dispFetch 1))).map (fun t => (t.dcnt, t.tgNote, t.ph)) =
    some (4000, 0, .melOn) := by decide
/-- L3-2: PAUSE 100 is 800 cycles. -/
theorem test_pause_100 : (nextOf (exec (.pause 100) (toy .dispFetch 1))).map (fun t => (t.dcnt, t.ph)) = some (800, .pauseW) := by
  decide
/-- L3-4: the advance in the cycle of a tone write still uses the old divider (42 R143). -/
theorem test_tone_write_keeps_advance : (nextOf (step { fetching 0x200100000005 1 with pwmCnt := 62 })).map
    (fun t => (t.pwmCnt, t.pwmFrac, t.pwmDiv16)) = some (63, 0, 4095) := by decide
/-- 40 R105: key '0' is reported on release. -/
theorem test_release_of_key_0 : (nextOf (step { toy .ksRel 1 with ksR := 3, ksC := 1, rowN := 0b0111 })).map
    (fun t => (t.key, t.logValid, t.logCode, t.rowN, t.ph)) = some (0x1D, true, 0x1D, 0b1111, .dispFetch) := by decide
/-- V-R2: cycle 2 drives row 0 with `scnt = 2`. -/
theorem test_first_cycle_after_reset : (nextOf (step (toy .idleWait 1))).map (fun t => (t.ph, t.rowN, t.scnt)) =
    some (.ksSettle, 0b1110, 2) := by decide
/-- The last column of the last row, high: "none", no log pulse (R193), 100 ms at T = 8. -/
theorem test_no_key : (nextOf (step { toy .ksCol 1 with ksR := 3, ksC := 3 })).map (fun t => (t.ph, t.dcnt, t.logValid)) =
    some (.idleWait, 800, false) := by decide
/-- The host's placing of an instruction: the very next step runs it, a CMD and a KEY code. -/
theorem test_place_cmd : (nextOf (step (State.reset.withFetchWord 48 0xC00000000000))).map (·.ph) = some .halt := by decide
theorem test_place_key : (nextOf (step (State.reset.withFetchWord 8 0x1E))).map (·.key) = some 0x1E := by decide
/-- R109: closing key (1,1) pulls column 1 low while row 1 is driven, and only then. -/
theorem test_matrix_columns : matrixCols (1#16 <<< 5) 0b1101 = 0b1101 ∧ matrixCols (1#16 <<< 5) 0b1110 = 0b1111 := by decide

/-! ### The statements' hypotheses are met together: one state for each clause, at a boundary where there is one -/

theorem quiet_run (s : State) (m n : Nat) (h : s.inputs = List.replicate m quiet) (hn : n ≤ m) : NoReset n s ∧ LedReady n s :=
  ⟨noReset_of_replicate h rfl hn, ledReady_of_replicate h rfl hn⟩

theorem witness_KeyAndCommandWordsDecode : (0b01111 : KeyCode).getLsbD 4 = false := by decide
theorem witness_DividerFollowsFormula : (1 : BitVec 16) ≠ 0 ∧ fast.clkHz = 125000000 ∧ (119 : BitVec 16).toNat ≤ 119 ∧
    30518 ≤ (30518 : BitVec 16).toNat := by decide
theorem witness_PwmOutComparesCounter : ({ toy .beepOn 1 with pwmLevel := 2048 } : State).pwmLevel = 2048 ∧
    (toy .beepOn 1).pwmLevel = 0 ∧ (toy .beepOn 1).pwmCnt = (toy .halt 1).pwmCnt ∧
    (toy .beepOn 1).pwmLevel = (toy .halt 1).pwmLevel := by decide
theorem witness_PackPlacesChannels : toyParams.pack = .grbHi ∧ ({ toyParams with pack := .gLo } : Params).pack = .gLo := by
  decide
theorem witness_FillStartsFrame : (4 : BitVec 8).toNat ≤ 4 ∧ 5 ≤ (5 : BitVec 8).toNat := by decide
theorem witness_LetterStartsFrame : (4 : BitVec 8).toNat < 5 ∧ 5 ≤ (5 : BitVec 8).toNat := by decide
theorem witness_StepRunsDecodedInstruction :
    ((fetching 0x800400000000 1).pins.rst = false ∧ (fetching 0x800400000000 1).ph = .dispFetch ∧
      ((fetching 0x800400000000 1).rom.get ((fetching 0x800400000000 1).key.extractLsb' 0 4).toFin)[
        (fetching 0x800400000000 1).apc.toNat]? = some 0x800400000000) ∧
    ((toy .ksRel 1).pins.rst = false ∧ (toy .ksRel 1).sync2.getLsbD (toy .ksRel 1).ksC.toNat = true) ∧
    ({ toy .ksCol 1 with ksR := 3, ksC := 3 } : State).sync2.getLsbD 3 = true := by decide
theorem witness_AlwaysRunningPart : DividerInv (toy .idleWait 1) ∧
    ({ toy .idleWait 1 with pwmDiv16 := 40 } : State).pwmFrac.toNat + 16 < 40 := by unfold DividerInv; decide
theorem witness_overrun : (toy .dispFetch 1).pins.rst = false ∧
    (({ toy .dispFetch 1 with apc := 8 } : State).rom.get
      (({ toy .dispFetch 1 with apc := 8 } : State).key.extractLsb' 0 4).toFin).length ≤ 8 := by decide
theorem witness_SettlePhaseStep : (toy .ksSettle 1).pins.rst = false ∧
    ({ toy .ksSettle 1 with scnt := 1 } : State).scnt.toNat ≤ 1 ∧ 1 < ({ toy .ksSettle 1 with scnt := 2 } : State).scnt.toNat := by
  decide
theorem witness_ColumnPhaseStep : (toy .ksCol 1).pins.rst = false ∧
    ({ toy .ksCol 1 with sync2 := 0b1110 } : State).sync2.getLsbD (toy .ksCol 1).ksC.toNat = false ∧
    (({ toy .ksCol 1 with ksC := 2 } : State).sync2.getLsbD 2 = true ∧ (2 : BitVec 2).toNat < 3) ∧
    (({ toy .ksCol 1 with ksC := 3, ksR := 2 } : State).sync2.getLsbD 3 = true ∧ (2 : BitVec 2).toNat < 3) ∧
    ({ toy .ksCol 1 with ksC := 3, ksR := 3 } : State).sync2.getLsbD 3 = true := by decide
theorem witness_ReleasePhaseStep : (toy .ksRel 1).pins.rst = false ∧
    (toy .ksRel 1).sync2.getLsbD (toy .ksRel 1).ksC.toNat = true ∧
    ({ toy .ksRel 1 with sync2 := 0b1110 } : State).sync2.getLsbD (toy .ksRel 1).ksC.toNat = false := by decide
theorem witness_IdleExitStartsScan : (toy .idleWait 1).pins.rst = false ∧
    ({ toy .idleWait 1 with dcnt := 1 } : State).dcnt.toNat ≤ 1 ∧ toyParams.settleCyc < 2 ^ 16 := by decide
theorem witness_BeepPhaseExits : (toy .beepOn 1).pins.rst = false ∧ (toy .beepGap 1).pins.rst = false ∧
    ({ toy .beepGap 1 with dcnt := 1, tgRem := 1 } : State).tgRem.toNat ≤ 1 ∧
    1 < ({ toy .beepGap 1 with dcnt := 1, tgRem := 2 } : State).tgRem.toNat := by decide
theorem witness_MelodyPhaseExits : (toy .melOn 1).pins.rst = false ∧ (toy .melGap 1).pins.rst = false ∧
    ({ toy .melGap 1 with dcnt := 1, tgNote := 7 } : State).tgNote = 7 ∧
    ({ toy .melGap 1 with dcnt := 1, tgNote := 6 } : State).tgNote.toNat + 1 < 8 := by decide
/-- FR_EMIT with the channel not ready; ready before the last word; and on the last word of each kind of frame. -/
theorem witness_EmitPhaseStep :
    (({ toy .frEmit 0 with inputs := [notReady] } : State).pins.rst = false ∧
      ({ toy .frEmit 0 with inputs := [notReady] } : State).pins.ledReady = false) ∧
    ((toy .frEmit 1).pins.rst = false ∧ (toy .frEmit 1).pins.ledReady = true ∧
      ({ toy .frEmit 1 with frPix := 24, frIdx := 4 } : State).frPix ≠ 0 ∧ (24 : BitVec 5).toNat ≤ 24 ∧
      (4 : BitVec 3).toNat ≤ 4) ∧
    ((toy .frEmit 1).frPix = 0 ∧ (toy .frEmit 1).frKind = .fill ∧ toyParams.renderMode = .single ∧
      ({ toy .frEmit 1 with frKind := .letter, cfg := { toyParams with renderMode := .replay } } : State).cfg.renderMode =
        .replay) := by decide
theorem witness_ReplayStepExit : (toy .frStep 1).pins.rst = false ∧ (toy .frStep 1).dcnt.toNat ≤ 1 ∧
    (24 : BitVec 5) = 24 ∧ (23 : BitVec 5).toNat < 24 ∧ (4 : BitVec 3).toNat < 5 := by decide
theorem witness_HoldAndPauseExit : ((toy .frHold 1).pins.rst = false ∧ (toy .frHold 1).dcnt.toNat ≤ 1) ∧
    (toy .pauseW 1).pins.rst = false ∧ (toy .pauseW 1).dcnt.toNat ≤ 1 := by decide
theorem witness_TerminalPhasesStay : (toy .halt 1).pins.rst = false ∧ (toy .fault 1).pins.rst = false := by decide
theorem witness_ResetEdgeLoadsResetValues : ({ toy .halt 0 with inputs := [⟨true, 0, false⟩] } : State).pins.rst = true := by
  decide

/-- A frame being emitted: it meets the invariants, and its step answers a next state. -/
def emitting : State :=
  { toy .frEmit 30 with key := 0x1E, frKind := .fill, frIdx := 4, frPix := 24, ledValid := true, ledWord := 0x40201000 }
theorem emitting_inv : StateInv emitting := by
  unfold StateInv RowInv AudioInv DividerInv PortInv FrameInv KeyInv; decide
theorem emitting_progInv : ProgInv emitting :=
  ⟨by decide, by decide, by decide, fun _ => ⟨0x800400000000, by decide, by decide⟩⟩
theorem witness_StepKeepsInvariant : StateInv emitting ∧ (nextOf (step emitting)).isSome = true := ⟨emitting_inv, by decide⟩
theorem witness_StepKeepsProgramInvariant : ProgInv emitting ∧ (nextOf (step emitting)).isSome = true :=
  ⟨emitting_progInv, by decide⟩
theorem witness_DispatchStaysInProgram : ProgInv emitting ∧ controlState emitting.ph = .dispatching :=
  ⟨emitting_progInv, by decide⟩
theorem witness_RebootRequestOrigin :
    (nextOf (step (fetching 0xC00000000000 1))).map (·.rebootReq) = some true ∧
    (fetching 0xC00000000000 1).rebootReq = false ∧
    (nextOf (step { toy .halt 0 with rebootReq := true, inputs := [⟨true, 0, false⟩] })).map (·.rebootReq) = some false := by
  decide
theorem witness_OnlyToneGeneratorWritesAudio : (fetching 0x400000000000 1).pins.rst = false ∧
    (nextOf (step (fetching 0x400000000000 1))).map (fun t => decide (t.pwmDiv16 = (fetching 0x400000000000 1).pwmDiv16)) =
      some false := by decide
theorem witness_OnlyRendererWritesLeds : (fetching 0x800400000000 1).pins.rst = false ∧
    (nextOf (step (fetching 0x800400000000 1))).map (·.ledValid) = some true ∧
    (fetching 0x800400000000 1).ledValid = false := by decide
theorem witness_PendingWordIsStable : StateInv { emitting with inputs := [notReady] } ∧ emitting.ledValid = true ∧
    ({ emitting with inputs := [notReady] } : State).pins = notReady := ⟨emitting_inv, by decide, by decide⟩
theorem witness_LogPulseMarksDispatch : (toy .ksRel 1).pins.rst = false ∧
    (nextOf (step (toy .ksRel 1))).map (·.logValid) = some true ∧
    (nextOf (step (toy .halt 1))).map (·.logValid) = some false := by decide
theorem witness_ColumnsReadOnlyInScan : (toy .halt 1).ph ≠ .ksCol ∧ (toy .halt 1).ph ≠ .ksRel ∧
    (nextOf (step (toy .halt 1))).isSome = true := by decide
theorem witness_PixelFunctionReadsRoms : 24 ≤ 24 ∧ 5 ≤ 5 ∧ 24 < 25 := by decide
theorem witness_WaitPhaseLasts : isWait (toy .pauseW 3).ph = true ∧ (toy .pauseW 3).pins.rst = false ∧
    1 < ({ toy .pauseW 3 with dcnt := 2 } : State).dcnt.toNat ∧
    2 < max 1 ({ toy .pauseW 3 with dcnt := 3 } : State).dcnt.toNat ∧ NoReset 2 { toy .pauseW 3 with dcnt := 3 } ∧
    NoReset (max 1 ({ toy .frStep 3 with dcnt := 3 } : State).dcnt.toNat) { toy .frStep 3 with dcnt := 3 } ∧
    (toy .frStep 3).frIdx.toNat ≤ 4 :=
  ⟨by decide, by decide, by decide, by decide, (quiet_run _ 3 2 rfl (by decide)).1, (quiet_run _ 3 3 rfl (by decide)).1,
    by decide⟩
/-- Key (0,0) held for five cycles. -/
def held : State := { toy .ksRel 0 with sync1 := 0b1110, sync2 := 0b1110, inputs := List.replicate 5 ⟨false, 0b1110, true⟩ }
theorem witness_HeldKeyHoldsScanner : held.ph = .ksRel ∧ NoReset 5 held ∧ held.sync2.getLsbD held.ksC.toNat = false ∧
    held.sync1.getLsbD held.ksC.toNat = false ∧ ∀ j < 5, (held.pinsAt j).colN.getLsbD held.ksC.toNat = false :=
  ⟨by decide, noReset_of_replicate rfl rfl (Nat.le_refl 5), by decide, by decide, by decide⟩
/-- Only column 3 low. -/
def lastColumn : State := { toy .ksCol 0 with sync1 := 0b0111, sync2 := 0b0111, inputs := List.replicate 4 ⟨false, 0b0111, true⟩ }
theorem witness_FirstLowColumnWins : lastColumn.ph = .ksCol ∧ lastColumn.ksC = 0 ∧ (0b0111 : BitVec 4).getLsbD 3 = false ∧
    (∀ d < 3, (0b0111 : BitVec 4).getLsbD d = true) ∧ lastColumn.sync2 = 0b0111 ∧ lastColumn.sync1 = 0b0111 ∧
    NoReset (3 + 1) lastColumn ∧ ∀ j < 3 + 1, (lastColumn.pinsAt j).colN = 0b0111 :=
  ⟨by decide, by decide, by decide, by decide, by decide, by decide, noReset_of_replicate rfl rfl (Nat.le_refl 4), by decide⟩
/-- A scan's first KS_SETTLE cycle, with `SETTLE_CYC = 2`. -/
def scanFrom (l : List Pins) : State := { toy .ksSettle 0 with scnt := 2, rowN := 0b1110, inputs := l }
/-- Key (3,3) alone low when sampled, which is in cycle 21 of the scan. -/
def lastKey : State := scanFrom (List.replicate 21 quiet ++ List.replicate 3 ⟨false, 0b0111, true⟩)
theorem witness_FirstLowColumnWins_scan : lastKey.ph = .ksSettle ∧ lastKey.ksR = 0 ∧ lastKey.ksC = 0 ∧
    lastKey.rowN = 0b1110 ∧ lastKey.cfg.settleCyc < 2 ^ 16 ∧ lastKey.scnt.toNat = lastKey.cfg.settleCyc ∧
    (lastKey.pinsAt (sampleAt lastKey.cfg 3 3)).colN.getLsbD 3 = false ∧
    (∀ a < 4, ∀ b < 4, 4 * a + b < 4 * 3 + 3 → (lastKey.pinsAt (sampleAt lastKey.cfg a b)).colN.getLsbD b = true) ∧
    NoReset (decideAt lastKey.cfg 3 3 + 1) lastKey :=
  ⟨by decide, by decide, by decide, by decide, by decide, by decide, by decide, by decide, by unfold NoReset; decide⟩
/-- Key (3,3) closed from the scan's first cycle to the cycle that decides on it, on an ideal matrix, and then released. -/
def matrixKey : State :=
  scanFrom (List.replicate 18 quiet ++ List.replicate 6 ⟨false, 0b0111, true⟩ ++ List.replicate 3 quiet)
/-- The matrix condition of one cycle, as a test of the state reached. -/
def onMatrixAt (closed : Nat → BitVec 16) (s : State) (j : Nat) : Bool :=
  match nextOf (Sys2Proof.core.run j s) with
  | some u => (s.pinsAt j).colN == matrixCols (closed j) u.rowN
  | none => false
theorem onMatrix_of_test {closed : Nat → BitVec 16} {n : Nat} {s : State}
    (h : ∀ j < n, onMatrixAt closed s j = true) : OnMatrix closed n s := fun j hj => by
  have hj := h j hj
  unfold onMatrixAt at hj
  cases hr : Sys2Proof.core.run j s with
  | next u => rw [hr] at hj; exact ⟨u, rfl, by simpa [nextOf] using hj⟩
  | fault _ => rw [hr] at hj; simp [nextOf] at hj
  | refused _ => rw [hr] at hj; simp [nextOf] at hj
theorem witness_FirstLowColumnWins_matrix : matrixKey.ph = .ksSettle ∧ matrixKey.rowN = 0b1110 ∧
    matrixKey.scnt.toNat = matrixKey.cfg.settleCyc ∧ decideAt matrixKey.cfg (3 : BitVec 2).toNat (3 : BitVec 2).toNat < 24 ∧
    NoReset (24 + 3) matrixKey ∧
    OnMatrix (fun j => if j < 24 then 1#16 <<< (4 * (3 : BitVec 2).toNat + (3 : BitVec 2).toNat) else 0) (24 + 3) matrixKey :=
  ⟨by decide, by decide, by decide, by decide, by unfold NoReset; decide, onMatrix_of_test (by decide)⟩
def scanning : State := { toy .ksSettle 24 with scnt := 2, rowN := 0b1110 }
theorem witness_EmptyScanLasts : scanning.ksR = 0 ∧ scanning.ksC = 0 ∧ scanning.cfg.settleCyc < 2 ^ 16 ∧
    scanning.scnt.toNat = scanning.cfg.settleCyc ∧ scanning.sync1 = 0b1111 ∧ scanning.sync2 = 0b1111 ∧
    NoReset (4 * (scanning.cfg.settleCyc + 4)) scanning ∧
    ∀ j < 4 * (scanning.cfg.settleCyc + 4), (scanning.pinsAt j).colN = 0b1111 :=
  ⟨by decide, by decide, by decide, by decide, by decide, by decide, (quiet_run _ 24 24 rfl (by decide)).1, by decide⟩
theorem witness_FrameWordsInReverseOrder : emitting.ph = .frEmit ∧ emitting.ledValid = true ∧ emitting.frPix = 24 ∧
    emitting.frIdx.toNat ≤ 4 ∧ pixWord emitting.cfg emitting.frKind emitting.frIdx.toNat 24 = some emitting.ledWord ∧
    NoReset 25 emitting ∧ LedReady 25 emitting :=
  ⟨by decide, by decide, by decide, by decide, by decide, quiet_run _ 30 25 rfl (by decide)⟩
theorem witness_FillSpan : (fetching 0x800400000000 27).command = some 0x800400000000 ∧ decodeCmd 0x800400000000 = .fill 4 ∧
    colorRom slow 4 = some ⟨32, 64, 16⟩ ∧ (fetching 0x800400000000 27).ledValid = false ∧
    (fetching 0x800400000000 27).apc.toNat < 15 ∧ WaitFits slow slow.fillHoldMs ∧
    NoReset (26 + waitSpan slow slow.fillHoldMs) (fetching 0x800400000000 27) ∧ LedReady 26 (fetching 0x800400000000 27) :=
  ⟨by decide, by decide, by decide, by decide, by decide, by unfold WaitFits; decide,
    (quiet_run _ 27 _ rfl (by decide)).1, (quiet_run _ 27 _ rfl (by decide)).2⟩
theorem witness_LetterSpan_single : (fetching 0x600400000000 3026).command = some 0x600400000000 ∧
    decodeCmd 0x600400000000 = .letter 4 ∧ (4 : BitVec 8).toNat < 5 ∧ slow.renderMode = .single ∧
    WaitFits slow slow.glyphHoldMs ∧ NoReset (26 + waitSpan slow slow.glyphHoldMs) (fetching 0x600400000000 3026) ∧
    LedReady 26 (fetching 0x600400000000 3026) :=
  ⟨rfl, by decide, by decide, by decide, by unfold WaitFits; decide,
    (quiet_run _ 3026 _ rfl (by decide)).1, (quiet_run _ 3026 _ rfl (by decide)).2⟩
/-- The same in REPLAY mode. -/
def replaying : State := { fetching 0x600400000000 3626 with cfg := { slow with renderMode := .replay } }
theorem witness_LetterSpan_replay : replaying.command = some 0x600400000000 ∧ replaying.cfg.renderMode = .replay ∧
    replaying.ledValid = false ∧ replaying.apc.toNat < 15 ∧ WaitFits replaying.cfg 500 ∧
    NoReset (626 + 3000 * (replaying.cfg.clkHz / 1000)) replaying ∧
    LedReady (626 + 3000 * (replaying.cfg.clkHz / 1000)) replaying :=
  ⟨rfl, by decide, by decide, by decide, by unfold WaitFits; decide, quiet_run _ 3626 _ rfl (by decide)⟩
theorem witness_BeepSpan : (fetching 0x2001000A0001 202).command = some 0x2001000A0001 ∧
    decodeCmd 0x2001000A0001 = .beep 1 10 1 ∧ (1 : BitVec 8) ≠ 0 ∧ WaitFits slow 1 ∧ WaitFits slow 200 ∧
    NoReset (1 + 1 * (waitSpan slow 1 + waitSpan slow 200)) (fetching 0x2001000A0001 202) :=
  ⟨rfl, by decide, by decide, by unfold WaitFits; decide, by unfold WaitFits; decide, (quiet_run _ 202 _ rfl (by decide)).1⟩
theorem witness_MelodySpan : (fetching 0x400000000000 1209).command = some 0x400000000000 ∧
    decodeCmd 0x400000000000 = .melody ∧ (∀ i, WaitFits slow (slow.melody.get i).ms.toNat) ∧ WaitFits slow 150 ∧
    NoReset (1 + ∑ i : Fin 8, (waitSpan slow (slow.melody.get i).ms.toNat + waitSpan slow 150)) (fetching 0x400000000000 1209) :=
  ⟨rfl, by decide, by unfold WaitFits; decide, by unfold WaitFits; decide, (quiet_run _ 1209 _ rfl (by decide)).1⟩
theorem witness_PwmCounterRate : (toy .idleWait 1).pwmFrac = 0 ∧ 16 ≤ (toy .idleWait 1).pwmDiv16.toNat := by decide
/-- A DISP_FETCH state with the reference ROM. -/
def dispatching (k : KeyCode) (n : Nat) : State :=
  { State.resetWith slow (actProgRef slow) (List.replicate n quiet) 1 with ph := .dispFetch, key := k }
/-- Key '1' at 1000 Hz with every default. -/
def introducing : State :=
  { State.resetWith { clkHz := 1000 } (actProgRef { clkHz := 1000 }) (List.replicate 21133 quiet) 1 with
    ph := .dispFetch, key := 0x10 }
theorem witness_IntroKeyDispatch : introducing.rom = actProgRef introducing.cfg ∧ introducing.ledValid = false ∧
    introducing.apc = 0 ∧ WaitFits introducing.cfg 500 ∧ WaitFits introducing.cfg introducing.cfg.glyphHoldMs ∧
    (∀ i, WaitFits introducing.cfg (introducing.cfg.melody.get i).ms.toNat) ∧ introducing.cfg.glyphHoldMs = 3000 ∧
    (∀ i, (introducing.cfg.melody.get i).ms = 500) ∧ NoReset (introSpan introducing.cfg) introducing ∧
    LedReady (introSpan introducing.cfg) introducing :=
  ⟨rfl, rfl, rfl, by unfold WaitFits; decide, by unfold WaitFits; decide, by unfold WaitFits; decide, by decide, by decide,
    quiet_run _ 21133 _ rfl (by decide)⟩
theorem witness_UnmappedKeyDispatch : (dispatching 0x1C 1).rom = actProgRef (dispatching 0x1C 1).cfg ∧
    (dispatching 0x1C 1).pins.rst = false ∧ (dispatching 0x1C 1).apc = 0 := ⟨rfl, by decide, rfl⟩
theorem witness_SolidColourKeyDispatch : (dispatching 0x1F 28).rom = actProgRef (dispatching 0x1F 28).cfg ∧
    (dispatching 0x1F 28).ledValid = false ∧ WaitFits slow slow.fillHoldMs ∧
    NoReset (27 + waitSpan slow slow.fillHoldMs) (dispatching 0x1F 28) ∧ LedReady 26 (dispatching 0x1F 28) :=
  ⟨rfl, rfl, by unfold WaitFits; decide, (quiet_run _ 28 _ rfl (by decide)).1, (quiet_run _ 28 _ rfl (by decide)).2⟩
theorem witness_RebootKeyDispatch : (dispatching 0x1D 102).rom = actProgRef (dispatching 0x1D 102).cfg ∧
    (dispatching 0x1D 102).rebootReq = false ∧ WaitFits slow 100 ∧
    NoReset (100 * (slow.clkHz / 1000) + 2) (dispatching 0x1D 102) :=
  ⟨rfl, rfl, by unfold WaitFits; decide, (quiet_run _ 102 _ rfl (by decide)).1⟩
def halted : State := { toy .halt 5 with rebootReq := true }
theorem witness_HaltIsTerminal : StateInv halted ∧ halted.ph = .halt ∧ NoReset 5 halted :=
  ⟨by unfold StateInv RowInv AudioInv DividerInv PortInv FrameInv KeyInv; decide, rfl,
    (quiet_run _ 5 _ rfl (by decide)).1⟩

end Sys2Proof.Tests
end

