-- ==== Sys2Proof/Proofs/WaitPhases.lean ====
section
/-! Wait phases over several cycles (spec 00_scope.md R8): what a cycle that counts down and a cycle that exits do, what a
wait leaves as it was, and where it ends. -/

namespace Sys2Proof.Machine

/-! ### Runs in two parts -/

/-- A run goes on from the state that its first part reaches, in any machine of the host's form. -/
theorem core_run_add (M : Host.Core) (n m : Nat) {s t : M.State} (h : M.run n s = .next t) :
    M.run (n + m) s = M.run m t := by
  induction n generalizing s with
  | zero =>
    obtain rfl : s = t := Host.Outcome.next.inj h
    rw [Nat.zero_add]
  | succ n ih =>
    cases hs : M.step s with
    | next u =>
      rw [core_run_succ M n hs] at h
      rw [Nat.add_right_comm, core_run_succ M (n + m) hs, ih h]
    | fault r => simp [Host.Core.run, hs] at h
    | refused r => simp [Host.Core.run, hs] at h

/-- A run of one step is that step, in any machine of the host's form. -/
theorem core_run_one (M : Host.Core) (s : M.State) : M.run 1 s = M.step s := by
  cases hs : M.step s <;> simp [Host.Core.run, hs]

/-- One cycle after a run of the block is a step of the state that the run reaches. -/
theorem run_succ_of_run {n : Nat} {s t : State} (h : Sys2Proof.core.run n s = .next t) :
    Sys2Proof.core.run (n + 1) s = step t := by
  rw [core_run_add Sys2Proof.core n 1 h]
  exact core_run_one Sys2Proof.core t

/-- The input levels of a state that has used up `n` of the cycles that another one prescribes. -/
theorem pinsAt_of_drop {s t : State} {n : Nat} (hi : t.inputs = s.inputs.drop n) (hc : t.cycle = s.cycle + n) (j : Nat) :
    t.pinsAt j = s.pinsAt (n + j) := by
  simp only [State.pinsAt, hi, hc, List.getElem?_drop, Nat.add_assoc]

/-! ### The turn of a wait phase -/

/-- The exit action of each wait phase; the other phases have none, and are given the one that does nothing. -/
def waitExit : Phase → State → Host.Outcome State Fault Refusal
  | .idleWait => leaveIdleWait
  | .beepOn => leaveBeepOn
  | .beepGap => leaveBeepGap
  | .melOn => leaveMelOn
  | .melGap => leaveMelGap
  | .frStep => leaveFrStep
  | .frHold => leaveFrHold
  | .pauseW => leavePauseW
  | .ksSettle | .ksCol | .ksRel | .dispFetch | .frEmit | .halt | .fault => .next

/-- The turn of a wait phase is the wait rule with that phase's exit action. -/
theorem turn_of_isWait {s : State} (hw : isWait s.ph = true) : turn s = waitTurn s (waitExit s.ph) := by
  cases hp : s.ph with
  | idleWait | beepOn | beepGap | melOn | melGap | frStep | frHold | pauseW => simp only [turn, hp]; rfl
  | ksSettle | ksCol | ksRel | dispFetch | frEmit | halt | fault => rw [hp] at hw; cases hw

/-- The state after a cycle of a wait phase that does not exit (R8). -/
def State.countDown (s : State) : State := { s.clocked with dcnt := s.dcnt - 1 }

@[simp] theorem countDown_ph (s : State) : s.countDown.ph = s.ph := clocked_ph s
@[simp] theorem countDown_logValid (s : State) : s.countDown.logValid = false := rfl

@[simp] theorem countDown_pinsAt (s : State) (j : Nat) : s.countDown.pinsAt j = s.pinsAt (j + 1) :=
  clocked_pinsAt s j

theorem countDown_dcnt_toNat (s : State) (hd : 1 < s.dcnt.toNat) : s.countDown.dcnt.toNat = s.dcnt.toNat - 1 := by
  show (s.dcnt - 1).toNat = _
  bv_omega

/-- With `dcnt` above 1 a cycle of a wait phase counts down. -/
theorem step_of_isWait_of_lt {s : State} (hw : isWait s.ph = true) (hr : s.pins.rst = false) (hd : 1 < s.dcnt.toNat) :
    step s = .next s.countDown := by
  rw [step_of_run hr, turn_of_isWait hw]
  obtain ⟨hle, _⟩ | ⟨_, ht⟩ := waitTurn_cases s (waitExit s.ph)
  · omega
  · rw [ht]; rfl

/-- With `dcnt` at most 1 a cycle of a wait phase is its exit. -/
theorem step_of_isWait_of_le {s : State} (hw : isWait s.ph = true) (hr : s.pins.rst = false) (hd : s.dcnt.toNat ≤ 1) :
    step s = waitExit s.ph s.clocked := by
  rw [step_of_run hr, turn_of_isWait hw]
  obtain ⟨_, ht⟩ | ⟨hlt, _⟩ := waitTurn_cases s (waitExit s.ph)
  · rw [ht]; rfl
  · omega

/-! ### What a wait leaves as it was -/

/-- `t` is `s` after `n` cycles of waiting, but for the delay counter, the synchroniser, the PWM counter and the log pulse. -/
def WaitFrame (n : Nat) (s t : State) : Prop :=
  t = { s with
    dcnt := t.dcnt, sync1 := t.sync1, sync2 := t.sync2, pwmCnt := t.pwmCnt, pwmFrac := t.pwmFrac,
    logValid := t.logValid, inputs := s.inputs.drop n, cycle := s.cycle + n }

theorem WaitFrame.refl (s : State) : WaitFrame 0 s s := rfl

/-- A cycle that counts down, in front of a wait, makes it one cycle longer. -/
theorem WaitFrame.of_countDown {n : Nat} {s t : State} (h : WaitFrame n s.countDown t) : WaitFrame (n + 1) s t := by
  refine h.trans ?_
  simp [State.countDown, Nat.add_assoc, Nat.add_comm 1 n]

theorem WaitFrame.ph {n : Nat} {s t : State} (h : WaitFrame n s t) : t.ph = s.ph := (congrArg State.ph h :)

theorem WaitFrame.frIdx {n : Nat} {s t : State} (h : WaitFrame n s t) : t.frIdx = s.frIdx := (congrArg State.frIdx h :)

theorem WaitFrame.pinsAt {n : Nat} {s t : State} (h : WaitFrame n s t) (j : Nat) : t.pinsAt j = s.pinsAt (n + j) :=
  pinsAt_of_drop (congrArg State.inputs h :) (congrArg State.cycle h :) j

/-! ### A wait over several cycles -/

/-- A run inside a wait counts down once a cycle and keeps the frame. The log pulse is down from the second cycle on, and
stays down where it was down before. -/
theorem run_inside_wait {s : State} {n : Nat} (hw : isWait s.ph = true) (hn : n < max 1 s.dcnt.toNat) (hr : NoReset n s) :
    ∃ t, Sys2Proof.core.run n s = .next t ∧ t.dcnt.toNat = s.dcnt.toNat - n ∧
      (0 < n ∨ s.logValid = false → t.logValid = false) ∧ WaitFrame n s t := by
  induction n generalizing s with
  | zero => exact ⟨s, rfl, rfl, fun h => h.resolve_left (Nat.lt_irrefl 0), .refl s⟩
  | succ n ih =>
    have hd : 1 < s.dcnt.toNat := by omega
    have hstep := step_of_isWait_of_lt hw (hr 0 n.succ_pos) hd
    have hdcnt := countDown_dcnt_toNat s hd
    have hrest : NoReset n s.countDown := fun j hj => by
      rw [countDown_pinsAt]
      exact hr (j + 1) (Nat.succ_lt_succ hj)
    obtain ⟨t, hrun, hcount, hlog, hframe⟩ := ih (s := s.countDown) (by simpa using hw) (by omega) hrest
    exact ⟨t, (run_succ n hstep).trans hrun, by omega, fun _ => hlog (.inr (countDown_logValid s)), hframe.of_countDown⟩

/-- A wait of `max(1, dcnt)` cycles ends with its phase's exit action, taken in a state that differs from the first one only
as the frame allows. -/
theorem run_wait_to_exit {s : State} (hw : isWait s.ph = true) (hr : NoReset (max 1 s.dcnt.toNat) s) :
    ∃ t, WaitFrame (max 1 s.dcnt.toNat - 1) s t ∧ t.dcnt.toNat ≤ 1 ∧
      Sys2Proof.core.run (max 1 s.dcnt.toNat) s = waitExit s.ph t.clocked := by
  have hspan : max 1 s.dcnt.toNat - 1 + 1 = max 1 s.dcnt.toNat := by omega
  obtain ⟨t, hrun, hcount, _, hframe⟩ :=
    run_inside_wait hw (by omega) (fun j hj => hr j (by omega) : NoReset (max 1 s.dcnt.toNat - 1) s)
  have hd : t.dcnt.toNat ≤ 1 := by omega
  have hrst : t.pins.rst = false := by
    show (t.pinsAt 0).rst = false
    rw [hframe.pinsAt]
    exact hr _ (by omega)
  refine ⟨t, hframe, hd, ?_⟩
  rw [← hspan, run_succ_of_run hrun, step_of_isWait_of_le (hframe.ph ▸ hw) hrst hd, hframe.ph]

/-! ### The exits -/

/-- With a letter index that has a glyph, the exit of FR_STEP is the trailing hold or the next replay (R125). -/
theorem leaveFrStep_ph {s : State} (hi : s.frIdx.toNat ≤ 4) :
    ∃ t, leaveFrStep s = .next t ∧ (t.ph = .frHold ∨ t.ph = .frEmit) := by
  have hsome : (pixWord s.cfg .letter s.frIdx.toNat 24).isSome = true := by simp [pixWord_isSome, hi]
  obtain ⟨w, hw⟩ := Option.isSome_iff_exists.mp hsome
  unfold leaveFrStep
  split
  · exact ⟨_, rfl, .inl rfl⟩
  · rw [hw]; exact ⟨_, rfl, .inr rfl⟩

/-- The exit of BEEP_GAP is the next command or the next beep (R150). -/
theorem leaveBeepGap_ph (s : State) : ∃ t, leaveBeepGap s = .next t ∧ (t.ph = .dispFetch ∨ t.ph = .beepOn) := by
  unfold leaveBeepGap
  split
  · exact ⟨_, rfl, .inl rfl⟩
  · exact ⟨_, rfl, .inr rfl⟩

/-- The exit of MEL_GAP is the next command or the next note (R153). -/
theorem leaveMelGap_ph (s : State) : ∃ t, leaveMelGap s = .next t ∧ (t.ph = .dispFetch ∨ t.ph = .melOn) := by
  unfold leaveMelGap
  split
  · exact ⟨_, rfl, .inl rfl⟩
  · exact ⟨_, rfl, .inr rfl⟩

/-- Every wait phase's exit answers a next state in another phase, FR_STEP's for a letter index that has a glyph. -/
theorem waitExit_leaves {p : Phase} (s : State) (hw : isWait p = true) (hi : p = .frStep → s.frIdx.toNat ≤ 4) :
    ∃ t, waitExit p s = .next t ∧ t.ph ≠ p := by
  cases p with
  | idleWait => exact ⟨s.scanStart, rfl, by simp [State.scanStart, State.driveRow]⟩
  | beepOn => exact ⟨_, rfl, by simp⟩
  | melOn => exact ⟨_, rfl, by simp⟩
  | frHold => exact ⟨s.nextCommand, rfl, by simp⟩
  | pauseW => exact ⟨s.nextCommand, rfl, by simp⟩
  | beepGap =>
    obtain ⟨t, ht, hp⟩ := leaveBeepGap_ph s
    exact ⟨t, ht, by rcases hp with hp | hp <;> simp [hp]⟩
  | melGap =>
    obtain ⟨t, ht, hp⟩ := leaveMelGap_ph s
    exact ⟨t, ht, by rcases hp with hp | hp <;> simp [hp]⟩
  | frStep =>
    obtain ⟨t, ht, hp⟩ := leaveFrStep_ph (hi rfl)
    exact ⟨t, ht, by rcases hp with hp | hp <;> simp [hp]⟩
  | ksSettle | ksCol | ksRel | dispFetch | frEmit | halt | fault => cases hw

/-- Settles O47: the counting step, the frame of a run inside the wait, and the exit that ends it. -/
theorem waitPhaseLasts : Obligations.WaitPhaseLasts := by
  refine ⟨fun s hw hr hd => step_of_isWait_of_lt hw hr hd, fun s n hw hn hr => ?_, fun s hw hi hr => ?_⟩
  · obtain ⟨t, hrun, hcount, hlog, hframe⟩ := run_inside_wait hw hn hr
    exact ⟨t, hrun, hcount, fun hpos => hlog (.inl hpos), hframe⟩
  · obtain ⟨u, hframe, _, hrun⟩ := run_wait_to_exit hw hr
    obtain ⟨t, hexit, hph⟩ := waitExit_leaves u.clocked hw (fun hp => by simpa [hframe.frIdx] using hi hp)
    exact ⟨t, hrun.trans hexit, hph⟩

end Sys2Proof.Machine
end

