-- ==== Sys2Proof/Proofs/Moves.lean ====
section
/-! Everything a cycle without `rst` can do (spec 44_control_loop.md R203), said once: one constructor per branch of a phase
rule or command, with its guard and its next state. A fact about every step is then a case split over these moves. -/

namespace Sys2Proof.Machine

/-! ### Commands -/

/-- What a command that is carried out in the state `c` leaves (R122, R123, R148, R151, R171 to R175). -/
inductive CommandMove (c : State) : Instr → State → Prop
  | ends : CommandMove c .endProg (c.loadWait c.cfg.idleMs .idleWait)
  | beepsNone (f d : BitVec 16) : CommandMove c (.beep 0 f d) c.nextCommand
  | beeps {n : BitVec 8} (hn : n ≠ 0) (f d : BitVec 16) :
      CommandMove c (.beep n f d)
        (({ c with tgRem := n, tgD := d, tgLvl := levelOn c.cfg f }.toneOn f).loadWait d.toNat .beepOn)
  | plays : CommandMove c .melody (c.soundNote 0)
  | startsLetter {g : BitVec 8} (hg : g.toNat ≤ 4) {w : PixWord} (hw : pixWord c.cfg .letter g.toNat 24 = some w) :
      CommandMove c (.letter g) (c.startFrame .letter (g.setWidth 3) w)
  | startsFill {k : BitVec 8} (hk : k.toNat ≤ 4) {w : PixWord} (hw : pixWord c.cfg .fill k.toNat 24 = some w) :
      CommandMove c (.fill k) (c.startFrame .fill (k.setWidth 3) w)
  | noLetter {g : BitVec 8} (hg : 4 < g.toNat) : CommandMove c (.letter g) (c.raiseFault .reservedIndex)
  | noColor {k : BitVec 8} (hk : 4 < k.toNat) : CommandMove c (.fill k) (c.raiseFault .reservedIndex)
  | pauses (d : BitVec 16) : CommandMove c (.pause d) (c.loadWait d.toNat .pauseW)
  | reboots : CommandMove c .reboot { c with rebootReq := true, ph := .halt }
  | reserved : CommandMove c .reservedOp7 (c.raiseFault .reservedOp)

theorem execBeep_moves {n : BitVec 8} {f d : BitVec 16} {c t : State} (h : execBeep n f d c = .next t) :
    CommandMove c (.beep n f d) t := by
  unfold execBeep at h
  split at h
  case isTrue hn => subst hn; cases h; exact .beepsNone f d
  case isFalse hn => cases h; exact .beeps hn f d

theorem execLetter_moves {g : BitVec 8} {c t : State} (h : execLetter g c = .next t) : CommandMove c (.letter g) t := by
  obtain rfl := Host.Outcome.next.inj h
  obtain ⟨hg, w, hw, heq⟩ | ⟨hg, heq⟩ := startFrameOr_spec .letter g c
  · rw [heq]; exact .startsLetter hg hw
  · rw [heq]; exact .noLetter hg

theorem execFill_moves {k : BitVec 8} {c t : State} (h : execFill k c = .next t) : CommandMove c (.fill k) t := by
  obtain rfl := Host.Outcome.next.inj h
  obtain ⟨hk, w, hw, heq⟩ | ⟨hk, heq⟩ := startFrameOr_spec .fill k c
  · rw [heq]; exact .startsFill hk hw
  · rw [heq]; exact .noColor hk

/-- The meaning of a decoded command is one of the commands' moves: no word decodes to a key. -/
theorem exec_decodeCmd_moves {w : Cmd} {c t : State} (h : exec (decodeCmd w) c = .next t) :
    CommandMove c (decodeCmd w) t := by
  unfold decodeCmd at h ⊢
  split at h
  · obtain rfl := Host.Outcome.next.inj h; exact .ends
  · exact execBeep_moves h
  · obtain rfl := Host.Outcome.next.inj h; exact .plays
  · exact execLetter_moves h
  · exact execFill_moves h
  · obtain rfl := Host.Outcome.next.inj h; exact .pauses _
  · obtain rfl := Host.Outcome.next.inj h; exact .reboots
  · obtain rfl := Host.Outcome.next.inj h; exact .reserved

theorem bitVec2_cases (r : BitVec 2) : r = 0 ∨ r = 1 ∨ r = 2 ∨ r = 3 := by
  revert r
  decide

/-- The meaning of a key's code is the release exit with that code (R72, R105). -/
theorem exec_decodeKey_keyCodeOf (r k : BitVec 2) (c : State) :
    exec (decodeKey (keyCodeOf r k)) c = .next (c.dispatchKey (keyCodeOf r k)) := by
  rcases bitVec2_cases r with rfl | rfl | rfl | rfl <;> rcases bitVec2_cases k with rfl | rfl | rfl | rfl <;> rfl

/-! ### Phases -/

/-- What a cycle without `rst` leaves: the branches of the phase rules (R102 to R105, R124 to R126, R149 to R153, R171,
R174, R201, R204, R212), each on top of the always-running part. -/
inductive Move (s : State) : State → Prop
  | waits (hw : isWait s.ph = true) (hd : 1 < s.dcnt.toNat) : Move s s.countDown
  | scanStarts (hp : s.ph = .idleWait) (hd : s.dcnt.toNat ≤ 1) : Move s s.clocked.scanStart
  | settles (hp : s.ph = .ksSettle) (hn : 1 < s.scnt.toNat) : Move s { s.clocked with scnt := s.scnt - 1 }
  | settled (hp : s.ph = .ksSettle) (hn : s.scnt.toNat ≤ 1) : Move s { s.clocked with ph := .ksCol }
  | pressed (hp : s.ph = .ksCol) (hc : s.column = false) : Move s { s.clocked with ph := .ksRel }
  | nextColumn (hp : s.ph = .ksCol) (hc : s.column = true) (hn : s.ksC.toNat < 3) :
      Move s { s.clocked with ksC := s.ksC + 1 }
  | nextRow (hp : s.ph = .ksCol) (hc : s.column = true) (hn : ¬ s.ksC.toNat < 3) (hr : s.ksR.toNat < 3) :
      Move s (s.clocked.driveRow (s.ksR + 1))
  | noKey (hp : s.ph = .ksCol) (hc : s.column = true) (hn : ¬ s.ksC.toNat < 3) (hr : ¬ s.ksR.toNat < 3) :
      Move s s.clocked.noneExit
  | held (hp : s.ph = .ksRel) (hc : s.column = false) : Move s s.clocked
  | released (hp : s.ph = .ksRel) (hc : s.column = true) : Move s (s.clocked.dispatchKey (keyCodeOf s.ksR s.ksC))
  | overruns (hp : s.ph = .dispFetch) (hc : s.command = none) : Move s (s.clocked.raiseFault .progOverrun)
  | fetches (hp : s.ph = .dispFetch) {w : Cmd} (hc : s.command = some w) {t : State}
      (hm : CommandMove s.clocked (decodeCmd w) t) : Move s t
  | beepEnds (hp : s.ph = .beepOn) (hd : s.dcnt.toNat ≤ 1) :
      Move s (s.clocked.toneOff.loadWait s.clocked.cfg.beepGapMs .beepGap)
  | beepsAgain (hp : s.ph = .beepGap) (hd : s.dcnt.toNat ≤ 1) (hn : ¬ s.tgRem.toNat ≤ 1) :
      Move s
        ({ s.clocked with tgRem := s.clocked.tgRem - 1, pwmLevel := s.clocked.tgLvl }.loadWait s.clocked.tgD.toNat .beepOn)
  | noteEnds (hp : s.ph = .melOn) (hd : s.dcnt.toNat ≤ 1) :
      Move s (s.clocked.toneOff.loadWait s.clocked.cfg.melGapMs .melGap)
  | nextNote (hp : s.ph = .melGap) (hd : s.dcnt.toNat ≤ 1) (hn : s.tgNote ≠ 7) :
      Move s (s.clocked.soundNote (s.clocked.tgNote + 1))
  | commandDone
      (hp : s.ph = .beepGap ∧ s.tgRem.toNat ≤ 1 ∨ s.ph = .melGap ∧ s.tgNote = 7 ∨ s.ph = .frHold ∨ s.ph = .pauseW)
      (hd : s.dcnt.toNat ≤ 1) : Move s s.clocked.nextCommand
  | notReady (hp : s.ph = .frEmit) (hl : s.pins.ledReady = false) : Move s s.clocked
  | nextWord (hp : s.ph = .frEmit) (hl : s.pins.ledReady = true) (hn : s.frPix ≠ 0) {w : PixWord}
      (hw : pixWord s.cfg s.frKind s.frIdx.toNat (s.frPix.toNat - 1) = some w) :
      Move s { s.clocked with frPix := s.frPix - 1, ledWord := w }
  | frameDone (hp : s.ph = .frEmit) (hl : s.pins.ledReady = true) (hn : s.frPix = 0) : Move s s.clocked.frameDone
  | replays (hp : s.ph = .frStep) (hd : s.dcnt.toNat ≤ 1) (hn : s.frRep ≠ 24) {w : PixWord}
      (hw : pixWord s.cfg .letter s.frIdx.toNat 24 = some w) :
      Move s { s.clocked with
        frRep := s.clocked.fit 5 (s.clocked.frRep.toNat + 1), frPix := 24, ledWord := w, ledValid := true, ph := .frEmit }
  | replayed (hp : s.ph = .frStep) (hd : s.dcnt.toNat ≤ 1) (hn : s.frRep = 24) :
      Move s (s.clocked.loadWait s.clocked.cfg.replayTailMs .frHold)
  | stops (hp : s.ph = .halt ∨ s.ph = .fault) : Move s s.clocked

/-- The exits of the wait phases are moves. -/
theorem waitExit_moves {s t : State} (hw : isWait s.ph = true) (hd : s.dcnt.toNat ≤ 1)
    (h : waitExit s.ph s.clocked = .next t) : Move s t := by
  cases hp : s.ph with rw [hp] at h
  | idleWait => obtain rfl := Host.Outcome.next.inj h; exact .scanStarts hp hd
  | beepOn => obtain rfl := Host.Outcome.next.inj h; exact .beepEnds hp hd
  | melOn => obtain rfl := Host.Outcome.next.inj h; exact .noteEnds hp hd
  | frHold => obtain rfl := Host.Outcome.next.inj h; exact .commandDone (.inr (.inr (.inl hp))) hd
  | pauseW => obtain rfl := Host.Outcome.next.inj h; exact .commandDone (.inr (.inr (.inr hp))) hd
  | beepGap =>
    rw [waitExit, leaveBeepGap] at h
    split at h <;> obtain rfl := Host.Outcome.next.inj h
    case isTrue hn => exact .commandDone (.inl ⟨hp, by simpa using hn⟩) hd
    case isFalse hn => exact .beepsAgain hp hd (by simpa using hn)
  | melGap =>
    rw [waitExit, leaveMelGap] at h
    split at h <;> obtain rfl := Host.Outcome.next.inj h
    case isTrue hn => exact .commandDone (.inr (.inl ⟨hp, by simpa using hn⟩)) hd
    case isFalse hn => exact .nextNote hp hd (by simpa using hn)
  | frStep =>
    rw [waitExit, leaveFrStep] at h
    split at h
    case isTrue hn => obtain rfl := Host.Outcome.next.inj h; exact .replayed hp hd (by simpa using hn)
    case isFalse hn =>
      split at h
      case h_1 w hpix =>
        obtain rfl := Host.Outcome.next.inj h
        exact .replays hp hd (by simpa using hn) (by simpa using hpix)
      case h_2 => cases h
  | ksSettle | ksCol | ksRel | dispFetch | frEmit | halt | fault => rw [hp] at hw; cases hw

/-- The turns of the other phases are moves. -/
theorem turn_moves {s t : State} (hw : isWait s.ph = false) (h : runTurn s (turn s) = .next t) : Move s t := by
  cases hp : s.ph with
  | ksSettle =>
    simp only [turn, hp, ksSettleTurn] at h
    split at h
    case isTrue hn => obtain rfl := Host.Outcome.next.inj h; exact .settled hp hn
    case isFalse hn => obtain rfl := Host.Outcome.next.inj h; exact .settles hp (by omega)
  | ksCol =>
    simp only [turn, hp, ksColTurn] at h
    split at h
    case isTrue hc => obtain rfl := Host.Outcome.next.inj h; exact .pressed hp hc
    case isFalse hc =>
      rw [Bool.not_eq_false] at hc
      split at h
      case isTrue hn => obtain rfl := Host.Outcome.next.inj h; exact .nextColumn hp hc hn
      case isFalse hn =>
        split at h
        case isTrue hr => obtain rfl := Host.Outcome.next.inj h; exact .nextRow hp hc hn hr
        case isFalse hr => obtain rfl := Host.Outcome.next.inj h; exact .noKey hp hc hn hr
  | ksRel =>
    simp only [turn, hp, ksRelTurn] at h
    split at h
    case isTrue hc =>
      rw [runTurn, exec_decodeKey_keyCodeOf] at h
      obtain rfl := Host.Outcome.next.inj h
      exact .released hp hc
    case isFalse hc =>
      obtain rfl := Host.Outcome.next.inj h
      exact .held hp (Bool.eq_false_of_not_eq_true hc)
  | dispFetch =>
    simp only [turn, hp, dispFetchTurn] at h
    split at h
    case h_1 w hc => exact .fetches hp hc (exec_decodeCmd_moves h)
    case h_2 hc => obtain rfl := Host.Outcome.next.inj h; exact .overruns hp hc
  | frEmit =>
    simp only [turn, hp, frEmitTurn] at h
    split at h
    case isTrue hl =>
      split at h
      case isTrue hn => obtain rfl := Host.Outcome.next.inj h; exact .frameDone hp hl hn
      case isFalse hn =>
        split at h
        case h_1 w hpix => obtain rfl := Host.Outcome.next.inj h; exact .nextWord hp hl hn hpix
        case h_2 => cases h
    case isFalse hl =>
      obtain rfl := Host.Outcome.next.inj h
      exact .notReady hp (Bool.eq_false_of_not_eq_true hl)
  | halt =>
    simp only [turn, hp] at h
    obtain rfl := Host.Outcome.next.inj h
    exact .stops (.inl hp)
  | fault =>
    simp only [turn, hp] at h
    obtain rfl := Host.Outcome.next.inj h
    exact .stops (.inr hp)
  | idleWait | beepOn | beepGap | melOn | melGap | frStep | frHold | pauseW => rw [hp] at hw; cases hw

/-- A step is a reset or a move. -/
theorem step_moves {s t : State} (h : step s = .next t) :
    (s.pins.rst = true ∧ t = s.onReset) ∨ (s.pins.rst = false ∧ Move s t) := by
  cases hr : s.pins.rst with
  | true => exact .inl ⟨rfl, (Host.Outcome.next.inj ((step_of_reset hr).symm.trans h)).symm⟩
  | false =>
    refine .inr ⟨rfl, ?_⟩
    cases hw : isWait s.ph with
    | false => exact turn_moves hw ((step_of_run hr).symm.trans h)
    | true =>
      by_cases hd : s.dcnt.toNat ≤ 1
      · exact waitExit_moves hw hd ((step_of_isWait_of_le hw hr hd).symm.trans h)
      · obtain rfl := Host.Outcome.next.inj ((step_of_isWait_of_lt hw hr (by omega)).symm.trans h)
        exact .waits hw (by omega)

end Sys2Proof.Machine
end

