-- ==== Sys2Proof/Proofs/Invariants.lean ====
section
/-! The invariants R29 to R33 of the registers and ports (spec 10_state.md). Each phase drives at most one thing beyond the
rest: a row, a level, a pending word or the reboot request. So every move leaves its phase into the rest and enters the next
phase from there. -/

namespace Sys2Proof.Machine

/-! ### The invariant, phase by phase -/

/-- No row is driven, nothing sounds, no word is pending and no reboot is requested; and the registers that outlive a phase
are in their ranges (R29 to R33). It does not read `ph`. -/
def Rested (s : State) : Prop :=
  s.rowN = 0b1111 ∧ s.pwmLevel = 0 ∧ (s.tgLvl = 0 ∨ s.tgLvl = 2048) ∧ DividerInv s ∧ s.ledValid = false ∧
    s.rebootReq = false ∧ s.frPix.toNat ≤ 24 ∧ s.frRep.toNat ≤ 24 ∧ s.frIdx.toNat ≤ 4

/-- The phases that drive nothing. -/
def restsIn : Phase → Bool
  | .idleWait | .dispFetch | .beepGap | .melGap | .frStep | .frHold | .pauseW | .fault => true
  | .ksSettle | .ksCol | .ksRel | .beepOn | .melOn | .frEmit | .halt => false

theorem restsIn_iff (p : Phase) :
    restsIn p = true ↔ isScan p = false ∧ p ≠ .beepOn ∧ p ≠ .melOn ∧ p ≠ .frEmit ∧ p ≠ .halt := by
  cases p <;> decide

theorem stateInv_iff_of_rests {s : State} (hp : restsIn s.ph = true) :
    StateInv s ↔ Rested s ∧ KeyInv s ∧ (s.ph = .frStep → s.frKind = .letter ∧ s.cfg.renderMode = .replay) := by
  obtain ⟨hscan, hbeep, hmel, hemit, hhalt⟩ := (restsIn_iff s.ph).mp hp
  constructor
  · rintro ⟨hrow, ⟨_, hlvl, hsound⟩, hdivider, ⟨hword, hreboot⟩, ⟨hpix, hrep, hidx, hstep⟩, hkey⟩
    have hsilent : s.pwmLevel = 0 := by_contra fun hne => (hsound hne).elim hbeep hmel
    exact ⟨⟨by simpa [RowInv, hscan] using hrow, hsilent, hlvl, hdivider, by simpa [hemit] using hword,
      by simpa [hhalt] using hreboot, hpix, hrep, hidx⟩, hkey, hstep⟩
  · rintro ⟨⟨hrow, hsilent, hlvl, hdivider, hword, hreboot, hpix, hrep, hidx⟩, hkey, hstep⟩
    exact ⟨by simpa [RowInv, hscan] using hrow, ⟨.inl hsilent, hlvl, absurd hsilent⟩, hdivider,
      ⟨by simp [hword, hemit], by simp [hreboot, hhalt]⟩, ⟨hpix, hrep, hidx, hstep⟩, hkey⟩

theorem stateInv_iff_of_scan {s : State} (hp : isScan s.ph = true) :
    StateInv s ↔ s.rowN = ~~~(onehot4 s.ksR) ∧ Rested { s with rowN := 0b1111 } := by
  obtain ⟨hbeep, hmel, hemit, hhalt, hstep, hidle⟩ : s.ph ≠ .beepOn ∧ s.ph ≠ .melOn ∧ s.ph ≠ .frEmit ∧ s.ph ≠ .halt ∧
      s.ph ≠ .frStep ∧ controlState s.ph ≠ .dispatching := by
    revert hp
    cases s.ph <;> decide
  constructor
  · rintro ⟨hrow, ⟨_, hlvl, hsound⟩, hdivider, ⟨hword, hreboot⟩, ⟨hpix, hrep, hidx, _⟩, _⟩
    have hsilent : s.pwmLevel = 0 := by_contra fun hne => (hsound hne).elim hbeep hmel
    exact ⟨by simpa [RowInv, hp] using hrow, rfl, hsilent, hlvl, hdivider, by simpa [hemit] using hword,
      by simpa [hhalt] using hreboot, hpix, hrep, hidx⟩
  · rintro ⟨hrow, _, hsilent, hlvl, hdivider, hword, hreboot, hpix, hrep, hidx⟩
    exact ⟨by simpa [RowInv, hp] using hrow, ⟨.inl hsilent, hlvl, absurd hsilent⟩, hdivider,
      ⟨iff_of_false (by simp [show s.ledValid = false from hword]) hemit,
        iff_of_false (by simp [show s.rebootReq = false from hreboot]) hhalt⟩,
      ⟨hpix, hrep, hidx, fun h => absurd h hstep⟩, fun h => absurd h hidle⟩

theorem stateInv_iff_of_sound {s : State} (hp : s.ph = .beepOn ∨ s.ph = .melOn) :
    StateInv s ↔ (s.pwmLevel = 0 ∨ s.pwmLevel = 2048) ∧ Rested { s with pwmLevel := 0 } ∧ keyV s.key = true := by
  obtain ⟨hscan, hemit, hhalt, hstep, hdisp⟩ : isScan s.ph = false ∧ s.ph ≠ .frEmit ∧ s.ph ≠ .halt ∧ s.ph ≠ .frStep ∧
      controlState s.ph = .dispatching := by
    rcases hp with h | h <;> rw [h] <;> decide
  constructor
  · rintro ⟨hrow, ⟨hlevel, hlvl, _⟩, hdivider, ⟨hword, hreboot⟩, ⟨hpix, hrep, hidx, _⟩, hkey⟩
    exact ⟨hlevel, ⟨by simpa [RowInv, hscan] using hrow, rfl, hlvl, hdivider, by simpa [hemit] using hword,
      by simpa [hhalt] using hreboot, hpix, hrep, hidx⟩, hkey hdisp⟩
  · rintro ⟨hlevel, ⟨hrow, _, hlvl, hdivider, hword, hreboot, hpix, hrep, hidx⟩, hkey⟩
    exact ⟨by simpa [RowInv, hscan] using hrow, ⟨hlevel, hlvl, fun _ => hp⟩, hdivider,
      ⟨iff_of_false (by simp [show s.ledValid = false from hword]) hemit,
        iff_of_false (by simp [show s.rebootReq = false from hreboot]) hhalt⟩,
      ⟨hpix, hrep, hidx, fun h => absurd h hstep⟩, fun _ => hkey⟩

theorem stateInv_iff_of_frEmit {s : State} (hp : s.ph = .frEmit) :
    StateInv s ↔ s.ledValid = true ∧ Rested { s with ledValid := false } ∧ keyV s.key = true := by
  constructor
  · rintro ⟨hrow, ⟨_, hlvl, hsound⟩, hdivider, ⟨hword, hreboot⟩, ⟨hpix, hrep, hidx, _⟩, hkey⟩
    have hsilent : s.pwmLevel = 0 := by_contra fun hne => by simpa [hp] using hsound hne
    exact ⟨hword.mpr hp, ⟨by simpa [RowInv, hp, isScan] using hrow, hsilent, hlvl, hdivider, rfl,
      by simpa [hp] using hreboot, hpix, hrep, hidx⟩, hkey (by rw [hp]; rfl)⟩
  · rintro ⟨hword, ⟨hrow, hsilent, hlvl, hdivider, _, hreboot, hpix, hrep, hidx⟩, hkey⟩
    exact ⟨by simpa [RowInv, hp, isScan] using hrow, ⟨.inl hsilent, hlvl, absurd hsilent⟩, hdivider,
      ⟨iff_of_true hword hp, iff_of_false (by simp [show s.rebootReq = false from hreboot]) (by simp [hp])⟩,
      ⟨hpix, hrep, hidx, by simp [hp]⟩, fun _ => hkey⟩

theorem stateInv_iff_of_halt {s : State} (hp : s.ph = .halt) :
    StateInv s ↔ s.rebootReq = true ∧ Rested { s with rebootReq := false } := by
  constructor
  · rintro ⟨hrow, ⟨_, hlvl, hsound⟩, hdivider, ⟨hword, hreboot⟩, ⟨hpix, hrep, hidx, _⟩, _⟩
    have hsilent : s.pwmLevel = 0 := by_contra fun hne => by simpa [hp] using hsound hne
    exact ⟨hreboot.mpr hp, by simpa [RowInv, hp, isScan] using hrow, hsilent, hlvl, hdivider, by simpa [hp] using hword,
      rfl, hpix, hrep, hidx⟩
  · rintro ⟨hreboot, hrow, hsilent, hlvl, hdivider, hword, _, hpix, hrep, hidx⟩
    exact ⟨by simpa [RowInv, hp, isScan] using hrow, ⟨.inl hsilent, hlvl, absurd hsilent⟩, hdivider,
      ⟨iff_of_false (by simp [show s.ledValid = false from hword]) (by simp [hp]), iff_of_true hreboot hp⟩,
      ⟨hpix, hrep, hidx, by simp [hp]⟩, by simp [KeyInv, hp, controlState]⟩

/-! ### The always-running part and reset -/

theorem clocked_stateInv {s : State} (h : StateInv s) : StateInv s.clocked := by
  obtain ⟨hrow, haudio, ⟨h16, hfrac⟩, hport, hframe, hkey⟩ := h
  have hbelow : s.clocked.pwmFrac.toNat < s.pwmDiv16.toNat := pwmStep_keeps_frac_below s.syncStep hfrac h16
  refine ⟨by simpa [RowInv] using hrow, by simpa [AudioInv] using haudio, ?_, by simpa [PortInv] using hport,
    by simpa [FrameInv] using hframe, by simpa [KeyInv] using hkey⟩
  rw [DividerInv, clocked_pwmDiv16]
  exact ⟨h16, hbelow⟩

/-- The reset values meet the invariant, whatever the configuration (R230). -/
theorem resetWith_stateInv (p : Params) (a : ActProg) (q : List Pins) (n : Nat) : StateInv (State.resetWith p a q n) := by
  have hdivider : DividerInv (State.resetWith p a q n) := ⟨by simp [State.resetWith], by simp [State.resetWith]⟩
  refine (stateInv_iff_of_rests rfl).mpr ⟨⟨rfl, rfl, .inl rfl, hdivider, rfl, rfl, ?_⟩, nofun, nofun⟩
  simp [State.resetWith]

/-! ### Entering a phase from the rest -/

/-- A phase that drives nothing is entered as it is. FR_STEP asks for more. -/
theorem Rested.stateInv {s : State} (h : Rested s) (hp : restsIn s.ph = true) (hstep : s.ph ≠ .frStep) (hk : KeyInv s) :
    StateInv s :=
  (stateInv_iff_of_rests hp).mpr ⟨h, hk, fun hs => absurd hs hstep⟩

theorem Rested.loadWait {s : State} (h : Rested s) (ms : Nat) {q : Phase} (hq : restsIn q = true) (hstep : q ≠ .frStep)
    (hk : controlState q = .dispatching → keyV s.key = true) : StateInv (s.loadWait ms q) :=
  Rested.stateInv (s := s.loadWait ms q) h hq hstep hk

theorem Rested.nextCommand {s : State} (h : Rested s) (hk : keyV s.key = true) : StateInv s.nextCommand :=
  Rested.stateInv (s := s.nextCommand) h rfl nofun fun _ => hk

theorem Rested.raiseFault {s : State} (h : Rested s) (reason : FaultCode) : StateInv (s.raiseFault reason) :=
  Rested.stateInv (s := s.raiseFault reason) h rfl nofun nofun

theorem Rested.dispatchKey {s : State} (h : Rested { s with rowN := 0b1111 }) {k : KeyCode} (hk : keyV k = true) :
    StateInv (s.dispatchKey k) :=
  Rested.stateInv (s := s.dispatchKey k) h rfl nofun fun _ => hk

/-- A row is driven (R102). -/
theorem Rested.driveRow {s : State} (h : Rested { s with rowN := 0b1111 }) (r : BitVec 2) : StateInv (s.driveRow r) :=
  (stateInv_iff_of_scan rfl).mpr ⟨rfl, h⟩

/-- A tone sounds (R143): its level is one of the two, and its divider in range. -/
theorem Rested.toneOn {s : State} (h : Rested s) (hk : keyV s.key = true) (f : BitVec 16) (ms : Nat) {q : Phase}
    (hq : q = .beepOn ∨ q = .melOn) : StateInv ((s.toneOn f).loadWait ms q) := by
  obtain ⟨hrow, _, hlvl, _, hframe⟩ := h
  have hdiv : (s.toneOn f).pwmDiv16.toNat = div16 s.cfg f := div16_toNat s.cfg f
  have hbound := (div16_bounds s.cfg f).1
  have hfrac : (s.toneOn f).pwmFrac.toNat = 0 := rfl
  have hdivider : DividerInv (s.toneOn f) := ⟨by omega, by omega⟩
  exact (stateInv_iff_of_sound hq).mpr ⟨levelOn_cases s.cfg f, ⟨hrow, rfl, hlvl, hdivider, hframe⟩, hk⟩

/-- A note sounds (R151, R153). -/
theorem Rested.soundNote {s : State} (h : Rested s) (hk : keyV s.key = true) (i : BitVec 3) : StateInv (s.soundNote i) :=
  Rested.toneOn (s := { s with tgNote := i }) h hk (melodyRom s.cfg i).freq (melodyRom s.cfg i).ms.toNat (.inr rfl)

/-- A frame starts on an index that has an entry (R122, R123). -/
theorem Rested.startFrame {s : State} (h : Rested s) (hk : keyV s.key = true) (kind : FrameKind) {idx : BitVec 8}
    (hi : idx.toNat ≤ 4) (w : PixWord) : StateInv (s.startFrame kind (idx.setWidth 3) w) := by
  obtain ⟨hrow, hsilent, hlvl, hdivider, _, hreboot, _⟩ := h
  have hidx : (idx.setWidth 3).toNat ≤ 4 := by rw [BitVec.toNat_setWidth]; omega
  exact (stateInv_iff_of_frEmit rfl).mpr
    ⟨rfl, ⟨hrow, hsilent, hlvl, hdivider, rfl, hreboot, Nat.le_refl 24, Nat.zero_le 24, hidx⟩, hk⟩

/-- A command carried out from the rest, with a key in the key register, ends in a state that meets the invariant. -/
theorem CommandMove.stateInv {c t : State} {i : Instr} (hm : CommandMove c i t) (h : Rested c) (hk : keyV c.key = true) :
    StateInv t := by
  cases hm with
  | ends => exact h.loadWait _ rfl nofun nofun
  | beepsNone => exact h.nextCommand hk
  | beeps hn f d =>
    obtain ⟨hrow, hsilent, _, hrest⟩ := h
    exact Rested.toneOn (s := { c with tgRem := _, tgD := d, tgLvl := levelOn c.cfg f })
      ⟨hrow, hsilent, levelOn_cases c.cfg f, hrest⟩ hk f d.toNat (.inl rfl)
  | plays => exact h.soundNote hk 0
  | startsLetter hg => exact h.startFrame hk .letter hg _
  | startsFill hi => exact h.startFrame hk .fill hi _
  | noLetter | noColor | reserved => exact h.raiseFault _
  | pauses => exact h.loadWait _ rfl nofun fun _ => hk
  | reboots =>
    obtain ⟨hrow, hsilent, hlvl, hdivider, hword, _, hframe⟩ := h
    exact (stateInv_iff_of_halt rfl).mpr ⟨rfl, hrow, hsilent, hlvl, hdivider, hword, rfl, hframe⟩

/-! ### Leaving a phase for the rest

The always-running part of the leaving cycle included. -/

theorem StateInv.clocked_rested {s : State} {p : Phase} (h : StateInv s) (hp : s.ph = p) (hr : restsIn p = true) :
    Rested s.clocked :=
  ((stateInv_iff_of_rests (by rw [clocked_ph, hp, hr])).mp (clocked_stateInv h)).1

theorem StateInv.clocked_rested_of_scan {s : State} {p : Phase} (h : StateInv s) (hp : s.ph = p) (hr : isScan p = true) :
    s.clocked.rowN = ~~~(onehot4 s.clocked.ksR) ∧ Rested { s.clocked with rowN := 0b1111 } :=
  (stateInv_iff_of_scan (by rw [clocked_ph, hp, hr])).mp (clocked_stateInv h)

theorem StateInv.clocked_rested_toneOff {s : State} (h : StateInv s) (hp : s.ph = .beepOn ∨ s.ph = .melOn) :
    Rested s.clocked.toneOff :=
  ((stateInv_iff_of_sound (by rwa [clocked_ph])).mp (clocked_stateInv h)).2.1

theorem StateInv.clocked_rested_of_frEmit {s : State} (h : StateInv s) (hp : s.ph = .frEmit) :
    Rested { s.clocked with ledValid := false } :=
  ((stateInv_iff_of_frEmit (by rw [clocked_ph, hp])).mp (clocked_stateInv h)).2.1

theorem StateInv.clocked_keyV {s : State} {p : Phase} (h : StateInv s) (hp : s.ph = p)
    (hd : controlState p = .dispatching) : keyV s.clocked.key = true := by
  obtain ⟨_, _, _, _, _, hkey⟩ := h
  rw [clocked_key]
  exact hkey (hp ▸ hd)

/-! ### Every move -/

/-- The invariant reads no counter of a wait or a scan. -/
theorem StateInv.setCounters {s : State} (h : StateInv s) (d : BitVec 48) (n : BitVec 16) (k : BitVec 2) :
    StateInv { s with dcnt := d, scnt := n, ksC := k } := h

/-- Another word of the frame is offered (R124). -/
theorem StateInv.setPixel {s : State} (h : StateInv s) {i : BitVec 5} (hi : i.toNat ≤ 24) (w : PixWord) :
    StateInv { s with frPix := i, ledWord := w } := by
  obtain ⟨hrow, haudio, hdivider, hport, ⟨_, hframe⟩, hkey⟩ := h
  exact ⟨hrow, haudio, hdivider, hport, ⟨hi, hframe⟩, hkey⟩

/-- From the rest of a Dispatching phase the next command is fetched. -/
theorem StateInv.nextCommand {s : State} {p : Phase} (h : StateInv s) (hp : s.ph = p) (hr : restsIn p = true)
    (hd : controlState p = .dispatching) : StateInv s.clocked.nextCommand :=
  (h.clocked_rested hp hr).nextCommand (h.clocked_keyV hp hd)

/-- The end of a frame (R124): the step of a letter in REPLAY mode, or the hold. -/
theorem StateInv.frameDone {s : State} (h : StateInv s) (hp : s.ph = .frEmit) : StateInv s.clocked.frameDone := by
  have hrested := h.clocked_rested_of_frEmit hp
  have hk := h.clocked_keyV hp rfl
  unfold State.frameDone
  split
  case h_1 hkind hmode => exact (stateInv_iff_of_rests rfl).mpr ⟨hrested, fun _ => hk, fun _ => ⟨hkind, hmode⟩⟩
  case h_2 => exact hrested.loadWait _ rfl nofun fun _ => hk
  case h_3 => exact hrested.loadWait _ rfl nofun fun _ => hk

/-- Every release gives a code with V = 1 (R71). -/
theorem keyV_keyCodeOf (r k : BitVec 2) : keyV (keyCodeOf r k) = true := by
  revert r k
  decide

theorem Move.stateInv {s t : State} (hm : Move s t) (h : StateInv s) : StateInv t := by
  cases hm with
  | waits | settles | nextColumn => exact (clocked_stateInv h).setCounters _ _ _
  | held | notReady | stops => exact clocked_stateInv h
  | scanStarts hp =>
    obtain ⟨_, hrest⟩ := h.clocked_rested hp rfl
    exact Rested.driveRow (s := { s.clocked with key := 0 }) ⟨rfl, hrest⟩ 0
  | settled hp | pressed hp => exact (stateInv_iff_of_scan rfl).mpr (h.clocked_rested_of_scan hp rfl)
  | nextRow hp => exact (h.clocked_rested_of_scan hp rfl).2.driveRow _
  | noKey hp => exact (h.clocked_rested_of_scan hp rfl).2.loadWait _ rfl nofun nofun
  | released hp => exact (h.clocked_rested_of_scan hp rfl).2.dispatchKey (keyV_keyCodeOf s.ksR s.ksC)
  | overruns hp => exact (h.clocked_rested hp rfl).raiseFault _
  | fetches hp _ hm => exact hm.stateInv (h.clocked_rested hp rfl) (h.clocked_keyV hp rfl)
  | beepEnds hp => exact (h.clocked_rested_toneOff (.inl hp)).loadWait _ rfl nofun fun _ => h.clocked_keyV hp rfl
  | noteEnds hp => exact (h.clocked_rested_toneOff (.inr hp)).loadWait _ rfl nofun fun _ => h.clocked_keyV hp rfl
  | beepsAgain hp =>
    obtain ⟨hrow, _, hlvl, hrest⟩ := h.clocked_rested hp rfl
    exact (stateInv_iff_of_sound (.inl rfl)).mpr ⟨hlvl, ⟨hrow, rfl, hlvl, hrest⟩, h.clocked_keyV hp rfl⟩
  | nextNote hp => exact (h.clocked_rested hp rfl).soundNote (h.clocked_keyV hp rfl) _
  | commandDone hp => rcases hp with ⟨hp, _⟩ | ⟨hp, _⟩ | hp | hp <;> exact h.nextCommand hp rfl rfl
  | nextWord hp _ hn =>
    have hc := clocked_stateInv h
    obtain ⟨_, _, _, _, ⟨hpix, _⟩, _⟩ := h
    exact hc.setPixel (by bv_omega) _
  | frameDone hp => exact h.frameDone hp
  | replays hp _ hn =>
    obtain ⟨hrow, hsilent, hlvl, hdivider, hoff, hreboot, _, hrep, hidx⟩ := h.clocked_rested hp rfl
    have hlt : s.clocked.frRep.toNat + 1 ≤ 24 := by
      rw [clocked_frRep] at hrep ⊢
      bv_omega
    have hrep' : (s.clocked.fit 5 (s.clocked.frRep.toNat + 1)).toNat ≤ 24 := by rwa [fit_toNat _ (by omega)]
    exact (stateInv_iff_of_frEmit rfl).mpr
      ⟨rfl, ⟨hrow, hsilent, hlvl, hdivider, rfl, hreboot, Nat.le_refl 24, hrep', hidx⟩, h.clocked_keyV hp rfl⟩
  | replayed hp => exact (h.clocked_rested hp rfl).loadWait _ rfl nofun fun _ => h.clocked_keyV hp rfl

/-- Settles O36: a reset gives the reset values, and any other step is a move. -/
theorem stepKeepsInvariant : Obligations.StepKeepsInvariant := by
  intro s t h hstep
  obtain ⟨_, rfl⟩ | ⟨_, hm⟩ := step_moves hstep
  · exact resetWith_stateInv _ _ _ _
  · exact hm.stateInv h

end Sys2Proof.Machine
end

