-- ==== Sys2Proof/Proofs/Programs.lean ====
section
/-! With a well-formed action program ROM (spec 30_encoding.md R81) the block stays inside its programs (10_state.md R33): a
command that does not end its program has a successor, and the last one leaves Dispatching. And the reset state meets the
invariants (70_reset_and_hazards.md R230). -/

namespace Sys2Proof.Machine

/-! ### Well-formed programs -/

theorem programOf_wf {a : ActProg} (h : wfActProg a = true) (k : BitVec 4) : wfProg (programOf a k) = true :=
  List.all_eq_true.mp h _ (by simp [programOf, Vector.get])

theorem wfProg_iff (l : List Cmd) :
    wfProg l = true ↔ (1 ≤ l.length ∧ l.length ≤ 8) ∧ wfTerm l = true ∧ ∀ w ∈ l, wfWord w = true := by
  simp [wfProg, wfLen, and_assoc]

/-- Past a command that does not end its program there is another (`wf_term`). -/
theorem wfTerm_getElem?_succ {l : List Cmd} {i : Nat} {w : Cmd} (h : wfTerm l = true) (hi : l[i]? = some w)
    (hw : isTerm w = false) : ∃ v, l[i + 1]? = some v := by
  fun_induction wfTerm l generalizing i with
  | case1 => cases h
  | case2 u =>
    cases i with
    | zero =>
      obtain rfl : u = w := by simpa using hi
      rw [hw] at h
      cases h
    | succ i => simp at hi
  | case3 u v l ih =>
    cases i with
    | zero => exact ⟨v, rfl⟩
    | succ i =>
      rw [Bool.and_eq_true] at h
      exact ih h.2 hi

/-- `END` and `REBOOT` are the instructions that end a program. -/
theorem isTerm_iff (w : Cmd) : isTerm w = true ↔ decodeCmd w = .endProg ∨ decodeCmd w = .reboot := by
  have hop : cmdOp w = 0 ∨ cmdOp w = 6 ↔ (cmdOp w).toNat = 0 ∨ (cmdOp w).toNat = 6 := by bv_omega
  rw [isTerm, Bool.or_eq_true, beq_iff_eq, beq_iff_eq, hop]
  unfold decodeCmd
  split <;> simp_all

/-- A word that passes the checks of R81 decodes to a well-formed instruction. -/
theorem decodeCmd_wf {w : Cmd} (h : wfWord w = true) : (decodeCmd w).wf = true := by
  obtain ⟨⟨hop, _⟩, hidx⟩ : (cmdOp w ≠ 7 ∧ wfRsv w = true) ∧ (cmdOp w ≠ 3 ∧ cmdOp w ≠ 4 ∨ (cmdA w).toNat ≤ 4) := by
    simpa [wfWord, wfOp, wfIdx] using h
  unfold decodeCmd
  split
  case h_4 hletter =>
    have hle : (cmdA w).toNat ≤ 4 := by bv_omega
    simp [Instr.wf, Instr.check, hle]
  case h_5 hfill =>
    have hle : (cmdA w).toNat ≤ 4 := by bv_omega
    simp [Instr.wf, Instr.check, hle]
  case h_8 =>
    simp only [imp_false] at *
    bv_omega
  all_goals rfl

/-! ### Commands inside a program -/

/-- The command that `apc` names is one that the dispatcher can carry out. -/
theorem command_wf {s : State} {w : Cmd} (h : wfActProg s.rom = true) (hc : s.command = some w) :
    (decodeCmd w).wf = true := by
  obtain ⟨_, _, hall⟩ := (wfProg_iff _).mp (programOf_wf h (keyIndex s.key))
  exact decodeCmd_wf (hall w (List.mem_of_getElem? hc))

/-- A command's index is at most 7, and within its program. -/
theorem command_index_lt {s : State} {w : Cmd} (h : wfActProg s.rom = true) (hc : s.command = some w) :
    s.apc.toNat ≤ 7 ∧ s.apc.toNat < (programOf s.rom (keyIndex s.key)).length := by
  obtain ⟨⟨_, hlen⟩, _⟩ := (wfProg_iff _).mp (programOf_wf h (keyIndex s.key))
  obtain ⟨hlt, _⟩ := List.getElem?_eq_some_iff.mp hc
  exact ⟨by omega, hlt⟩

/-- The command after one that does not end its program exists: `apc + 1` fits the register, and names it. -/
theorem nextCommand_command {s : State} {w : Cmd} (h : wfActProg s.rom = true) (hc : s.command = some w)
    (hw : isTerm w = false) : ∃ v, s.nextCommand.command = some v := by
  obtain ⟨hle, _⟩ := command_index_lt h hc
  obtain ⟨_, hterm, _⟩ := (wfProg_iff _).mp (programOf_wf h (keyIndex s.key))
  rw [State.command, nextCommand_apc, fit_toNat s (by omega)]
  exact wfTerm_getElem?_succ hterm hc hw

/-- The first command of every program exists. -/
theorem dispatchKey_command {s : State} (h : wfActProg s.rom = true) (k : KeyCode) :
    ∃ w, (s.dispatchKey k).command = some w := by
  obtain ⟨⟨hlen, _⟩, _⟩ := (wfProg_iff _).mp (programOf_wf h (keyIndex k))
  exact ⟨_, List.getElem?_eq_getElem hlen⟩

/-! ### The invariant, phase by phase -/

/-- A command is being carried out that does not end its program. It does not read `ph`. -/
def Running (s : State) : Prop := wfActProg s.rom = true ∧ ∃ w, s.command = some w ∧ isTerm w = false

theorem progInv_iff_of_busy {s : State} (hp : isBusy s.ph = true) : ProgInv s ↔ Running s := by
  have hne : s.ph ≠ .fault ∧ s.ph ≠ .dispFetch := by
    revert hp
    cases s.ph <;> decide
  simp [ProgInv, Running, hp, hne]

theorem progInv_iff_of_dispFetch {s : State} (hp : s.ph = .dispFetch) :
    ProgInv s ↔ wfActProg s.rom = true ∧ ∃ w, s.command = some w := by
  simp [ProgInv, hp, isBusy]

/-- In Idle and in HALT nothing but the ROM counts. -/
theorem progInv_iff_of_idle {s : State} (hp : controlState s.ph = .idle ∨ s.ph = .halt) :
    ProgInv s ↔ wfActProg s.rom = true := by
  have hne : s.ph ≠ .dispFetch ∧ s.ph ≠ .fault ∧ isBusy s.ph = false := by
    revert hp
    cases s.ph <;> decide
  simp [ProgInv, hne]

/-! ### Every move -/

/-- A phase of a command is entered with the program's registers as they were. -/
theorem Running.progInv {s t : State} (h : Running s) (hrom : t.rom = s.rom) (hkey : t.key = s.key) (hapc : t.apc = s.apc)
    (hb : isBusy t.ph = true) : ProgInv t := by
  rw [progInv_iff_of_busy hb, Running, State.command, hrom, hkey, hapc]
  exact h

theorem Running.nextCommand {s : State} (h : Running s) : ProgInv s.nextCommand := by
  obtain ⟨hrom, w, hc, hw⟩ := h
  exact (progInv_iff_of_dispFetch rfl).mpr ⟨hrom, nextCommand_command hrom hc hw⟩

/-- A fetched command keeps the program: well-formed, it raises no fault, and one that leaves the program ends it. -/
theorem CommandMove.progInv {c t : State} {w : Cmd} (hm : CommandMove c (decodeCmd w) t) (hrom : wfActProg c.rom = true)
    (hc : c.command = some w) : ProgInv t := by
  have hwf := command_wf hrom hc
  have hrun : ¬ (decodeCmd w = .endProg ∨ decodeCmd w = .reboot) → Running c := fun hne =>
    ⟨hrom, w, hc, Bool.eq_false_of_not_eq_true fun ht => hne ((isTerm_iff w).mp ht)⟩
  generalize decodeCmd w = i at *
  cases hm with
  | ends => exact (progInv_iff_of_idle (.inl rfl)).mpr hrom
  | reboots => exact (progInv_iff_of_idle (.inr rfl)).mpr hrom
  | beepsNone => exact (hrun nofun).nextCommand
  | beeps | plays | startsLetter | startsFill | pauses => apply (hrun nofun).progInv <;> simp [isBusy]
  | noLetter hg => simp [Instr.wf, Instr.check, Nat.not_le.mpr hg] at hwf
  | noColor hk => simp [Instr.wf, Instr.check, Nat.not_le.mpr hk] at hwf
  | reserved => cases hwf

theorem clocked_command (s : State) : s.clocked.command = s.command := by
  simp only [State.command, clocked_rom, clocked_key, clocked_apc]

theorem clocked_progInv {s : State} (h : ProgInv s) : ProgInv s.clocked := by
  simpa only [ProgInv, clocked_rom, clocked_ph, clocked_command] using h

theorem ProgInv.clocked_rom_wf {s : State} (h : ProgInv s) : wfActProg s.clocked.rom = true := by
  obtain ⟨hrom, _⟩ := clocked_progInv h
  exact hrom

theorem ProgInv.clocked_running {s : State} {p : Phase} (h : ProgInv s) (hp : s.ph = p) (hb : isBusy p = true) :
    Running s.clocked :=
  (progInv_iff_of_busy (by rw [clocked_ph, hp, hb])).mp (clocked_progInv h)

/-- The invariant reads no counter of a wait or a scan. -/
theorem ProgInv.setCounters {s : State} (h : ProgInv s) (d : BitVec 48) (n : BitVec 16) (k : BitVec 2) :
    ProgInv { s with dcnt := d, scnt := n, ksC := k } := h

/-- Nor does it read the word on the LED port. -/
theorem ProgInv.setPixel {s : State} (h : ProgInv s) (i : BitVec 5) (w : PixWord) :
    ProgInv { s with frPix := i, ledWord := w } := h

/-- The hold or the step after a frame is of the same command (R124). -/
theorem Running.frameDone {s : State} (h : Running s) : ProgInv s.frameDone := by
  unfold State.frameDone
  split <;> apply h.progInv <;> simp [isBusy]

theorem Move.progInv {s t : State} (hm : Move s t) (h : ProgInv s) : ProgInv t := by
  have hrom := h.clocked_rom_wf
  cases hm with
  | waits | settles | nextColumn => exact (clocked_progInv h).setCounters _ _ _
  | held | notReady | stops => exact clocked_progInv h
  | scanStarts | settled | pressed | nextRow | noKey => exact (progInv_iff_of_idle (.inl rfl)).mpr hrom
  | released => exact (progInv_iff_of_dispFetch rfl).mpr ⟨hrom, dispatchKey_command hrom _⟩
  | overruns hp hnone =>
    obtain ⟨_, w, hc⟩ := (progInv_iff_of_dispFetch hp).mp h
    rw [hnone] at hc
    cases hc
  | fetches _ hc hm => exact hm.progInv hrom ((clocked_command s).trans hc)
  | commandDone hp =>
    rcases hp with ⟨hp, _⟩ | ⟨hp, _⟩ | hp | hp <;> exact (h.clocked_running hp rfl).nextCommand
  | nextWord => exact (clocked_progInv h).setPixel _ _
  | frameDone hp => exact (h.clocked_running hp rfl).frameDone
  | beepEnds hp | beepsAgain hp | noteEnds hp | nextNote hp | replays hp | replayed hp =>
    apply (h.clocked_running hp rfl).progInv <;> simp [isBusy]

/-- Settles O37: a reset keeps the ROM, and any other step is a move. -/
theorem stepKeepsProgramInvariant : Obligations.StepKeepsProgramInvariant := by
  intro s t h hstep
  obtain ⟨_, rfl⟩ | ⟨_, hm⟩ := step_moves hstep
  · obtain ⟨hrom, _⟩ := h
    exact (progInv_iff_of_idle (s := s.onReset) (.inl rfl)).mpr hrom
  · exact hm.progInv h

/-- Settles O38: in a Dispatching phase the invariant gives the command that `apc` names. -/
theorem dispatchStaysInProgram : Obligations.DispatchStaysInProgram := by
  intro s h hd
  have hphase : s.ph = .dispFetch ∨ isBusy s.ph = true := by
    revert hd
    cases s.ph <;> decide
  rcases hphase with hp | hp
  · obtain ⟨hrom, w, hc⟩ := (progInv_iff_of_dispFetch hp).mp h
    exact command_index_lt hrom hc
  · obtain ⟨hrom, w, hc, _⟩ := (progInv_iff_of_busy hp).mp h
    exact command_index_lt hrom hc

/-! ### Reset -/

@[simp] theorem cmdOp_mkCmd (op : BitVec 3) (rsv : BitVec 5) (a : BitVec 8) (f d : BitVec 16) :
    cmdOp (mkCmd op rsv a f d) = op := by
  show (op ++ rsv ++ a ++ f ++ d : BitVec (3 + 5 + 8 + 16 + 16)).extractLsb' 45 3 = op
  iterate 3 rw [BitVec.extractLsb'_append_eq_of_le (by decide)]
  exact BitVec.extractLsb'_append_eq_left

@[simp] theorem cmdRsv_mkCmd (op : BitVec 3) (rsv : BitVec 5) (a : BitVec 8) (f d : BitVec 16) :
    cmdRsv (mkCmd op rsv a f d) = rsv := by
  show (op ++ rsv ++ a ++ f ++ d : BitVec (3 + 5 + 8 + 16 + 16)).extractLsb' 40 5 = rsv
  iterate 3 rw [BitVec.extractLsb'_append_eq_of_le (by decide)]
  exact BitVec.extractLsb'_append_eq_right

/-- A `BEEP` word passes the checks of one word with any operands: no field of it must be 0 (R81). -/
theorem wfWord_mkCmd_beep (a : BitVec 8) (f d : BitVec 16) : wfWord (mkCmd 1 0 a f d) = true := by
  simp [wfWord, wfOp, wfRsv, wfIdx]

/-- Key '1''s program is well-formed for every beep that it starts with. -/
theorem introProg_wf (p : Params) : wfProg (introProg p) = true := by
  have hbeep := wfWord_mkCmd_beep p.introBeepTimes p.buzzerFreqHz p.introBeepMs
  have hopen : isTerm (mkCmd 1 0 p.introBeepTimes p.buzzerFreqHz p.introBeepMs) = false := by simp [isTerm]
  refine (wfProg_iff _).mpr ⟨by simp [introProg], ?_, ?_⟩
  · rw [introProg, wfTerm, hopen]
    decide
  · rw [introProg, List.forall_mem_cons]
    exact ⟨hbeep, List.all_eq_true.mp (by decide)⟩

theorem rebootProg_wf (p : Params) : wfProg (rebootProg p) = true := by
  rw [rebootProg, params_rebootPauseMs]
  decide

/-- The reference ROM is well-formed for every configuration (R176). -/
theorem actProgRef_wf (p : Params) : wfActProg (actProgRef p) = true := by
  simp only [wfActProg, actProgRef, Vector.toList_mk, List.all_cons, List.all_nil, introProg_wf, rebootProg_wf]
  decide

/-- Settles O35: the reset values drive nothing, and the reference ROM is well-formed. -/
theorem resetMeetsInvariants : Obligations.ResetMeetsInvariants :=
  ⟨resetWith_stateInv _ _ _ _, (progInv_iff_of_idle (.inl rfl)).mpr (actProgRef_wf Config.build)⟩

/-- Settles O34: every field of the reset state is the table's. -/
theorem resetStateIsTheTable : Obligations.ResetStateIsTheTable :=
  ⟨rfl, rfl, rfl, rfl, rfl, rfl, rfl, rfl, rfl, rfl, rfl, rfl, rfl, rfl, rfl, rfl, rfl, rfl, rfl, rfl, rfl, rfl, rfl, rfl⟩

end Sys2Proof.Machine
end

