-- ==== Sys2Proof/Proofs/Memory.lean ====
section
/-! The ROMs and the LED channel (spec 20_memory.md). No step writes the configuration. A pixel word has its channels in
their bytes. A frame offers its words one by one, index 24 first, each until the channel accepts it. -/

namespace Sys2Proof.Machine

/-! ### Pixel words -/

theorem packRgb_grbHi {p : Params} (h : p.pack = .grbHi) (c : Rgb) : packRgb p c = c.g ++ c.r ++ c.b ++ 0#8 := by
  rw [packRgb, h]

theorem packRgb_gLo {p : Params} (h : p.pack = .gLo) (c : Rgb) :
    packRgb p c = Config.gLoHigh p c ++ c.r ++ c.g ++ Config.gLoLow p c := by
  rw [packRgb, h]

/-- The bytes of a word that is put together from four of them. -/
theorem extractLsb'_append_bytes (a b c d : BitVec 8) :
    (a ++ b ++ c ++ d).extractLsb' 24 8 = a ∧ (a ++ b ++ c ++ d).extractLsb' 16 8 = b ∧
      (a ++ b ++ c ++ d).extractLsb' 8 8 = c ∧ (a ++ b ++ c ++ d).extractLsb' 0 8 = d := by
  refine ⟨?_, ?_, ?_, BitVec.extractLsb'_append_eq_right⟩
  · iterate 2 rw [BitVec.extractLsb'_append_eq_of_le (by decide)]
    exact BitVec.extractLsb'_append_eq_left
  · iterate 2 rw [BitVec.extractLsb'_append_eq_of_le (by decide)]
    exact BitVec.extractLsb'_append_eq_right
  · rw [BitVec.extractLsb'_append_eq_of_le (by decide)]
    exact BitVec.extractLsb'_append_eq_right

/-- Settles O9: each layout is four bytes in a row. -/
theorem packPlacesChannels : Obligations.PackPlacesChannels := by
  refine ⟨fun p c hp => ?_, fun p c hp => ?_⟩
  · rw [packRgb_grbHi hp]
    exact extractLsb'_append_bytes c.g c.r c.b 0
  · rw [packRgb_gLo hp]
    obtain ⟨_, hred, hgreen, _⟩ := extractLsb'_append_bytes (Config.gLoHigh p c) c.r c.g (Config.gLoLow p c)
    exact ⟨hred, hgreen⟩

/-! ### The configuration -/

/-- The two states are of the same build: parameters and action program ROM (R34). -/
def SameBuild (s t : State) : Prop := t.cfg = s.cfg ∧ t.rom = s.rom

theorem clocked_sameBuild (s : State) : SameBuild s s.clocked := ⟨clocked_cfg s, clocked_rom s⟩

theorem frameDone_sameBuild (s : State) : SameBuild s s.frameDone := by
  unfold State.frameDone
  split <;> exact ⟨rfl, rfl⟩

theorem SameBuild.trans {s t u : State} (h : SameBuild s t) (h' : SameBuild t u) : SameBuild s u := by
  obtain ⟨hcfg, hrom⟩ := h
  obtain ⟨hcfg', hrom'⟩ := h'
  exact ⟨hcfg'.trans hcfg, hrom'.trans hrom⟩

theorem CommandMove.sameBuild {c t : State} {i : Instr} (hm : CommandMove c i t) : SameBuild c t := by
  cases hm with
  | ends | beepsNone | beeps | plays | startsLetter | startsFill | noLetter | noColor | pauses | reboots | reserved =>
    exact ⟨rfl, rfl⟩

/-- What a move writes on top of the always-running part is registers only. -/
theorem Move.sameBuild {s t : State} (hm : Move s t) : SameBuild s t := by
  have hc := clocked_sameBuild s
  cases hm with
  | fetches _ _ hm => exact hc.trans hm.sameBuild
  | frameDone => exact hc.trans (frameDone_sameBuild s.clocked)
  | waits | scanStarts | settles | settled | pressed | nextColumn | nextRow | noKey | held | released | overruns | beepEnds
  | beepsAgain | noteEnds | nextNote | commandDone | notReady | nextWord | replays | replayed | stops => exact hc

/-- Settles O40: a reset takes the configuration over, and any other step is a move. -/
theorem romsNeverChange : Obligations.RomsNeverChange := by
  intro s t hstep
  obtain ⟨_, rfl⟩ | ⟨_, hm⟩ := step_moves hstep
  · exact ⟨rfl, rfl⟩
  · exact hm.sameBuild

/-! ### The three cycles of FR_EMIT (R124) -/

theorem step_frEmit_notReady {s : State} (hp : s.ph = .frEmit) (hr : s.pins.rst = false) (hl : s.pins.ledReady = false) :
    step s = .next s.clocked := by
  rw [step_of_run hr]
  simp only [turn, hp, frEmitTurn, hl, Bool.false_eq_true, if_false, runTurn]

theorem step_frEmit_nextWord {s : State} (hp : s.ph = .frEmit) (hr : s.pins.rst = false) (hl : s.pins.ledReady = true)
    (hn : s.frPix ≠ 0) {w : PixWord} (hw : pixWord s.cfg s.frKind s.frIdx.toNat (s.frPix.toNat - 1) = some w) :
    step s = .next { s.clocked with frPix := s.frPix - 1, ledWord := w } := by
  rw [step_of_run hr]
  simp only [turn, hp, frEmitTurn, hl, if_true, if_neg hn, hw, runTurn]

theorem step_frEmit_frameDone {s : State} (hp : s.ph = .frEmit) (hr : s.pins.rst = false) (hl : s.pins.ledReady = true)
    (hn : s.frPix = 0) : step s = .next s.clocked.frameDone := by
  rw [step_of_run hr]
  simp only [turn, hp, frEmitTurn, hl, hn, if_true, runTurn]

/-- Settles O44: a word is pending only in FR_EMIT, whose cycle with the channel not ready is the always-running part. -/
theorem pendingWordIsStable : Obligations.PendingWordIsStable := by
  intro s hinv hv hr hl
  obtain ⟨_, _, _, ⟨hpending, _⟩, _⟩ := hinv
  have hp := hpending.mp hv
  exact ⟨s.clocked, step_frEmit_notReady hp hr hl, by simpa using hv, clocked_ledWord s, clocked_frPix s, by simpa using hp⟩

/-! ### A frame, word by word -/

/-- The word of frame index `i` is offered, of the kind and index in the frame registers. -/
structure OffersPixel (s : State) (i : Nat) : Prop where
  ph : s.ph = .frEmit
  valid : s.ledValid = true
  pix : s.frPix.toNat = i
  idx_le : s.frIdx.toNat ≤ 4
  word : pixWord s.cfg s.frKind s.frIdx.toNat i = some s.ledWord

/-- `t` is `s` after `n` cycles of a frame, but for the word offered, the synchroniser, the PWM counter and the log pulse. -/
def EmitFrame (n : Nat) (s t : State) : Prop :=
  t = { s with
    frPix := t.frPix, ledWord := t.ledWord, sync1 := t.sync1, sync2 := t.sync2, pwmCnt := t.pwmCnt, pwmFrac := t.pwmFrac,
    logValid := t.logValid, inputs := s.inputs.drop n, cycle := s.cycle + n }

theorem EmitFrame.refl (s : State) : EmitFrame 0 s s := rfl

/-- An accepted word, in front of a part of a frame, makes it one cycle longer. -/
theorem EmitFrame.succ {n : Nat} {s t u : State} (h : EmitFrame 1 s t) (h' : EmitFrame n t u) : EmitFrame (n + 1) s u := by
  refine h'.trans ?_
  rw [h]
  simp [Nat.add_assoc, Nat.add_comm 1 n]

theorem EmitFrame.pinsAt {n : Nat} {s t : State} (h : EmitFrame n s t) (j : Nat) : t.pinsAt j = s.pinsAt (n + j) :=
  pinsAt_of_drop (congrArg State.inputs h :) (congrArg State.cycle h :) j

theorem EmitFrame.noReset {n m : Nat} {s t : State} (h : EmitFrame n s t) (hr : NoReset (n + m) s) : NoReset m t :=
  fun j hj => by
    rw [h.pinsAt]
    exact hr (n + j) (by omega)

theorem EmitFrame.ledReady {n m : Nat} {s t : State} (h : EmitFrame n s t) (hl : LedReady (n + m) s) : LedReady m t :=
  fun j hj => by
    rw [h.pinsAt]
    exact hl (n + j) (by omega)

/-- The frame is of the same build, kind and index, so its words stay the same. -/
theorem EmitFrame.pixWord_eq {n : Nat} {s t : State} (h : EmitFrame n s t) (i : Nat) :
    pixWord t.cfg t.frKind t.frIdx.toNat i = pixWord s.cfg s.frKind s.frIdx.toNat i := by
  rw [h]

/-- The offered word is the one that the channel accepts when it is ready (R60). -/
theorem OffersPixel.ledAccepted {s : State} {i : Nat} (h : OffersPixel s i) (hl : s.pins.ledReady = true) :
    s.ledAccepted = pixWord s.cfg s.frKind s.frIdx.toNat i := by
  rw [h.word]
  simp [State.ledAccepted, h.valid, hl]

/-- After an accepted word that is not the last, the word of the next index down is offered. -/
theorem OffersPixel.step_next {s : State} {i : Nat} (h : OffersPixel s (i + 1)) (hr : s.pins.rst = false)
    (hl : s.pins.ledReady = true) : ∃ t, step s = .next t ∧ OffersPixel t i ∧ EmitFrame 1 s t := by
  have hpix := h.pix
  have hn : s.frPix ≠ 0 := by bv_omega
  have hsub : (s.frPix - 1).toNat = i := by bv_omega
  have hi : i ≤ 24 := by
    have hsome := pixWord_isSome s.cfg s.frKind s.frIdx.toNat (i + 1)
    simp [h.word] at hsome
    omega
  have hsome : (pixWord s.cfg s.frKind s.frIdx.toNat i).isSome = true := by simp [pixWord_isSome, h.idx_le, hi]
  obtain ⟨w, hw⟩ := Option.isSome_iff_exists.mp hsome
  refine ⟨_, step_frEmit_nextWord h.ph hr hl hn (by rwa [hpix]), ⟨?_, ?_, hsub, ?_, ?_⟩, ?_⟩
  · simpa using h.ph
  · simpa using h.valid
  · simpa using h.idx_le
  · simpa using hw
  · simp [EmitFrame]

/-- With the channel ready, the words accepted from the one of index `i` on are those of `i` down to 0, one a cycle. -/
theorem OffersPixel.ledTrace {s : State} {i : Nat} (h : OffersPixel s i) (hr : NoReset (i + 1) s) (hl : LedReady (i + 1) s) :
    cycleTrace State.ledAccepted (i + 1) s =
      (List.range (i + 1)).map (fun j => pixWord s.cfg s.frKind s.frIdx.toNat (i - j)) := by
  induction i generalizing s with
  | zero =>
    rw [cycleTrace_succ _ 0 (step_frEmit_frameDone h.ph (hr 0 Nat.one_pos) (hl 0 Nat.one_pos) (BitVec.eq_of_toNat_eq h.pix)),
      h.ledAccepted (hl 0 Nat.one_pos)]
    rfl
  | succ i ih =>
    obtain ⟨t, hstep, ht, hframe⟩ := h.step_next (hr 0 (by omega)) (hl 0 (by omega))
    rw [Nat.add_comm (i + 1)] at hr hl
    rw [cycleTrace_succ _ (i + 1) hstep, h.ledAccepted (hl 0 (by omega)), ih ht (hframe.noReset hr) (hframe.ledReady hl),
      List.range_succ_eq_map (n := i + 1), List.map_cons, List.map_map]
    simp [hframe.pixWord_eq, Function.comp_def]

/-- With the channel ready, the word of index 0 is offered `i` cycles after the one of index `i`. -/
theorem OffersPixel.run_to_last {s : State} {i : Nat} (h : OffersPixel s i) (hr : NoReset i s) (hl : LedReady i s) :
    ∃ t, Sys2Proof.core.run i s = .next t ∧ OffersPixel t 0 ∧ EmitFrame i s t := by
  induction i generalizing s with
  | zero => exact ⟨s, rfl, h, .refl s⟩
  | succ i ih =>
    obtain ⟨t, hstep, ht, hframe⟩ := h.step_next (hr 0 i.succ_pos) (hl 0 i.succ_pos)
    rw [Nat.add_comm i] at hr hl
    obtain ⟨u, hrun, hu, hrest⟩ := ih ht (hframe.noReset hr) (hframe.ledReady hl)
    exact ⟨u, (run_succ i hstep).trans hrun, hu, hframe.succ hrest⟩

/-- With the channel ready, a frame whose word of index `i` is offered is done after `i + 1` cycles, and differs until then
only as the frame allows. -/
theorem OffersPixel.run_frameDone {s : State} {i : Nat} (h : OffersPixel s i) (hr : NoReset (i + 1) s)
    (hl : LedReady (i + 1) s) :
    ∃ u, EmitFrame i s u ∧ Sys2Proof.core.run (i + 1) s = .next u.clocked.frameDone := by
  obtain ⟨u, hrun, hu, hframe⟩ :=
    h.run_to_last (fun j hj => hr j (by omega)) (fun j hj => hl j (by omega))
  have hlast := step_frEmit_frameDone hu.ph (hframe.noReset hr 0 Nat.one_pos) (hframe.ledReady hl 0 Nat.one_pos)
    (BitVec.eq_of_toNat_eq hu.pix)
  exact ⟨u, hframe, (run_succ_of_run hrun).trans hlast⟩

/-- After the last word none is offered, in the step or the hold that follows (R124). -/
theorem frameDone_rests (s : State) : s.frameDone.ledValid = false ∧ (s.frameDone.ph = .frHold ∨ s.frameDone.ph = .frStep) := by
  unfold State.frameDone
  split <;> simp

/-- In a trace with a word in every cycle, the accepted words are the whole trace. -/
theorem map_some_ledWords {n : Nat} {s : State} (h : ∀ x ∈ cycleTrace State.ledAccepted n s, x.isSome = true) :
    (ledWords n s).map some = cycleTrace State.ledAccepted n s := by
  rw [ledWords, List.reduceOption, List.map_filterMap_some_eq_filter_map_isSome, List.map_id, List.filter_eq_self.mpr h]

/-- Settles O51: the frame from index 24 on, whose every index has a word. -/
theorem frameWordsInReverseOrder : Obligations.FrameWordsInReverseOrder := by
  intro s hp hv hpix hidx hw hr hl
  have h : OffersPixel s 24 := ⟨hp, hv, by rw [hpix]; rfl, hidx, hw⟩
  constructor
  · have htrace := h.ledTrace hr hl
    have hsome : ∀ x ∈ cycleTrace State.ledAccepted 25 s, x.isSome = true := by
      rw [htrace, List.forall_mem_map]
      intro j _
      simp [pixWord_isSome, hidx]
    rw [map_some_ledWords hsome, htrace]
  · obtain ⟨u, _, hrun⟩ := h.run_frameDone hr hl
    exact ⟨_, hrun, frameDone_rests u.clocked⟩

end Sys2Proof.Machine
end

