-- ==== Sys2Proof/Proofs/Encoding.lean ====
section
/-! The encodings (spec 30_encoding.md). A CMD word is its five fields, and the decoder, the encoder and the word checks of
R81 are read field by field: so decoding undoes encoding, and encoding undoes decoding where the word passes the checks. -/

namespace Sys2Proof.Machine

/-! ### A word and its fields (R73) -/

@[simp] theorem cmdA_mkCmd (op : BitVec 3) (rsv : BitVec 5) (a : BitVec 8) (f d : BitVec 16) :
    cmdA (mkCmd op rsv a f d) = a := by
  show (op ++ rsv ++ a ++ f ++ d : BitVec (3 + 5 + 8 + 16 + 16)).extractLsb' 32 8 = a
  iterate 2 rw [BitVec.extractLsb'_append_eq_of_le (by decide)]
  exact BitVec.extractLsb'_append_eq_right

@[simp] theorem cmdF_mkCmd (op : BitVec 3) (rsv : BitVec 5) (a : BitVec 8) (f d : BitVec 16) :
    cmdF (mkCmd op rsv a f d) = f := by
  show (op ++ rsv ++ a ++ f ++ d : BitVec (3 + 5 + 8 + 16 + 16)).extractLsb' 16 16 = f
  rw [BitVec.extractLsb'_append_eq_of_le (by decide)]
  exact BitVec.extractLsb'_append_eq_right

@[simp] theorem cmdD_mkCmd (op : BitVec 3) (rsv : BitVec 5) (a : BitVec 8) (f d : BitVec 16) :
    cmdD (mkCmd op rsv a f d) = d := BitVec.extractLsb'_append_eq_right

/-- The fields cover the word. -/
theorem mkCmd_fields (w : Cmd) : mkCmd (cmdOp w) (cmdRsv w) (cmdA w) (cmdF w) (cmdD w) = w := by
  simp only [mkCmd, cmdOp, cmdRsv, cmdA, cmdF, cmdD]
  iterate 4 rw [BitVec.extractLsb'_append_extractLsb'_eq_extractLsb' (by decide)]
  exact BitVec.extractLsb'_eq_self

/-- The fields of a word are determined by it. -/
theorem mkCmd_inj {op op' : BitVec 3} {rsv rsv' : BitVec 5} {a a' : BitVec 8} {f f' d d' : BitVec 16} :
    mkCmd op rsv a f d = mkCmd op' rsv' a' f' d' ↔ op = op' ∧ rsv = rsv' ∧ a = a' ∧ f = f' ∧ d = d' := by
  constructor
  · intro h
    exact ⟨by simpa using congrArg cmdOp h, by simpa using congrArg cmdRsv h, by simpa using congrArg cmdA h,
      by simpa using congrArg cmdF h, by simpa using congrArg cmdD h⟩
  · rintro ⟨rfl, rfl, rfl, rfl, rfl⟩
    rfl

/-! ### The CMD decoder, opcode by opcode (R74): RSV and the fields a command has no use for are ignored (R76) -/

section
variable (rsv : BitVec 5) (a : BitVec 8) (f d : BitVec 16)

@[simp] theorem decodeCmd_mkCmd_endProg : decodeCmd (mkCmd 0#3 rsv a f d) = .endProg := by simp [decodeCmd]
@[simp] theorem decodeCmd_mkCmd_beep : decodeCmd (mkCmd 1#3 rsv a f d) = .beep a f d := by simp [decodeCmd]
@[simp] theorem decodeCmd_mkCmd_melody : decodeCmd (mkCmd 2#3 rsv a f d) = .melody := by simp [decodeCmd]
@[simp] theorem decodeCmd_mkCmd_letter : decodeCmd (mkCmd 3#3 rsv a f d) = .letter a := by simp [decodeCmd]
@[simp] theorem decodeCmd_mkCmd_fill : decodeCmd (mkCmd 4#3 rsv a f d) = .fill a := by simp [decodeCmd]
@[simp] theorem decodeCmd_mkCmd_pause : decodeCmd (mkCmd 5#3 rsv a f d) = .pause d := by simp [decodeCmd]
@[simp] theorem decodeCmd_mkCmd_reboot : decodeCmd (mkCmd 6#3 rsv a f d) = .reboot := by simp [decodeCmd]
@[simp] theorem decodeCmd_mkCmd_reservedOp7 : decodeCmd (mkCmd 7#3 rsv a f d) = .reservedOp7 := by simp [decodeCmd]

end

/-! ### Decoding undoes encoding -/

/-- Settles O1: a key's code is one fixed word; a command's operands come back from the fields they were put in. -/
theorem decodeEncodeAgree : Obligations.DecodeEncodeAgree := by
  intro i
  cases i with
  | keyNone | key1 | key2 | key3 | keyA | key4 | key5 | key6 | keyB | key7 | key8 | key9 | keyC | keyStar | key0 | keyHash
  | keyD => rfl
  | endProg => exact decodeCmd_mkCmd_endProg 0 0 0 0
  | beep n f d => exact decodeCmd_mkCmd_beep 0 n f d
  | melody => exact decodeCmd_mkCmd_melody 0 0 0 0
  | letter g => exact decodeCmd_mkCmd_letter 0 g 0 0
  | fill k => exact decodeCmd_mkCmd_fill 0 k 0 0
  | pause d => exact decodeCmd_mkCmd_pause 0 0 0 d
  | reboot => exact decodeCmd_mkCmd_reboot 0 0 0 0
  | reservedOp7 => exact decodeCmd_mkCmd_reservedOp7 0 0 0 0

/-! ### Encoding undoes decoding on the words that R81 accepts -/

theorem bitVec3_cases (o : BitVec 3) : o = 0 ∨ o = 1 ∨ o = 2 ∨ o = 3 ∨ o = 4 ∨ o = 5 ∨ o = 6 ∨ o = 7 := by
  revert o
  decide

/-- A property of every command word, shown opcode by opcode (R74). -/
theorem cmd_cases {P : Cmd → Prop}
    (endProg : ∀ rsv a f d, P (mkCmd 0#3 rsv a f d)) (beep : ∀ rsv a f d, P (mkCmd 1#3 rsv a f d))
    (melody : ∀ rsv a f d, P (mkCmd 2#3 rsv a f d)) (letter : ∀ rsv a f d, P (mkCmd 3#3 rsv a f d))
    (fill : ∀ rsv a f d, P (mkCmd 4#3 rsv a f d)) (pause : ∀ rsv a f d, P (mkCmd 5#3 rsv a f d))
    (reboot : ∀ rsv a f d, P (mkCmd 6#3 rsv a f d)) (reservedOp7 : ∀ rsv a f d, P (mkCmd 7#3 rsv a f d)) (w : Cmd) :
    P w := by
  rw [← mkCmd_fields w]
  rcases bitVec3_cases (cmdOp w) with hop | hop | hop | hop | hop | hop | hop | hop <;> rw [hop]
  exacts [endProg .., beep .., melody .., letter .., fill .., pause .., reboot .., reservedOp7 ..]

/-- A letter index is well-formed when it has a glyph (R76). -/
@[simp] theorem letter_wf_iff (g : BitVec 8) : (Instr.letter g).wf = true ↔ g.toNat ≤ 4 := by
  simp [Instr.wf, Instr.check]

/-- A colour index is well-formed when it has a colour (R76). -/
@[simp] theorem fill_wf_iff (k : BitVec 8) : (Instr.fill k).wf = true ↔ k.toNat ≤ 4 := by
  simp [Instr.wf, Instr.check]

/-- The instruction's check refuses what `wf_op` and `wf_idx` refuse: `decodeCmd_wf`, the other way round. -/
theorem wfOp_wfIdx_of_decodeCmd_wf {w : Cmd} (h : (decodeCmd w).wf = true) : wfOp w = true ∧ wfIdx w = true := by
  cases w using cmd_cases with
  | letter rsv a f d | fill rsv a f d =>
    have ha : a.toNat ≤ 4 := by simpa using h
    simp [wfOp, wfIdx, ha]
  | reservedOp7 rsv a f d =>
    rw [decodeCmd_mkCmd_reservedOp7] at h
    cases h
  | endProg | beep | melody | pause | reboot => simp [wfOp, wfIdx]

/-- `wf_rsv` says that the word is the canonical one: the fields that the encoder writes as 0 are 0 (R74). With OP = 7 the
encoder clears operands that `wf_rsv` does not look at. -/
theorem encode_decodeCmd_eq_iff {w : Cmd} (hop : wfOp w = true) : encode (decodeCmd w) = .cmd w ↔ wfRsv w = true := by
  rw [eq_comm]
  cases w using cmd_cases with
  | reservedOp7 => simp [wfOp] at hop
  | endProg | beep | melody | letter | fill | pause | reboot =>
    simp [encode, mkCmd_inj, wfRsv, and_assoc]

/-- Settles O2: `wf_op` and `wf_idx` are the instruction's own check, and `wf_rsv` says that the word is canonical. -/
theorem wellFormedWordIsCanonical : Obligations.WellFormedWordIsCanonical := by
  intro w
  constructor
  · intro h
    obtain ⟨⟨hop, hrsv⟩, _⟩ : (wfOp w = true ∧ wfRsv w = true) ∧ wfIdx w = true := by simpa [wfWord] using h
    exact ⟨(encode_decodeCmd_eq_iff hop).mpr hrsv, decodeCmd_wf h⟩
  · rintro ⟨hcanon, hwf⟩
    obtain ⟨hop, hidx⟩ := wfOp_wfIdx_of_decodeCmd_wf hwf
    simp [wfWord, hop, (encode_decodeCmd_eq_iff hop).mp hcanon, hidx]

/-! ### KEY codes and sample words -/

/-- A code with V = 0 is no key, whatever its other bits hold (R71). -/
theorem decodeKey_of_not_keyV {c : KeyCode} (h : keyV c = false) : decodeKey c = .keyNone := by
  simp [decodeKey, h]

theorem keyChar_of_not_keyV {c : KeyCode} (h : keyV c = false) : keyChar c = none := by
  simp [keyChar, h]

/-- Settles O3: the table of the keys entry by entry, and each sample word as its fields. -/
theorem keyAndCommandWordsDecode : Obligations.KeyAndCommandWordsDecode := by
  refine ⟨by decide, fun c hv => ⟨decodeKey_of_not_keyV hv, keyChar_of_not_keyV hv⟩, ?_⟩
  exact ⟨decodeCmd_mkCmd_endProg 0 0 0 0, decodeCmd_mkCmd_beep 0 2 1000 200, decodeCmd_mkCmd_melody 0 0 0 0,
    decodeCmd_mkCmd_letter 0 2 0 0, decodeCmd_mkCmd_fill 0 4 0 0, decodeCmd_mkCmd_fill 1 0 0 0,
    decodeCmd_mkCmd_pause 0 0 0 100, decodeCmd_mkCmd_reboot 0 0 0 0, decodeCmd_mkCmd_reservedOp7 0 0 0 0⟩

/-! ### Pseudo-instructions (R80) -/

/-- The assembler admits every duration that the D field holds (R79). -/
theorem asmPause_toNat (d : BitVec 16) : asmPause d.toNat = .ok [.pause d] := by
  have hfits : ¬ 65535 < d.toNat := by omega
  rw [asmPause, if_neg hfits, BitVec.ofNat_toNat, BitVec.setWidth_eq]

/-- The next command's index is one more where the register holds it. -/
theorem nextCommand_isNextIndex (s : State) : IsNextIndex s.apc s.nextCommand.apc := fun h =>
  fit_toNat s (by omega)

/-- The expansion of `INTRO`, with the values that R5 fixes. -/
theorem expandLine_intro (p : Params) : expandLine p .intro =
    .ok [.beep 2 p.buzzerFreqHz 200, .letter 0, .letter 1, .letter 2, .letter 3, .letter 4, .melody] := by
  rw [expandLine, params_introBeepTimes, params_introBeepMs]
  rfl

theorem expandLine_rebootAfter (p : Params) (d : BitVec 16) :
    expandLine p (.rebootAfter d.toNat) = .ok [.pause d, .reboot] := by
  simp [expandLine, asmPause_toNat]

/-- Settles O5: the three expansions, and `NOP` as a beep of no times, which goes on to the next command. -/
theorem pseudoInstructionsExpand : Obligations.PseudoInstructionsExpand :=
  ⟨expandLine_intro, ⟨fun _ => rfl, rfl, fun s => ⟨s.nextCommand.apc, nextCommand_isNextIndex s, rfl⟩⟩,
    expandLine_rebootAfter⟩

end Sys2Proof.Machine
end

