-- ==== Sys2Proof/Proofs/ScannerSteps.lean ====
section
/-! The keypad scanner, cycle by cycle (spec 40_keypad_scanner.md R101 to R105): what the always-running part and each
branch of the scanner's phase rules leave, and the cycle that a scan's own code, a key or "none", stands for. -/

namespace Sys2Proof.Machine

/-! ### The always-running part (R101, R145, R203) -/

/-- The always-running part writes the synchroniser, the PWM counter with its accumulator, and the log pulse. -/
theorem clocked_eq (s : State) : s.clocked =
    { s with
      sync1 := s.pins.colN, sync2 := s.sync1, pwmCnt := s.clocked.pwmCnt, pwmFrac := s.clocked.pwmFrac, logValid := false,
      inputs := s.inputs.tail, cycle := s.cycle + 1 } := by
  unfold State.clocked State.pwmStep
  split <;> rfl

/-- Settles O22: the frame of the always-running part, with the two outcomes of the PWM counter's tick. -/
theorem alwaysRunningPart : Obligations.AlwaysRunningPart := by
  intro s hinv
  obtain ⟨h16, hfrac⟩ := hinv
  refine ⟨s.clocked.pwmCnt, s.clocked.pwmFrac, ?_, clocked_eq s⟩
  obtain ⟨hle, hf, hc⟩ | ⟨hlt, hf, hc⟩ := pwmStep_spec s.syncStep hfrac h16
  · exact .inl ⟨hle, hf, (congrArg BitVec.toNat hc).trans (BitVec.toNat_add ..)⟩
  · exact .inr ⟨hlt, hf, hc⟩

/-! ### Counts and rows -/

/-- A wait loads its own count (R8). -/
theorem fitCount_isWaitCount (s : State) (ms : Nat) : IsWaitCount s.cfg ms (s.fitCount (msCycles s.cfg ms)) :=
  fun h => fitCount_toNat s h

/-- A driven row loads the settle count (R102). -/
theorem fit_isSettleCount (s : State) : IsSettleCount s.cfg (s.fit 16 s.cfg.settleCyc) := fun h => fit_toNat s h

theorem toNat_succ_of_lt_three {r : BitVec 2} (h : r.toNat < 3) : (r + 1).toNat = r.toNat + 1 := by bv_omega

theorem onehot4_succ {r : BitVec 2} (h : r.toNat < 3) : onehot4 (r + 1) = 1#4 <<< (r.toNat + 1) := by
  rw [onehot4, toNat_succ_of_lt_three h]

/-! ### KS_SETTLE (R103) -/

theorem step_ksSettle_settled {s : State} (hp : s.ph = .ksSettle) (hr : s.pins.rst = false) (hn : s.scnt.toNat ≤ 1) :
    step s = .next { s.clocked with ph := .ksCol } := by
  rw [step_of_run hr]
  simp only [turn, hp, ksSettleTurn, if_pos hn, runTurn]

theorem step_ksSettle_settles {s : State} (hp : s.ph = .ksSettle) (hr : s.pins.rst = false) (hn : 1 < s.scnt.toNat) :
    step s = .next { s.clocked with scnt := s.scnt - 1 } := by
  rw [step_of_run hr]
  simp only [turn, hp, ksSettleTurn, if_neg (Nat.not_le.mpr hn), runTurn]

/-- Settles O23: the two branches of the phase. -/
theorem settlePhaseStep : Obligations.SettlePhaseStep := fun _ hr hp =>
  ⟨step_ksSettle_settled hp hr, step_ksSettle_settles hp hr⟩

/-! ### KS_COL (R104) -/

theorem step_ksCol_pressed {s : State} (hp : s.ph = .ksCol) (hr : s.pins.rst = false) (hc : s.column = false) :
    step s = .next { s.clocked with ph := .ksRel } := by
  rw [step_of_run hr]
  simp only [turn, hp, ksColTurn, hc, if_true, runTurn]

theorem step_ksCol_nextColumn {s : State} (hp : s.ph = .ksCol) (hr : s.pins.rst = false) (hc : s.column = true)
    (hn : s.ksC.toNat < 3) : step s = .next { s.clocked with ksC := s.ksC + 1 } := by
  rw [step_of_run hr]
  simp only [turn, hp, ksColTurn, hc, Bool.true_eq_false, if_false, if_pos hn, runTurn]

theorem step_ksCol_nextRow {s : State} (hp : s.ph = .ksCol) (hr : s.pins.rst = false) (hc : s.column = true)
    (hn : s.ksC = 3) (hlast : s.ksR.toNat < 3) : step s = .next (s.clocked.driveRow (s.ksR + 1)) := by
  have hcol : ¬ s.ksC.toNat < 3 := by simp [hn]
  rw [step_of_run hr]
  simp only [turn, hp, ksColTurn, hc, Bool.true_eq_false, if_false, if_neg hcol, if_pos hlast, runTurn]

theorem step_ksCol_noKey {s : State} (hp : s.ph = .ksCol) (hr : s.pins.rst = false) (hc : s.column = true)
    (hn : s.ksC = 3) (hlast : s.ksR = 3) : step s = .next s.clocked.noneExit := by
  have hcol : ¬ s.ksC.toNat < 3 := by simp [hn]
  have hrow : ¬ s.ksR.toNat < 3 := by simp [hlast]
  rw [step_of_run hr]
  simp only [turn, hp, ksColTurn, hc, Bool.true_eq_false, if_false, if_neg hcol, if_neg hrow]
  rfl

theorem noneExit_eq (s : State) :
    s.noneExit = { s with rowN := 0b1111, dcnt := s.fitCount (msCycles s.cfg 100), ph := .idleWait } := by
  rw [← params_idleMs s.cfg]
  rfl

/-- Settles O24: the four branches of the phase. -/
theorem columnPhaseStep : Obligations.ColumnPhaseStep := by
  intro s hr hp
  refine ⟨step_ksCol_pressed hp hr, step_ksCol_nextColumn hp hr, fun hc hn hlast => ?_, fun hc hn hlast => ?_⟩
  · refine ⟨s.clocked.fit 16 s.clocked.cfg.settleCyc, ?_, ?_⟩
    · rw [← clocked_cfg s]
      exact fit_isSettleCount s.clocked
    · rw [step_ksCol_nextRow hp hr hc hn hlast, ← onehot4_succ hlast]
      rfl
  · refine ⟨s.clocked.fitCount (msCycles s.clocked.cfg 100), ?_, ?_⟩
    · rw [← clocked_cfg s]
      exact fitCount_isWaitCount s.clocked 100
    · rw [step_ksCol_noKey hp hr hc hn hlast, noneExit_eq]

/-! ### KS_REL (R105) -/

theorem step_ksRel_held {s : State} (hp : s.ph = .ksRel) (hr : s.pins.rst = false) (hc : s.column = false) :
    step s = .next s.clocked := by
  rw [step_of_run hr]
  simp only [turn, hp, ksRelTurn, hc, Bool.false_eq_true, if_false, runTurn]

theorem step_ksRel_released {s : State} (hp : s.ph = .ksRel) (hr : s.pins.rst = false) (hc : s.column = true) :
    step s = .next (s.clocked.dispatchKey (keyCodeOf s.ksR s.ksC)) := by
  rw [step_of_run hr]
  simp only [turn, hp, ksRelTurn, hc, if_true, runTurn, exec_decodeKey_keyCodeOf]

/-- Settles O25: the two branches of the phase. -/
theorem releasePhaseStep : Obligations.ReleasePhaseStep := fun _ hr hp =>
  ⟨step_ksRel_released hp hr, step_ksRel_held hp hr⟩

/-! ### The codes of a scan (R72, R104, R105; log entry 6) -/

/-- Settles O19: each key of the table is the key that its code decodes to, and its code is that of a row and a column. -/
theorem keyCodeIsDispatched : Obligations.KeyCodeIsDispatched := by
  have htable : ∀ e ∈ [(Instr.key1, (0x10 : KeyCode)), (.key2, 0x11), (.key3, 0x12), (.keyA, 0x13), (.key4, 0x14),
      (.key5, 0x15), (.key6, 0x16), (.keyB, 0x17), (.key7, 0x18), (.key8, 0x19), (.key9, 0x1A), (.keyC, 0x1B),
      (.keyStar, 0x1C), (.key0, 0x1D), (.keyHash, 0x1E), (.keyD, 0x1F)],
      e.1 = decodeKey e.2 ∧ keyCodeOf (keyRow e.2) (keyCol e.2) = e.2 := by decide
  intro e he s
  obtain ⟨hkey, hcode⟩ := htable e he
  have hexec := exec_decodeKey_keyCodeOf (keyRow e.2) (keyCol e.2) s
  rw [hcode, ← hkey] at hexec
  exact hexec

/-- Settles O20: the none-exit, whose wait is the idle wait of 100 ms. -/
theorem noKeyGoesIdle : Obligations.NoKeyGoesIdle :=
  ⟨rfl, fun s => ⟨_, fitCount_isWaitCount s 100, congrArg Host.Outcome.next (noneExit_eq s)⟩⟩

end Sys2Proof.Machine
end

