-- ==== Sys2Proof/Proofs/Scans.lean ====
section
/-! Whole scans (spec 40_keypad_scanner.md R105 to R112). What the scanner reads in a cycle are the columns of two cycles
before. A scan goes through its rows and through the columns of each, one offset a cycle, until a column reads low; and a
key that stays low holds it there. -/

namespace Sys2Proof.Machine

/-! ### What the scanner reads (R101) -/

/-- The columns that the scanner reads `j` cycles from `s`, if no reset comes: the two stages of the synchroniser first, and
then the pins of two cycles before. -/
def State.sampled (s : State) : Nat → BitVec 4
  | 0 => s.sync2
  | 1 => s.sync1
  | j + 2 => (s.pinsAt j).colN

theorem sampled_add_two (s : State) (j : Nat) : s.sampled (j + 2) = (s.pinsAt j).colN := rfl

/-- A property of every reading follows from the two stages and the pins. -/
theorem sampled_of_forall {P : BitVec 4 → Prop} {s : State} {n : Nat} (h2 : P s.sync2) (h1 : P s.sync1)
    (hpins : ∀ j < n, P (s.pinsAt j).colN) : ∀ j < n + 2, P (s.sampled j)
  | 0, _ => h2
  | 1, _ => h1
  | j + 2, hj => hpins j (by omega)

/-! ### What a scan leaves as it was -/

/-- `t` is `s` after `n` cycles of a scan without a reset, but for the phase, the scanner's own registers, the PWM counter
and the log pulse. -/
def ScanFrame (n : Nat) (s t : State) : Prop :=
  t = { s with
    ph := t.ph, scnt := t.scnt, ksR := t.ksR, ksC := t.ksC, rowN := t.rowN, sync1 := s.sampled (n + 1),
    sync2 := s.sampled n, pwmCnt := t.pwmCnt, pwmFrac := t.pwmFrac, logValid := t.logValid, inputs := s.inputs.drop n,
    cycle := s.cycle + n }

theorem ScanFrame.refl (s : State) : ScanFrame 0 s s := rfl

/-- The always-running part, with any writes of the scanner on top of it, keeps the frame. -/
theorem scanFrame_clocked (s : State) (p : Phase) (n : BitVec 16) (r c : BitVec 2) (d : BitVec 4) :
    ScanFrame 1 s { s.clocked with ph := p, scnt := n, ksR := r, ksC := c, rowN := d } := by
  rw [clocked_eq]
  simp [ScanFrame, State.sampled, State.pins]

section
variable {n : Nat} {s t : State} (h : ScanFrame n s t)
include h

theorem ScanFrame.cfg : t.cfg = s.cfg := (congrArg State.cfg h :)
theorem ScanFrame.settleCyc : t.cfg.settleCyc = s.cfg.settleCyc := congrArg Params.settleCyc (ScanFrame.cfg h)
theorem ScanFrame.key : t.key = s.key := (congrArg State.key h :)
theorem ScanFrame.sync2 : t.sync2 = s.sampled n := (congrArg State.sync2 h :)
theorem ScanFrame.sync1 : t.sync1 = s.sampled (n + 1) := (congrArg State.sync1 h :)

theorem ScanFrame.pinsAt (j : Nat) : t.pinsAt j = s.pinsAt (n + j) :=
  pinsAt_of_drop (congrArg State.inputs h :) (congrArg State.cycle h :) j

theorem ScanFrame.sampled : ∀ j, t.sampled j = s.sampled (n + j)
  | 0 => h.sync2
  | 1 => h.sync1
  | j + 2 => by rw [sampled_add_two, h.pinsAt, ← Nat.add_assoc, sampled_add_two]

theorem ScanFrame.noReset {m : Nat} (hr : NoReset (n + m) s) : NoReset m t := fun j hj => by
  rw [h.pinsAt]
  exact hr (n + j) (by omega)

theorem ScanFrame.trans {m : Nat} {u : State} (h' : ScanFrame m t u) : ScanFrame (n + m) s u := by
  refine Eq.trans h' ?_
  rw [h.sampled, h.sampled, h]
  simp [Nat.add_assoc]

end

/-- The frame of a part of a scan inside one row. -/
structure RowFrame (n : Nat) (s t : State) : Prop where
  frame : ScanFrame n s t
  ksR : t.ksR = s.ksR
  rowN : t.rowN = s.rowN

theorem RowFrame.refl (s : State) : RowFrame 0 s s := ⟨.refl s, rfl, rfl⟩

theorem RowFrame.trans {n m : Nat} {s t u : State} (h : RowFrame n s t) (h' : RowFrame m t u) : RowFrame (n + m) s u :=
  ⟨h.frame.trans h'.frame, h'.ksR.trans h.ksR, h'.rowN.trans h.rowN⟩

theorem rowFrame_clocked (s : State) (p : Phase) (n : BitVec 16) (c : BitVec 2) :
    RowFrame 1 s { s.clocked with ph := p, scnt := n, ksC := c } :=
  ⟨scanFrame_clocked s p n _ c _, clocked_ksR s, clocked_rowN s⟩

/-! ### A held key (R105, R213) -/

/-- While the watched column reads low, KS_REL goes on and the row stays driven. -/
theorem run_held {s : State} {n : Nat} (hp : s.ph = .ksRel) (hr : NoReset n s)
    (hlow : ∀ j < n, (s.sampled j).getLsbD s.ksC.toNat = false) :
    ∃ t : State, Sys2Proof.core.run n s = .next t ∧ t.ph = .ksRel ∧ t.ksC = s.ksC ∧ RowFrame n s t := by
  induction n with
  | zero => exact ⟨s, rfl, hp, rfl, .refl s⟩
  | succ n ih =>
    obtain ⟨t, hrun, ht, hc, hframe⟩ := ih (fun j hj => hr j (by omega)) (fun j hj => hlow j (by omega))
    have hcol : t.column = false := by
      rw [State.column, hc, hframe.frame.sync2]
      exact hlow n n.lt_succ_self
    have hstep := step_ksRel_held ht (hframe.frame.noReset hr 0 Nat.one_pos) hcol
    exact ⟨t.clocked, (run_succ_of_run hrun).trans hstep, by simpa using ht, by simpa using hc,
      hframe.trans (rowFrame_clocked t _ _ _)⟩

/-- Settles O48: the frame of a held key. -/
theorem heldKeyHoldsScanner : Obligations.HeldKeyHoldsScanner := by
  intro s n hp hr h2 h1 hpins
  have hlow := sampled_of_forall (P := fun v => v.getLsbD s.ksC.toNat = false) h2 h1 hpins
  obtain ⟨t, hrun, ht, hc, hframe⟩ := run_held hp hr (fun j hj => hlow j (by omega))
  exact ⟨t, hrun, ht, hframe.ksR, hc, hframe.rowN, hframe.frame.key, (congrArg State.ledValid hframe.frame :),
    (congrArg State.pwmLevel hframe.frame :), (congrArg State.rebootReq hframe.frame :)⟩

/-! ### One row (R103, R104) -/

/-- `s` is `k` cycles into its row: `SETTLE_CYC` cycles of KS_SETTLE, and then one of KS_COL for each column. -/
structure AtOffset (k : Nat) (s : State) : Prop where
  settling : k < s.cfg.settleCyc → s.ph = .ksSettle ∧ s.scnt.toNat = s.cfg.settleCyc - k ∧ s.ksC = 0
  sampling : s.cfg.settleCyc ≤ k → s.ph = .ksCol ∧ s.ksC.toNat = k - s.cfg.settleCyc

theorem atOffset_of_settling {k : Nat} {s : State} (hk : k < s.cfg.settleCyc) (hp : s.ph = .ksSettle)
    (hn : s.scnt.toNat = s.cfg.settleCyc - k) (hc : s.ksC = 0) : AtOffset k s :=
  ⟨fun _ => ⟨hp, hn, hc⟩, fun hle => absurd hk (Nat.not_lt.mpr hle)⟩

theorem atOffset_of_sampling {k : Nat} {s : State} (hk : s.cfg.settleCyc ≤ k) (hp : s.ph = .ksCol)
    (hc : s.ksC.toNat = k - s.cfg.settleCyc) : AtOffset k s :=
  ⟨fun hlt => absurd hk (Nat.not_le.mpr hlt), fun _ => ⟨hp, hc⟩⟩

theorem AtOffset.ph {k : Nat} {s : State} (h : AtOffset k s) : s.ph = .ksSettle ∨ s.ph = .ksCol := by
  by_cases hk : k < s.cfg.settleCyc
  · obtain ⟨hp, _⟩ := h.settling hk
    exact .inl hp
  · obtain ⟨hp, _⟩ := h.sampling (by omega)
    exact .inr hp

theorem AtOffset.isScan {k : Nat} {s : State} (h : AtOffset k s) : isScan s.ph = true := by
  rcases h.ph with hp | hp <;> rw [hp] <;> rfl

theorem settleCyc_pos (p : Params) : 0 < p.settleCyc := Nat.lt_of_lt_of_le Nat.two_pos p.settleOk

/-- A driven row is at its first offset (R102). -/
theorem driveRow_atOffset {s : State} (r : BitVec 2) (hfit : s.cfg.settleCyc < 2 ^ 16) : AtOffset 0 (s.driveRow r) :=
  atOffset_of_settling (settleCyc_pos s.cfg) rfl (fit_toNat s hfit) rfl

/-- A KS_SETTLE cycle counts down, or goes on to the first column (R103). -/
theorem AtOffset.step_settling {k : Nat} {s : State} (h : AtOffset k s) (hk : k < s.cfg.settleCyc)
    (hr : s.pins.rst = false) : ∃ t, step s = .next t ∧ AtOffset (k + 1) t ∧ RowFrame 1 s t := by
  obtain ⟨hp, hn, hc⟩ := h.settling hk
  by_cases hlast : k + 1 = s.cfg.settleCyc
  · refine ⟨_, step_ksSettle_settled hp hr (by omega), atOffset_of_sampling ?_ rfl ?_, rowFrame_clocked s _ _ _⟩
    · simp [hlast]
    · simp [hc, hlast]
  · have hcount : (s.scnt - 1).toNat = s.cfg.settleCyc - (k + 1) := by bv_omega
    refine ⟨_, step_ksSettle_settles hp hr (by omega), atOffset_of_settling ?_ ?_ ?_ ?_, rowFrame_clocked s _ _ _⟩
    · simp only [clocked_cfg]
      omega
    · simpa using hp
    · simpa using hcount
    · simpa using hc

/-- A KS_COL cycle that reads a high column other than the last goes on to the next column (R104). -/
theorem AtOffset.step_sampling {k : Nat} {s : State} (h : AtOffset k s) (hle : s.cfg.settleCyc ≤ k)
    (hk : k + 1 < s.cfg.settleCyc + 4) (hr : s.pins.rst = false)
    (hhigh : s.sync2.getLsbD (k - s.cfg.settleCyc) = true) :
    ∃ t, step s = .next t ∧ AtOffset (k + 1) t ∧ RowFrame 1 s t := by
  obtain ⟨hp, hc⟩ := h.sampling hle
  have hcol : s.column = true := by rwa [State.column, hc]
  have hnext : (s.ksC + 1).toNat = k + 1 - s.cfg.settleCyc := by
    rw [toNat_succ_of_lt_three (by omega)]
    omega
  refine ⟨_, step_ksCol_nextColumn hp hr hcol (by omega), atOffset_of_sampling ?_ ?_ ?_, rowFrame_clocked s _ _ _⟩
  · simp only [clocked_cfg]
    omega
  · simpa using hp
  · simpa using hnext

/-- A cycle inside a row that reads no low column goes on to the next offset. -/
theorem AtOffset.step_next {k : Nat} {s : State} (h : AtOffset k s) (hk : k + 1 < s.cfg.settleCyc + 4)
    (hr : s.pins.rst = false) (hhigh : s.cfg.settleCyc ≤ k → s.sync2.getLsbD (k - s.cfg.settleCyc) = true) :
    ∃ t, step s = .next t ∧ AtOffset (k + 1) t ∧ RowFrame 1 s t := by
  by_cases hset : k < s.cfg.settleCyc
  · exact h.step_settling hset hr
  · have hle : s.cfg.settleCyc ≤ k := Nat.not_lt.mp hset
    exact h.step_sampling hle hk hr (hhigh hle)

/-- A row goes from offset to offset while its columns read high. -/
theorem AtOffset.run {k n : Nat} {s : State} (h : AtOffset k s) (hk : k + n < s.cfg.settleCyc + 4) (hr : NoReset n s)
    (hhigh : ∀ j < n, s.cfg.settleCyc ≤ k + j → (s.sampled j).getLsbD (k + j - s.cfg.settleCyc) = true) :
    ∃ t : State, Sys2Proof.core.run n s = .next t ∧ AtOffset (k + n) t ∧ RowFrame n s t := by
  induction n with
  | zero => exact ⟨s, rfl, h, .refl s⟩
  | succ n ih =>
    obtain ⟨t, hrun, ht, hframe⟩ := ih (by omega) (fun j hj => hr j (by omega)) (fun j hj => hhigh j (by omega))
    have hset := hframe.frame.settleCyc
    obtain ⟨u, hstep, hu, hlast⟩ := ht.step_next (by omega) (hframe.frame.noReset hr 0 Nat.one_pos) (by
      rw [hset, hframe.frame.sync2]
      exact hhigh n n.lt_succ_self)
    exact ⟨u, (run_succ_of_run hrun).trans hstep, hu, hframe.trans hlast⟩

/-- A low column is taken in the cycle that reads it (R104). -/
theorem AtOffset.step_pressed {c : Nat} {s : State} (h : AtOffset (s.cfg.settleCyc + c) s) (hr : s.pins.rst = false)
    (hlow : s.sync2.getLsbD c = false) :
    ∃ t, step s = .next t ∧ t.ph = .ksRel ∧ t.ksC.toNat = c ∧ RowFrame 1 s t := by
  obtain ⟨hp, hc⟩ := h.sampling (by omega)
  rw [Nat.add_sub_cancel_left] at hc
  have hcol : s.column = false := by rwa [State.column, hc]
  exact ⟨_, step_ksCol_pressed hp hr hcol, rfl, by simpa using hc, rowFrame_clocked s _ _ _⟩

/-- A row whose lowest low column is `c` is left on that column, `c + 1` cycles after its first sample (R104, R106). -/
theorem run_lowest_column {s : State} {c : Nat} (hp : s.ph = .ksCol) (h0 : s.ksC = 0) (hc : c < 4) (hr : NoReset (c + 1) s)
    (hhigh : ∀ d < c, (s.sampled d).getLsbD d = true) (hlow : (s.sampled c).getLsbD c = false) :
    ∃ t : State, Sys2Proof.core.run (c + 1) s = .next t ∧ t.ph = .ksRel ∧ t.ksC.toNat = c ∧ RowFrame (c + 1) s t := by
  have hfirst : AtOffset s.cfg.settleCyc s := atOffset_of_sampling (Nat.le_refl _) hp (by simp [h0])
  obtain ⟨t, hrun, ht, hframe⟩ := hfirst.run (n := c) (by omega) (fun j hj => hr j (by omega)) (fun d hd _ => by
    rw [Nat.add_sub_cancel_left]
    exact hhigh d hd)
  rw [← hframe.frame.cfg] at ht
  obtain ⟨u, hstep, hu, hcol, hlast⟩ := ht.step_pressed (hframe.frame.noReset hr 0 Nat.one_pos) (by
    rwa [hframe.frame.sync2])
  exact ⟨u, (run_succ_of_run hrun).trans hstep, hu, hcol, hframe.trans hlast⟩

/-! ### The order of the samples (R106, R110) -/

/-- The cycles of one row (R110). -/
def rowSpan (p : Params) : Nat := p.settleCyc + 4

theorem decideAt_eq (p : Params) (r c : Nat) : decideAt p r c = r * rowSpan p + (p.settleCyc + c) := Nat.add_assoc ..

/-- Every cycle that decides on a key comes after the synchroniser's two stages, so it reads a cycle of the scan. -/
theorem decideAt_eq_sampleAt (p : Params) (r c : Nat) : decideAt p r c = sampleAt p r c + 2 := by
  have hpos := p.settleOk
  rw [sampleAt, decideAt_eq, params_syncStages]
  omega

theorem sampled_decideAt (s : State) (r c : Nat) : s.sampled (decideAt s.cfg r c) = (s.pinsAt (sampleAt s.cfg r c)).colN := by
  rw [decideAt_eq_sampleAt, sampled_add_two]

/-- A row's cycles all come before those of a later one. -/
theorem rowSpan_mul_le {p : Params} {a r : Nat} (h : a < r) : a * rowSpan p + rowSpan p ≤ r * rowSpan p := by
  rw [← Nat.succ_mul]
  exact Nat.mul_le_mul_right _ h

/-- The keys are decided on in row-major order. -/
theorem decideAt_lt_iff {p : Params} {a b r c : Nat} (hb : b < 4) (hc : c < 4) :
    decideAt p a b < decideAt p r c ↔ 4 * a + b < 4 * r + c := by
  rw [decideAt_eq, decideAt_eq]
  have hspan : rowSpan p = p.settleCyc + 4 := rfl
  obtain hlt | rfl | hgt := Nat.lt_trichotomy a r
  · have hle := rowSpan_mul_le (p := p) hlt
    omega
  · omega
  · have hle := rowSpan_mul_le (p := p) hgt
    omega

/-- All of them are decided on within four rows (R110). -/
theorem decideAt_lt_scan {p : Params} {r c : Nat} (hr : r < 4) (hc : c < 4) : decideAt p r c < 4 * rowSpan p := by
  have hle := rowSpan_mul_le (p := p) hr
  have hspan : rowSpan p = p.settleCyc + 4 := rfl
  rw [decideAt_eq]
  omega

/-- Every key that the scan from `s` decides on in its first `n` cycles reads high. -/
def HighBefore (n : Nat) (s : State) : Prop :=
  ∀ a < 4, ∀ b < 4, decideAt s.cfg a b < n → (s.sampled (decideAt s.cfg a b)).getLsbD b = true

theorem HighBefore.mono {m n : Nat} {s : State} (h : HighBefore n s) (hle : m ≤ n) : HighBefore m s :=
  fun a ha b hb hlt => h a ha b hb (by omega)

/-- The keys before (r, c) in row-major order read high at their sampling edges. -/
theorem highBefore_decideAt {s : State} {r c : Nat} (hc : c < 4)
    (h : ∀ a < 4, ∀ b < 4, 4 * a + b < 4 * r + c → (s.pinsAt (sampleAt s.cfg a b)).colN.getLsbD b = true) :
    HighBefore (decideAt s.cfg r c) s := fun a ha b hb hlt => by
  rw [sampled_decideAt]
  exact h a ha b hb ((decideAt_lt_iff hb hc).mp hlt)

/-! ### A scan that finds no key so far -/

/-- The first KS_SETTLE cycle of a scan. -/
structure ScanStart (s : State) : Prop where
  ph : s.ph = .ksSettle
  ksR : s.ksR = 0
  ksC : s.ksC = 0
  fits : s.cfg.settleCyc < 2 ^ 16
  scnt : s.scnt.toNat = s.cfg.settleCyc

theorem ScanStart.atOffset {s : State} (h : ScanStart s) : AtOffset 0 s :=
  atOffset_of_settling (settleCyc_pos s.cfg) h.ph h.scnt h.ksC

/-- The scan from `s` is, in the state `t`, at offset `k` of row `r`. -/
structure ScanAt (s : State) (r k : Nat) (t : State) : Prop where
  run : Sys2Proof.core.run (r * rowSpan s.cfg + k) s = .next t
  offset : AtOffset k t
  row : t.ksR.toNat = r
  driven : s.rowN = 0b1110 → t.rowN = ~~~(1#4 <<< r)
  frame : ScanFrame (r * rowSpan s.cfg + k) s t

theorem ScanStart.scanAt {s : State} (h : ScanStart s) : ScanAt s 0 0 s where
  run := by rw [Nat.zero_mul]; rfl
  offset := h.atOffset
  row := by rw [h.ksR]; rfl
  driven hd := hd
  frame := by rw [Nat.zero_mul]; exact .refl s

/-- A row goes on while its keys read high. -/
theorem ScanAt.inRow {s t : State} {r k : Nat} (h : ScanAt s r 0 t) (hr : r < 4) (hk : k < rowSpan s.cfg)
    (hrst : NoReset (r * rowSpan s.cfg + k) s) (hhigh : HighBefore (r * rowSpan s.cfg + k) s) : ∃ u, ScanAt s r k u := by
  have hset := h.frame.settleCyc
  have hspan : rowSpan s.cfg = s.cfg.settleCyc + 4 := rfl
  obtain ⟨u, hrun, hu, hframe⟩ := h.offset.run (n := k) (by omega) (h.frame.noReset hrst) (fun j hj hle => by
    have hread := hhigh r hr (j - s.cfg.settleCyc) (by omega) (by rw [decideAt_eq]; omega)
    rw [hset] at hle ⊢
    rw [h.frame.sampled, Nat.add_zero, Nat.zero_add]
    rwa [decideAt_eq, Nat.add_sub_cancel' (by omega)] at hread)
  rw [Nat.zero_add] at hu
  exact ⟨u, (core_run_add Sys2Proof.core _ _ h.run).trans hrun, hu, by rw [hframe.ksR, h.row],
    fun hd => by rw [hframe.rowN, h.driven hd], h.frame.trans hframe.frame⟩

/-- The last cycle of a row that has no low column. -/
theorem ScanAt.lastColumn {s t : State} {r : Nat} (h : ScanAt s r (s.cfg.settleCyc + 3) t) (hr : r < 4)
    (hhigh : HighBefore ((r + 1) * rowSpan s.cfg) s) : t.ph = .ksCol ∧ t.ksC = 3 ∧ t.column = true := by
  have hset := h.frame.settleCyc
  have hspan : rowSpan s.cfg = s.cfg.settleCyc + 4 := rfl
  have hread := hhigh r hr 3 (by omega) (by rw [decideAt_eq, Nat.succ_mul]; omega)
  obtain ⟨hp, hc⟩ := h.offset.sampling (by omega)
  have h3 : t.ksC = 3 := BitVec.eq_of_toNat_eq (by rw [hc, hset]; exact Nat.add_sub_cancel_left ..)
  refine ⟨hp, h3, ?_⟩
  rw [State.column, h3, h.frame.sync2, ← decideAt_eq]
  exact hread

/-- A row whose keys all read high is followed by the next row. -/
theorem ScanAt.nextRow {s t : State} {r : Nat} (h : ScanAt s r (s.cfg.settleCyc + 3) t) (hfit : s.cfg.settleCyc < 2 ^ 16)
    (hr : r < 3) (hrst : NoReset ((r + 1) * rowSpan s.cfg) s) (hhigh : HighBefore ((r + 1) * rowSpan s.cfg) s) :
    ∃ u, ScanAt s (r + 1) 0 u := by
  obtain ⟨hp, hc, hcol⟩ := h.lastColumn (by omega) hhigh
  have hspan : (r + 1) * rowSpan s.cfg = r * rowSpan s.cfg + (s.cfg.settleCyc + 3) + 1 := Nat.succ_mul ..
  have hlast : t.ksR.toNat < 3 := by rwa [h.row]
  have hcfg : t.clocked.cfg = s.cfg := (clocked_cfg t).trans h.frame.cfg
  rw [hspan] at hrst
  have hstep := step_ksCol_nextRow hp (h.frame.noReset hrst 0 Nat.one_pos) hcol hc hlast
  refine ⟨t.clocked.driveRow (t.ksR + 1), ?_, driveRow_atOffset _ (by rwa [hcfg]), ?_, fun _ => ?_, ?_⟩
  · rw [Nat.add_zero, hspan]
    exact (run_succ_of_run h.run).trans hstep
  · rw [driveRow_ksR, toNat_succ_of_lt_three hlast, h.row]
  · rw [driveRow_rowN, onehot4_succ hlast, h.row]
  · rw [Nat.add_zero, hspan]
    exact h.frame.trans (scanFrame_clocked t _ _ _ _ _)

/-- A scan reaches each of its rows if the keys before it read high. -/
theorem ScanStart.reachesRow {s : State} {r : Nat} (h : ScanStart s) (hr : r < 4) (hrst : NoReset (r * rowSpan s.cfg) s)
    (hhigh : HighBefore (r * rowSpan s.cfg) s) : ∃ t, ScanAt s r 0 t := by
  induction r with
  | zero => exact ⟨s, h.scanAt⟩
  | succ r ih =>
    have hspan : (r + 1) * rowSpan s.cfg = r * rowSpan s.cfg + (s.cfg.settleCyc + 3) + 1 := Nat.succ_mul ..
    obtain ⟨t, ht⟩ := ih (by omega) (fun j hj => hrst j (by omega)) (hhigh.mono (by omega))
    obtain ⟨u, hu⟩ := ht.inRow (k := s.cfg.settleCyc + 3) (by omega) (Nat.lt_succ_self _) (fun j hj => hrst j (by omega))
      (hhigh.mono (by omega))
    exact hu.nextRow h.fits (by omega) hrst hhigh

/-- A scan reaches each of its cycles if the keys before it read high. -/
theorem ScanStart.reaches {s : State} {r k : Nat} (h : ScanStart s) (hr : r < 4) (hk : k < rowSpan s.cfg)
    (hrst : NoReset (r * rowSpan s.cfg + k) s) (hhigh : HighBefore (r * rowSpan s.cfg + k) s) : ∃ t, ScanAt s r k t := by
  obtain ⟨t, ht⟩ := h.reachesRow hr (fun j hj => hrst j (by omega)) (hhigh.mono (by omega))
  exact ht.inRow hr hk hrst hhigh

/-- The same by the number of the cycle: the scan is then at some offset of a row. -/
theorem ScanStart.run_scans {s : State} {n : Nat} (h : ScanStart s) (hn : n < 4 * rowSpan s.cfg) (hrst : NoReset n s)
    (hhigh : HighBefore n s) : ∃ (t : State) (k : Nat), Sys2Proof.core.run n s = .next t ∧ AtOffset k t := by
  have hsplit : n / rowSpan s.cfg * rowSpan s.cfg + n % rowSpan s.cfg = n := Nat.div_add_mod' ..
  obtain ⟨t, ht⟩ := h.reaches (r := n / rowSpan s.cfg) (k := n % rowSpan s.cfg)
    (Nat.div_lt_of_lt_mul (by rwa [Nat.mul_comm])) (Nat.mod_lt _ (Nat.succ_pos _)) (by rwa [hsplit]) (by rwa [hsplit])
  have hrun := ht.run
  rw [hsplit] at hrun
  exact ⟨t, _, hrun, ht.offset⟩

/-- Settles O50: every reading of the scan is high, so it goes through all its rows and leaves the last by the none-exit. -/
theorem emptyScanLasts : Obligations.EmptyScanLasts := by
  intro s hp hksR hksC hfit hscnt h1 h2 hrst hpins
  have h : ScanStart s := ⟨hp, hksR, hksC, hfit, hscnt⟩
  have hspan : 4 * (s.cfg.settleCyc + 4) = 3 * rowSpan s.cfg + (s.cfg.settleCyc + 3) + 1 := by rw [rowSpan]; omega
  have hread := sampled_of_forall (P := fun v => v = 0b1111) h2 h1 hpins
  have hhigh : HighBefore (4 * rowSpan s.cfg) s := fun a _ b hb hlt => by
    rw [hread _ (Nat.lt_add_right 2 hlt)]
    interval_cases b <;> rfl
  refine ⟨?_, fun n hn => ?_⟩
  · rw [hspan] at hrst ⊢
    obtain ⟨t, ht⟩ := h.reaches (r := 3) (k := s.cfg.settleCyc + 3) (by omega) (Nat.lt_succ_self _)
      (fun j hj => hrst j (by omega)) (hhigh.mono (by rw [rowSpan]; omega))
    obtain ⟨hcol, hc, hval⟩ := ht.lastColumn (by omega) hhigh
    have hstep := step_ksCol_noKey hcol (ht.frame.noReset hrst 0 Nat.one_pos) hval hc (BitVec.eq_of_toNat_eq ht.row)
    refine ⟨_, (run_succ_of_run ht.run).trans hstep, rfl, rfl, ?_, rfl, ?_⟩
    · rw [noneExit_key, clocked_key, ht.frame.key]
    · rw [noneExit_dcnt, params_idleMs, ← ht.frame.cfg, ← clocked_cfg t]
      exact fitCount_isWaitCount t.clocked 100
  · obtain ⟨t, _, hrun, ht⟩ := h.run_scans hn (fun j hj => hrst j (by omega)) (hhigh.mono (Nat.le_of_lt hn))
    exact ⟨t, hrun, ht.isScan⟩

/-! ### A scan that finds a key (R106, R110) -/

/-- A scan whose first low reading is that of key (r, c) takes it in that cycle. -/
theorem ScanStart.run_pressed {s : State} {r c : Nat} (h : ScanStart s) (hd : s.rowN = 0b1110) (hr : r < 4) (hc : c < 4)
    (hrst : NoReset (decideAt s.cfg r c + 1) s) (hhigh : HighBefore (decideAt s.cfg r c) s)
    (hlow : (s.sampled (decideAt s.cfg r c)).getLsbD c = false) :
    ∃ t : State, Sys2Proof.core.run (decideAt s.cfg r c + 1) s = .next t ∧ t.ph = .ksRel ∧ t.ksR.toNat = r ∧
      t.ksC.toNat = c ∧ t.rowN = ~~~(1#4 <<< r) ∧ ScanFrame (decideAt s.cfg r c + 1) s t := by
  rw [decideAt_eq] at hrst hhigh hlow ⊢
  obtain ⟨t, ht⟩ := h.reaches (k := s.cfg.settleCyc + c) hr (by rw [rowSpan]; omega) (fun j hj => hrst j (by omega)) hhigh
  have hoff := ht.offset
  rw [← ht.frame.settleCyc] at hoff
  obtain ⟨u, hstep, hu, hcol, hlast⟩ := hoff.step_pressed (ht.frame.noReset hrst 0 Nat.one_pos) (by rwa [ht.frame.sync2])
  exact ⟨u, (run_succ_of_run ht.run).trans hstep, hu, by rw [hlast.ksR, ht.row], hcol, by rw [hlast.rowN, ht.driven hd],
    ht.frame.trans hlast.frame⟩

/-! ### The keypad law (R109) -/

theorem matrixCols_getLsbD (closed : BitVec 16) (rowN : BitVec 4) {c : Nat} (hc : c < 4) :
    (matrixCols closed rowN).getLsbD c = matrixCol closed rowN c := by
  simp only [matrixCols, BitVec.getLsbD_append, BitVec.getLsbD_ofBool]
  interval_cases c <;> simp

/-- With row `a` alone driven a column shows the key of that row. -/
theorem matrixCol_drivenRow (closed : BitVec 16) {a : Nat} (ha : a < 4) (b : Nat) :
    matrixCol closed (~~~(1#4 <<< a)) b = !closed.getLsbD (4 * a + b) := by
  interval_cases a <;> simp [matrixCol, List.range_succ]

/-- With one key closed, the driven row's columns read low exactly at that key. -/
theorem matrixCols_oneKey {a b r c : Nat} (ha : a < 4) (hb : b < 4) (hr : r < 4) (hc : c < 4) :
    (matrixCols (1#16 <<< (4 * r + c)) (~~~(1#4 <<< a))).getLsbD b = !decide (4 * r + c = 4 * a + b) := by
  have hkey : 4 * r + c < 16 := by omega
  rw [matrixCols_getLsbD _ _ hb, matrixCol_drivenRow _ ha, ← BitVec.twoPow_eq, BitVec.getLsbD_twoPow, decide_eq_true hkey,
    Bool.true_and]

/-- With no key closed every column reads high. -/
theorem matrixCols_none (rowN : BitVec 4) {c : Nat} (hc : c < 4) : (matrixCols 0 rowN).getLsbD c = true := by
  rw [matrixCols_getLsbD _ _ hc]
  simp [matrixCol]

/-- The columns of a cycle on the matrix are those of the rows that the block drives in it. -/
theorem OnMatrix.colN {closed : Nat → BitVec 16} {n j : Nat} {s u : State} (h : OnMatrix closed n s) (hj : j < n)
    (hrun : Sys2Proof.core.run j s = .next u) : (s.pinsAt j).colN = matrixCols (closed j) u.rowN := by
  obtain ⟨v, hv, hcol⟩ := h j hj
  obtain rfl : v = u := Host.Outcome.next.inj (hv.symm.trans hrun)
  exact hcol

/-- A part of a run on the matrix, with the keys that are closed in it. -/
theorem OnMatrix.congr {closed closed' : Nat → BitVec 16} {m n : Nat} {s : State} (h : OnMatrix closed n s) (hm : m ≤ n)
    (hc : ∀ j < m, closed j = closed' j) : OnMatrix closed' m s := fun j hj => by
  rw [← hc j hj]
  exact h j (by omega)

/-- A cycle on the matrix with no key closed reads every column high. -/
theorem OnMatrix.colN_high {closed : Nat → BitVec 16} {n j c : Nat} {s : State} (h : OnMatrix closed n s) (hj : j < n)
    (hnone : closed j = 0) (hc : c < 4) : (s.pinsAt j).colN.getLsbD c = true := by
  obtain ⟨u, _, hcol⟩ := h j hj
  rw [hcol, hnone]
  exact matrixCols_none _ hc

theorem sampleAt_eq (p : Params) (r c : Nat) : sampleAt p r c = r * rowSpan p + (p.settleCyc + c - 2) := by
  have hpos := p.settleOk
  have hdecide := decideAt_eq_sampleAt p r c
  rw [decideAt_eq] at hdecide
  omega

/-- A scan from `s` on an ideal matrix with key (r, c) closed, and no other, in its first `m` cycles and for as long as it
takes to decide on that key. -/
structure OneKeyScan (s : State) (r c m : Nat) : Prop where
  start : ScanStart s
  driven : s.rowN = 0b1110
  row_lt : r < 4
  col_lt : c < 4
  lasts : decideAt s.cfg r c < m
  noReset : NoReset m s
  matrix : OnMatrix (fun _ => 1#16 <<< (4 * r + c)) m s

section
variable {s : State} {r c m : Nat} (h : OneKeyScan s r c m)
include h

/-- The one key reads low in every cycle that drives its row. -/
theorem OneKeyScan.colN_low {j : Nat} {u : State} (hj : j < m) (hrun : Sys2Proof.core.run j s = .next u)
    (hd : u.rowN = ~~~(1#4 <<< r)) : (s.pinsAt j).colN.getLsbD c = false := by
  rw [h.matrix.colN hj hrun, hd, matrixCols_oneKey h.row_lt h.col_lt h.row_lt h.col_lt]
  simp

/-- Every key decided on before the closed one reads high. -/
theorem OneKeyScan.highBefore {n : Nat} (hn : n ≤ decideAt s.cfg r c) : HighBefore n s := by
  have hlasts := h.lasts
  induction n with
  | zero => exact fun _ _ _ _ hlt => absurd hlt (Nat.not_lt_zero _)
  | succ n ih =>
    intro a ha b hb hlt
    have hsample := decideAt_eq_sampleAt s.cfg a b
    have hkey : 4 * a + b < 4 * r + c := (decideAt_lt_iff (p := s.cfg) hb h.col_lt).mp (by omega)
    have hhigh : HighBefore (sampleAt s.cfg a b) s := (ih (by omega)).mono (by omega)
    have hrst : NoReset (sampleAt s.cfg a b) s := fun j hj => h.noReset j (by omega)
    have hat := sampleAt_eq s.cfg a b
    rw [hat] at hhigh hrst
    obtain ⟨u, hu⟩ := h.start.reaches ha (by rw [rowSpan]; omega) hrst hhigh
    have hrun := hu.run
    rw [← hat] at hrun
    rw [sampled_decideAt, h.matrix.colN (by omega) hrun, hu.driven h.driven, matrixCols_oneKey ha hb h.row_lt h.col_lt]
    simp
    omega

/-- From its sample to the decision the key reads low: the scan is in its row. -/
theorem OneKeyScan.colN_low_of_le {i : Nat} (hi : sampleAt s.cfg r c ≤ i) (hle : i ≤ decideAt s.cfg r c) :
    (s.pinsAt i).colN.getLsbD c = false := by
  have hlasts := h.lasts
  have hcol := h.col_lt
  have hspan : rowSpan s.cfg = s.cfg.settleCyc + 4 := rfl
  have hdecide := decideAt_eq s.cfg r c
  have hsplit : r * rowSpan s.cfg + (i - r * rowSpan s.cfg) = i := by
    rw [sampleAt_eq] at hi
    omega
  obtain ⟨u, hu⟩ := h.start.reaches (k := i - r * rowSpan s.cfg) h.row_lt (by omega)
    (hsplit.symm ▸ fun j hj => h.noReset j (by omega)) (hsplit.symm ▸ h.highBefore hle)
  have hrun := hu.run
  rw [hsplit] at hrun
  exact h.colN_low (by omega) hrun (hu.driven h.driven)

/-- The key is taken in the cycle that decides on it. -/
theorem OneKeyScan.run_pressed :
    ∃ t : State, Sys2Proof.core.run (decideAt s.cfg r c + 1) s = .next t ∧ t.ph = .ksRel ∧ t.ksR.toNat = r ∧
      t.ksC.toNat = c ∧ t.rowN = ~~~(1#4 <<< r) ∧ ScanFrame (decideAt s.cfg r c + 1) s t := by
  have hsample := decideAt_eq_sampleAt s.cfg r c
  have hlasts := h.lasts
  refine h.start.run_pressed h.driven h.row_lt h.col_lt (fun j hj => h.noReset j (by omega)) (h.highBefore (Nat.le_refl _)) ?_
  rw [sampled_decideAt]
  exact h.colN_low_of_le (Nat.le_refl _) (by omega)

/-- KS_REL goes on, with the key's row driven, while the readings from the key's own on are low. -/
theorem OneKeyScan.run_holds {i : Nat} (hi : decideAt s.cfg r c < i) (hrst : NoReset i s)
    (hlow : ∀ j, sampleAt s.cfg r c ≤ j → j + 2 < i → (s.pinsAt j).colN.getLsbD c = false) :
    ∃ t : State, Sys2Proof.core.run i s = .next t ∧ t.ph = .ksRel ∧ t.ksR.toNat = r ∧ t.ksC.toNat = c ∧
      t.rowN = ~~~(1#4 <<< r) ∧ ScanFrame i s t := by
  have hsample := decideAt_eq_sampleAt s.cfg r c
  obtain ⟨n, rfl⟩ := Nat.exists_eq_add_of_lt hi
  rw [Nat.add_right_comm] at hrst hlow ⊢
  obtain ⟨t, hrun, hp, hr, hc, hd, hframe⟩ := h.run_pressed
  obtain ⟨u, hheld, hu, hcol, hrow⟩ := run_held (n := n) hp (hframe.noReset hrst) (fun j hj => by
    have hread : decideAt s.cfg r c + 1 + j = sampleAt s.cfg r c + 1 + j + 2 := by omega
    rw [hc, hframe.sampled, hread, sampled_add_two]
    exact hlow _ (by omega) (by omega))
  exact ⟨u, (core_run_add Sys2Proof.core _ _ hrun).trans hheld, hu, by rw [hrow.ksR, hr], by rw [hcol, hc],
    hrow.rowN.trans hd, hframe.trans hrow.frame⟩

/-- And it reads low for as long as it stays closed: KS_REL keeps its row driven. -/
theorem OneKeyScan.colN_low_from_sample {i : Nat} (hi : sampleAt s.cfg r c ≤ i) (him : i < m) :
    (s.pinsAt i).colN.getLsbD c = false := by
  induction i using Nat.strong_induction_on with
  | _ i ih =>
    by_cases hle : i ≤ decideAt s.cfg r c
    · exact h.colN_low_of_le hi hle
    · obtain ⟨t, hrun, _, _, _, hd, _⟩ := h.run_holds (i := i) (by omega) (fun j hj => h.noReset j (by omega))
        (fun j hj hlt => ih j (by omega) hj (by omega))
      exact h.colN_low him hrun hd

/-- Once the key is open, its release goes through the synchroniser in two cycles, and the next one dispatches the key. -/
theorem OneKeyScan.run_dispatch (hrst : NoReset (m + 3) s) (hopen : (s.pinsAt m).colN.getLsbD c = true) :
    ∃ t : State, Sys2Proof.core.run (m + 3) s = .next (t.clocked.dispatchKey (keyCodeOf t.ksR t.ksC)) ∧ t.ksR.toNat = r ∧
      t.ksC.toNat = c := by
  have hlasts := h.lasts
  obtain ⟨t, hrun, hp, hr, hc, _, hframe⟩ := h.run_holds (i := m + 2) (by omega) (fun j hj => hrst j (by omega))
    (fun j hj hlt => h.colN_low_from_sample hj (by omega))
  have hcol : t.column = true := by rwa [State.column, hc, hframe.sync2, sampled_add_two]
  exact ⟨t, (run_succ_of_run hrun).trans (step_ksRel_released hp (hframe.noReset hrst 0 Nat.one_pos) hcol), hr, hc⟩

end

/-- Every KEY code that the scanner makes names its key's character (R51, R71). -/
theorem keyChar_keyCodeOf (r c : BitVec 2) : keyChar (keyCodeOf r c) = some (layout r c) := by
  revert r c
  decide

/-- Settles O49: the row's lowest low column; the scan's first low reading; and, on the matrix, the one closed key, held
until its release is read. -/
theorem firstLowColumnWins : Obligations.FirstLowColumnWins := by
  refine ⟨?_, ?_, ?_⟩
  · intro s v c hp h0 hc hlow hhigh h2 h1 hrst hpins
    have hread := sampled_of_forall (P := fun x => x = v) h2 h1 hpins
    obtain ⟨t, hrun, ht, hcol, hframe⟩ := run_lowest_column hp h0 hc hrst
      (fun d hd => by rw [hread d (by omega)]; exact hhigh d hd) (by rw [hread c (by omega)]; exact hlow)
    exact ⟨t, hrun, ht, hframe.ksR, hcol, hframe.rowN⟩
  · intro s r c hp hksR hksC hd hfit hscnt hr hc hlow hhigh hrst
    have h : ScanStart s := ⟨hp, hksR, hksC, hfit, hscnt⟩
    have hbefore := highBefore_decideAt hc hhigh
    refine ⟨?_, fun n hn => ?_⟩
    · obtain ⟨t, hrun, ht, hrow, hcol, hdr, hframe⟩ := h.run_pressed hd hr hc hrst hbefore (by rwa [sampled_decideAt])
      exact ⟨t, hrun, ht, hrow, hcol, hdr, hframe.key⟩
    · obtain ⟨t, _, hrun, ht⟩ := h.run_scans (Nat.lt_of_le_of_lt hn (decideAt_lt_scan hr hc))
        (fun j hj => hrst j (by omega)) (hbefore.mono hn)
      exact ⟨t, hrun, ht.ph⟩
  · intro s r c m hp hksR hksC hd hfit hscnt hm hrst hmatrix
    have h : OneKeyScan s r.toNat c.toNat m := ⟨⟨hp, hksR, hksC, hfit, hscnt⟩, hd, r.isLt, c.isLt, hm,
      fun j hj => hrst j (by omega), hmatrix.congr (by omega) (fun _ hj => if_pos hj)⟩
    obtain ⟨t, hrun, hr, hc⟩ := h.run_dispatch hrst (hmatrix.colN_high (by omega) (if_neg (Nat.lt_irrefl m)) c.isLt)
    rw [BitVec.eq_of_toNat_eq hr, BitVec.eq_of_toNat_eq hc] at hrun
    exact ⟨_, hrun, rfl, rfl, rfl, rfl, rfl, rfl, keyChar_keyCodeOf r c⟩

end Sys2Proof.Machine
end

