-- ==== Sys2Proof/Proofs/Renderer.lean ====
section
/-! The frame renderer, cycle by cycle (spec 41_frame_renderer.md R120 to R126): the pixel function, the commands that start a
frame, the phases FR_EMIT, FR_STEP and FR_HOLD, and which cycles write the LED port. -/

namespace Sys2Proof.Machine

/-! ### The pixel function (R121) -/

/-- A colour exists exactly for the five indices and the 25 frame indices, as a word does (R52, R53, R57). -/
theorem px_isSome (p : Params) (kind : FrameKind) (idx i : Nat) :
    (px p kind idx i).isSome = (decide (idx ≤ 4) && decide (i ≤ 24)) := by
  rw [← pixWord_isSome, pixWord, Option.isSome_map]

theorem px_eq_none {p : Params} {kind : FrameKind} {idx i : Nat} (h : 4 < idx ∨ 24 < i) : px p kind idx i = none := by
  rw [← Option.not_isSome_iff_eq_none, px_isSome, Bool.and_eq_true, decide_eq_true_iff, decide_eq_true_iff]
  omega

/-- A fill has one colour at every frame index. -/
theorem px_fill (p : Params) (k : Nat) {i : Nat} (hi : i ≤ 24) : px p .fill k i = colorRom p k :=
  if_neg (Nat.not_lt.mpr hi)

/-- A letter has the letter colour where its glyph's bit is set, and elsewhere it is off. -/
theorem px_letter (p : Params) (g : Fin 5) {i : Nat} (hi : i ≤ 24) :
    px p .letter g.val i = some (if (p.glyph.get g).getLsbD i then p.letterColor else ⟨0, 0, 0⟩) := by
  rw [px, if_neg (Nat.not_lt.mpr hi), glyphRom, Vector.getElem?_eq_getElem g.isLt, Option.map_some, cellColor, params_off]
  rfl

theorem pixWord_fill {p : Params} {k i : Nat} {c : Rgb} (hc : colorRom p k = some c) (hi : i ≤ 24) :
    pixWord p .fill k i = some (packRgb p c) := by
  rw [pixWord, px_fill p k hi, hc, Option.map_some]

theorem pixWord_letter (p : Params) (g : Fin 5) {i : Nat} (hi : i ≤ 24) :
    pixWord p .letter g.val i =
      some (packRgb p (if (p.glyph.get g).getLsbD i then p.letterColor else ⟨0, 0, 0⟩)) := by
  rw [pixWord, px_letter p g hi, Option.map_some]

/-- Settles O10: the entries of the two tables, and no colour outside them. -/
theorem pixelFunctionReadsRoms : Obligations.PixelFunctionReadsRoms := by
  refine ⟨fun p i hi => ⟨?_, fun g => px_letter p g hi, fun k n hn => px_eq_none (.inl hn)⟩,
    fun p k n i hi => px_eq_none (.inr hi)⟩
  simp [px_fill p _ hi, colorRom]

/-! ### The commands that start a frame (R122, R123) -/

/-- A command word as the bits of its fields at their places (R73). -/
theorem mkCmd_eq_or (op : BitVec 3) (rsv : BitVec 5) (a : BitVec 8) (f d : BitVec 16) :
    mkCmd op rsv a f d =
      op.setWidth 48 <<< 45 ||| rsv.setWidth 48 <<< 40 ||| a.setWidth 48 <<< 32 ||| f.setWidth 48 <<< 16 ||| d.setWidth 48 := by
  refine BitVec.eq_of_getLsbD_eq fun i hi => ?_
  unfold mkCmd
  simp only [BitVec.getLsbD_or, BitVec.getLsbD_shiftLeft, BitVec.getLsbD_setWidth]
  grind

theorem startFrameOr_of_some {kind : FrameKind} {idx : BitVec 8} {s : State} {w : PixWord}
    (h : pixWord s.cfg kind idx.toNat 24 = some w) :
    startFrameOr kind idx s = s.startFrame kind (idx.setWidth 3) w := by
  rw [startFrameOr, h]

theorem startFrameOr_of_absent {kind : FrameKind} {idx : BitVec 8} {s : State} (h : 4 < idx.toNat) :
    startFrameOr kind idx s = s.raiseFault .reservedIndex := by
  obtain ⟨hle, _⟩ | ⟨_, heq⟩ := startFrameOr_spec kind idx s
  · omega
  · exact heq

theorem exec_fill_of_color {k : BitVec 8} {s : State} {c : Rgb} (hc : colorRom s.cfg k.toNat = some c) :
    exec (.fill k) s = .next (s.startFrame .fill (k.setWidth 3) (packRgb s.cfg c)) :=
  congrArg Host.Outcome.next (startFrameOr_of_some (pixWord_fill hc (Nat.le_refl 24)))

theorem exec_letter_of_glyph {g : BitVec 8} (h : g.toNat < 5) (s : State) :
    exec (.letter g) s = .next (s.startFrame .letter (g.setWidth 3)
      (packRgb s.cfg (if (s.cfg.glyph.get ⟨g.toNat, h⟩).getLsbD 24 then s.cfg.letterColor else ⟨0, 0, 0⟩))) :=
  congrArg Host.Outcome.next (startFrameOr_of_some (pixWord_letter s.cfg ⟨g.toNat, h⟩ (Nat.le_refl 24)))

/-- Settles O15: the word's two fields, and the frame's start or the model fault. -/
theorem fillStartsFrame : Obligations.FillStartsFrame := by
  intro k s
  refine ⟨congrArg Code.cmd (by simp [mkCmd_eq_or]), fun hk => ?_, fun hk =>
    congrArg Host.Outcome.next (startFrameOr_of_absent hk)⟩
  obtain ⟨c, hc⟩ := Option.isSome_iff_exists.mp ((colorRom_isSome s.cfg k.toNat).trans (decide_eq_true hk))
  exact ⟨c, hc, exec_fill_of_color hc⟩

/-- Settles O16: the word's two fields, and the frame's start or the model fault. -/
theorem letterStartsFrame : Obligations.LetterStartsFrame := fun g s =>
  ⟨congrArg Code.cmd (by simp [mkCmd_eq_or]), fun h => exec_letter_of_glyph h s, fun hg =>
    congrArg Host.Outcome.next (startFrameOr_of_absent hg)⟩

/-! ### FR_EMIT (R124) -/

/-- The phase that follows the last word of a frame. -/
def phaseAfterFrame (p : Params) : FrameKind → Phase
  | .fill => .frHold
  | .letter => match p.renderMode with
    | .single => .frHold
    | .replay => .frStep

/-- The milliseconds that it lasts. -/
def msAfterFrame (p : Params) : FrameKind → Nat
  | .fill => p.fillHoldMs
  | .letter => match p.renderMode with
    | .single => p.glyphHoldMs
    | .replay => 100

theorem frameDone_eq (s : State) : s.frameDone =
    { s with
      ledValid := false, dcnt := s.fitCount (msCycles s.cfg (msAfterFrame s.cfg s.frKind)),
      ph := phaseAfterFrame s.cfg s.frKind } := by
  unfold State.frameDone
  split
  case h_1 hk hm =>
    rw [params_replayStepMs, hk, msAfterFrame, phaseAfterFrame, hm]
    rfl
  case h_2 hk hm =>
    rw [hk, msAfterFrame, phaseAfterFrame, hm]
    rfl
  case h_3 hk =>
    rw [hk]
    rfl

/-- After the word of index 0 is accepted, none is pending, and the wait that follows the frame is loaded. -/
theorem step_frEmit_last {s : State} (hp : s.ph = .frEmit) (hr : s.pins.rst = false) (hl : s.pins.ledReady = true)
    (hn : s.frPix = 0) :
    ∃ v, IsWaitCount s.cfg (msAfterFrame s.cfg s.frKind) v ∧
      step s = .next { s.clocked with ledValid := false, dcnt := v, ph := phaseAfterFrame s.cfg s.frKind } := by
  rw [← clocked_cfg s, ← clocked_frKind s, step_frEmit_frameDone hp hr hl hn, frameDone_eq]
  exact ⟨_, fitCount_isWaitCount s.clocked _, rfl⟩

/-- Settles O29: the cycles of the phase, and after index 0 what follows each kind of frame. -/
theorem emitPhaseStep : Obligations.EmitPhaseStep := by
  intro s hr hp
  refine ⟨step_frEmit_notReady hp hr, fun hl hn hpix hidx => ?_, fun hl hn hk hm => ?_, fun hl hn hk hm => ?_,
    fun hl hn hk => ?_⟩
  · have hsome : (px s.cfg s.frKind s.frIdx.toNat (s.frPix.toNat - 1)).isSome = true := by
      rw [px_isSome, Bool.and_eq_true, decide_eq_true_iff, decide_eq_true_iff]
      omega
    obtain ⟨c, hc⟩ := Option.isSome_iff_exists.mp hsome
    exact ⟨c, hc, step_frEmit_nextWord hp hr hl hn (by rw [pixWord, hc, Option.map_some])⟩
  · simpa [hk, hm, msAfterFrame, phaseAfterFrame] using step_frEmit_last hp hr hl hn
  · simpa [hk, hm, msAfterFrame, phaseAfterFrame] using step_frEmit_last hp hr hl hn
  · simpa [hk, msAfterFrame, phaseAfterFrame] using step_frEmit_last hp hr hl hn

/-! ### FR_STEP (R125) -/

theorem leaveFrStep_done {s : State} (h : s.frRep = 24) :
    leaveFrStep s = .next { s with dcnt := s.fitCount (msCycles s.cfg 500), ph := .frHold } := by
  rw [leaveFrStep, if_pos h, params_replayTailMs]
  rfl

theorem leaveFrStep_replay {s : State} (hn : s.frRep.toNat < 24) {w : PixWord}
    (hw : pixWord s.cfg .letter s.frIdx.toNat 24 = some w) :
    leaveFrStep s =
      .next { s with frRep := s.frRep + 1, frPix := 24, ledWord := w, ledValid := true, ph := .frEmit } := by
  have hne : s.frRep ≠ 24 := by bv_omega
  have hfit : s.fit 5 (s.frRep.toNat + 1) = s.frRep + 1 :=
    BitVec.eq_of_toNat_eq (by rw [fit_toNat s (by omega)]; bv_omega)
  rw [leaveFrStep, if_neg hne, hw, hfit]

theorem step_frStep_exit {s : State} (hp : s.ph = .frStep) (hr : s.pins.rst = false) (hd : s.dcnt.toNat ≤ 1) :
    step s = leaveFrStep s.clocked := by
  rw [step_of_isWait_of_le (by rw [hp]; rfl) hr hd, hp]
  rfl

/-- Settles O30: the exit's two branches. -/
theorem replayStepExit : Obligations.ReplayStepExit := by
  intro s hr hp hd
  rw [step_frStep_exit hp hr hd]
  refine ⟨fun hn => ⟨s.clocked.fitCount (msCycles s.clocked.cfg 500), ?_, ?_⟩, fun hn h => ?_⟩
  · rw [← clocked_cfg s]
    exact fitCount_isWaitCount s.clocked 500
  · exact leaveFrStep_done ((clocked_frRep s).trans hn)
  · have hw := pixWord_letter s.cfg ⟨s.frIdx.toNat, h⟩ (Nat.le_refl 24)
    rw [leaveFrStep_replay (by rwa [clocked_frRep]) (by rwa [clocked_cfg, clocked_frIdx]), clocked_frRep]

/-! ### FR_HOLD (R126) and PAUSE_W (R174) -/

/-- Settles O31: both exits are the next command. -/
theorem holdAndPauseExit : Obligations.HoldAndPauseExit := by
  intro s hr hp hd
  have hstep : step s = .next s.clocked.nextCommand := by
    rcases hp with hp | hp <;> rw [step_of_isWait_of_le (by rw [hp]; rfl) hr hd, hp] <;> rfl
  have hnext := nextCommand_isNextIndex s.clocked
  rw [clocked_apc] at hnext
  exact ⟨_, hnext, hstep⟩

/-! ### Who writes the LED port (R120) -/

/-- The LED port reads the same in both states. -/
def SameLeds (s t : State) : Prop := t.ledValid = s.ledValid ∧ t.ledWord = s.ledWord

theorem clocked_sameLeds (s : State) : SameLeds s s.clocked := ⟨clocked_ledValid s, clocked_ledWord s⟩

theorem SameLeds.trans {s t u : State} (h : SameLeds s t) (h' : SameLeds t u) : SameLeds s u := by
  obtain ⟨hv, hw⟩ := h
  obtain ⟨hv', hw'⟩ := h'
  exact ⟨hv'.trans hv, hw'.trans hw⟩

/-- A command other than FILL and LETTER leaves the port as it was. -/
theorem CommandMove.sameLeds {c t : State} {i : Instr} (hm : CommandMove c i t) :
    SameLeds c t ∨ (∃ k, i = .fill k) ∨ ∃ g, i = .letter g := by
  cases hm with
  | startsFill => exact .inr (.inl ⟨_, rfl⟩)
  | startsLetter => exact .inr (.inr ⟨_, rfl⟩)
  | ends | beepsNone | beeps | plays | noLetter | noColor | pauses | reboots | reserved => exact .inl ⟨rfl, rfl⟩

/-- A cycle that is no renderer's leaves it as it was. -/
theorem Move.sameLeds {s t : State} (hm : Move s t) :
    SameLeds s t ∨ s.ph = .frEmit ∨ s.ph = .frStep ∨
      s.ph = .dispFetch ∧ ∃ w, s.command = some w ∧ ((∃ k, decodeCmd w = .fill k) ∨ ∃ g, decodeCmd w = .letter g) := by
  have hc := clocked_sameLeds s
  cases hm with
  | nextWord hp | frameDone hp => exact .inr (.inl hp)
  | replays hp => exact .inr (.inr (.inl hp))
  | fetches hp hw hm =>
    obtain hsame | hstarts := hm.sameLeds
    · exact .inl (hc.trans hsame)
    · exact .inr (.inr (.inr ⟨hp, _, hw, hstarts⟩))
  | waits | scanStarts | settles | settled | pressed | nextColumn | nextRow | noKey | held | released | overruns | beepEnds
  | beepsAgain | noteEnds | nextNote | commandDone | notReady | replayed | stops => exact .inl hc

/-- Settles O43: without a reset a step is a move. -/
theorem onlyRendererWritesLeds : Obligations.OnlyRendererWritesLeds := by
  intro s t hr hstep hne
  obtain ⟨hrst, _⟩ | ⟨_, hm⟩ := step_moves hstep
  · rw [hr] at hrst
    cases hrst
  · obtain ⟨hv, hw⟩ | hrenders := hm.sameLeds
    · exact absurd hne (by simp [hv, hw])
    · exact hrenders

end Sys2Proof.Machine
end

