-- ==== Sys2Proof/Proofs/Traces.lean ====
section
/-! Runs and traces in parts (spec 00_scope.md R8, R9): a trace goes on from the state that a run's first part reaches, with
the input levels that are left, and a wait of at least a millisecond takes its count of cycles. -/

namespace Sys2Proof.Machine

/-! ### Traces -/

@[simp] theorem cycleTrace_one {α : Type} (f : State → α) (s : State) : cycleTrace f 1 s = [f s] := by
  rw [cycleTrace]
  cases step s <;> rfl

/-- A trace goes on from the state that its first part reaches. -/
theorem cycleTrace_add {α : Type} (f : State → α) {n : Nat} (m : Nat) {s t : State}
    (h : Sys2Proof.core.run n s = .next t) : cycleTrace f (n + m) s = cycleTrace f n s ++ cycleTrace f m t := by
  induction n generalizing s with
  | zero =>
    obtain rfl : s = t := Host.Outcome.next.inj h
    rw [Nat.zero_add, cycleTrace_zero, List.nil_append]
  | succ n ih =>
    cases hs : Sys2Proof.core.step s with
    | next u =>
      rw [run_succ n hs] at h
      rw [Nat.add_right_comm, cycleTrace_succ f (n + m) hs, cycleTrace_succ f n hs, ih h, List.cons_append]
    | fault r => simp [Host.Core.run, hs] at h
    | refused r => simp [Host.Core.run, hs] at h

/-- A trace that reads one value in every state of the run. -/
theorem cycleTrace_eq_replicate {α : Type} {f : State → α} {a : α} {n : Nat} {s : State}
    (h : ∀ j < n, ∃ t : State, Sys2Proof.core.run j s = .next t ∧ f t = a) : cycleTrace f n s = List.replicate n a := by
  induction n with
  | zero => rfl
  | succ n ih =>
    obtain ⟨t, hrun, ht⟩ := h n n.lt_succ_self
    rw [cycleTrace_add f 1 hrun, ih fun j hj => h j (by omega), cycleTrace_one, ht, List.replicate_succ']

theorem reduceOption_map_some {α : Type} (l : List α) : (l.map some).reduceOption = l := by
  rw [List.reduceOption, List.filterMap_map]
  exact List.filterMap_some

/-- Where a trace is one cycle without a word and then a word in every cycle, those are the accepted words. -/
theorem ledWords_of_trace {n : Nat} {s : State} {l : List PixWord}
    (h : cycleTrace State.ledAccepted n s = none :: l.map some) : ledWords n s = l := by
  rw [ledWords, h, List.reduceOption_cons_of_none, reduceOption_map_some]

/-! ### Input levels -/

/-- A run's later part has no reset if the whole has none. -/
theorem NoReset.after {n m : Nat} {s t : State} (hr : NoReset (n + m) s) (hp : ∀ j, t.pinsAt j = s.pinsAt (n + j)) :
    NoReset m t := fun j hj => by
  rw [hp]
  exact hr (n + j) (by omega)

theorem LedReady.after {n m : Nat} {s t : State} (hl : LedReady (n + m) s) (hp : ∀ j, t.pinsAt j = s.pinsAt (n + j)) :
    LedReady m t := fun j hj => by
  rw [hp]
  exact hl (n + j) (by omega)

theorem NoReset.mono {n m : Nat} {s : State} (hr : NoReset n s) (h : m ≤ n) : NoReset m s := fun j hj => hr j (by omega)

theorem LedReady.mono {n m : Nat} {s : State} (hl : LedReady n s) (h : m ≤ n) : LedReady m s := fun j hj => hl j (by omega)

/-! ### Waits -/

theorem ticks_pos (p : Params) : 0 < p.clkHz / 1000 := by
  obtain ⟨hpos, hmul⟩ := p.clkOk
  omega

/-- A wait of at least a millisecond takes its count. -/
theorem waitSpan_of_pos (p : Params) {ms : Nat} (h : 0 < ms) : waitSpan p ms = ms * (p.clkHz / 1000) :=
  Nat.max_eq_right (Nat.mul_pos h (ticks_pos p))

end Sys2Proof.Machine
end

