-- ==== Sys2Proof/Proofs/FrameSpans.lean ====
section
/-! Whole FILL and LETTER commands with the LED channel ready (spec 41_frame_renderer.md R124 to R128). A command is the
cycle that fetches it, its frames of 25 words, each followed by a wait, and the hold, which ends in the next command. Each
part is a run with the words that the channel accepts in it, and a command is put together from them. -/

namespace Sys2Proof.Machine

/-! ### What the renderer leaves as it was -/

/-- `t` is `s` after `n` cycles of a FILL or LETTER, but for the phase, the delay counter, the renderer's own registers, the
synchroniser, the PWM counter and the log pulse. -/
def RenderFrame (n : Nat) (s t : State) : Prop :=
  t = { s with
    ph := t.ph, dcnt := t.dcnt, frKind := t.frKind, frIdx := t.frIdx, frPix := t.frPix, frRep := t.frRep,
    ledValid := t.ledValid, ledWord := t.ledWord, sync1 := t.sync1, sync2 := t.sync2, pwmCnt := t.pwmCnt,
    pwmFrac := t.pwmFrac, logValid := t.logValid, inputs := s.inputs.drop n, cycle := s.cycle + n }

theorem RenderFrame.refl (s : State) : RenderFrame 0 s s := rfl

theorem WaitFrame.renderFrame {n : Nat} {s t : State} (h : WaitFrame n s t) : RenderFrame n s t := by
  unfold RenderFrame
  rw [h]

theorem EmitFrame.renderFrame {n : Nat} {s t : State} (h : EmitFrame n s t) : RenderFrame n s t := by
  unfold RenderFrame
  rw [h]

section
variable {n : Nat} {s t : State} (h : RenderFrame n s t)
include h

theorem RenderFrame.cfg : t.cfg = s.cfg := (congrArg State.cfg h :)
theorem RenderFrame.key : t.key = s.key := (congrArg State.key h :)
theorem RenderFrame.apc : t.apc = s.apc := (congrArg State.apc h :)
theorem RenderFrame.pwmLevel : t.pwmLevel = s.pwmLevel := (congrArg State.pwmLevel h :)

theorem RenderFrame.pinsAt (j : Nat) : t.pinsAt j = s.pinsAt (n + j) :=
  pinsAt_of_drop (congrArg State.inputs h :) (congrArg State.cycle h :) j

theorem RenderFrame.trans {m : Nat} {u : State} (h' : RenderFrame m t u) : RenderFrame (n + m) s u := by
  refine Eq.trans h' ?_
  rw [h]
  simp [Nat.add_assoc]

/-- A cycle more, of the always-running part. -/
theorem RenderFrame.clocked : RenderFrame (n + 1) s t.clocked := by
  refine h.trans ?_
  unfold RenderFrame
  rw [clocked_eq]
  simp

/-- The frame does not read what the renderer writes. -/
theorem RenderFrame.set (p : Phase) (d : BitVec 48) (k : FrameKind) (x : BitVec 3) (i r : BitVec 5) (v : Bool) (w : PixWord) :
    RenderFrame n s { t with
      ph := p, dcnt := d, frKind := k, frIdx := x, frPix := i, frRep := r, ledValid := v, ledWord := w } :=
  (congrArg (fun u : State => { u with
    ph := p, dcnt := d, frKind := k, frIdx := x, frPix := i, frRep := r, ledValid := v, ledWord := w }) h :)

end

/-! ### Parts of a command -/

/-- From `s` the renderer comes to `t` in `n` cycles, in which the channel accepts `l`. -/
structure LedRun (n : Nat) (l : List (Option PixWord)) (s t : State) : Prop where
  run : Sys2Proof.core.run n s = .next t
  trace : cycleTrace State.ledAccepted n s = l
  frame : RenderFrame n s t

theorem LedRun.trans {n m : Nat} {l l' : List (Option PixWord)} {s t u : State} (h : LedRun n l s t)
    (h' : LedRun m l' t u) : LedRun (n + m) (l ++ l') s u where
  run := (core_run_add Sys2Proof.core n m h.run).trans h'.run
  trace := by rw [cycleTrace_add _ m h.run, h.trace, h'.trace]
  frame := h.frame.trans h'.frame

/-- The build's parameters, and the frame that the registers name: its kind, its index and its replay count. -/
structure FrameRegs (p : Params) (kind : FrameKind) (idx r : Nat) (s : State) : Prop where
  cfg : s.cfg = p
  kind : s.frKind = kind
  idx : s.frIdx.toNat = idx
  rep : s.frRep.toNat = r

section
variable {p : Params} {kind : FrameKind} {idx r : Nat} {n : Nat} {s t : State}

theorem FrameRegs.clocked (h : FrameRegs p kind idx r s) : FrameRegs p kind idx r s.clocked := by
  obtain ⟨hcfg, hkind, hidx, hrep⟩ := h
  exact ⟨by simpa using hcfg, by simpa using hkind, by simpa using hidx, by simpa using hrep⟩

theorem FrameRegs.of_waitFrame (h : FrameRegs p kind idx r s) (hf : WaitFrame n s t) : FrameRegs p kind idx r t := by
  rw [hf]
  exact ⟨h.cfg, h.kind, h.idx, h.rep⟩

theorem FrameRegs.of_emitFrame (h : FrameRegs p kind idx r s) (hf : EmitFrame n s t) : FrameRegs p kind idx r t := by
  rw [hf]
  exact ⟨h.cfg, h.kind, h.idx, h.rep⟩

end

/-- A wait of `ms` milliseconds begins in the phase `q`, with no word pending. -/
structure WaitBegins (q : Phase) (ms : Nat) (s : State) : Prop where
  ph : s.ph = q
  count : s.dcnt.toNat = ms * (s.cfg.clkHz / 1000)
  dark : s.ledValid = false

/-- With no word pending the channel accepts none. -/
theorem ledAccepted_of_dark {s : State} (h : s.ledValid = false) : s.ledAccepted = none := by
  simp [State.ledAccepted, h]

/-! ### The fetch -/

/-- A command fetched in DISP_FETCH is carried out on top of the always-running part (R171, R203). -/
theorem step_dispFetch {s : State} {w : Cmd} (hp : s.ph = .dispFetch) (hr : s.pins.rst = false)
    (hc : s.command = some w) : step s = exec (decodeCmd w) s.clocked := by
  rw [step_of_run hr]
  simp only [turn, hp, dispFetchTurn, hc, runTurn]

/-- A frame starts on the word of index 24, with no replay counted. -/
theorem startFrame_offersPixel {s : State} {kind : FrameKind} {idx : BitVec 8} {x : PixWord}
    (hx : pixWord s.cfg kind idx.toNat 24 = some x) :
    OffersPixel (s.startFrame kind (idx.setWidth 3) x) 24 ∧
      FrameRegs s.cfg kind idx.toNat 0 (s.startFrame kind (idx.setWidth 3) x) := by
  have hle : idx.toNat ≤ 4 := by
    have hsome := pixWord_isSome s.cfg kind idx.toNat 24
    simpa [hx] using hsome
  have hidx : (idx.setWidth 3).toNat = idx.toNat := by
    rw [BitVec.toNat_setWidth]
    omega
  exact ⟨⟨rfl, rfl, rfl, by rwa [startFrame_frIdx, hidx], by rwa [startFrame_frIdx, hidx]⟩, rfl, rfl, hidx, rfl⟩

/-- The cycle that fetches a command which starts a frame. -/
theorem ledRun_startFrame {s : State} {kind : FrameKind} {idx : BitVec 8} {x : PixWord} (hv : s.ledValid = false)
    (hx : pixWord s.cfg kind idx.toNat 24 = some x)
    (hstep : step s = .next (s.clocked.startFrame kind (idx.setWidth 3) x)) :
    ∃ t, LedRun 1 [none] s t ∧ OffersPixel t 24 ∧ FrameRegs s.cfg kind idx.toNat 0 t := by
  rw [← clocked_cfg s] at hx ⊢
  refine ⟨_, ⟨(core_run_one Sys2Proof.core s).trans hstep, ?_, ?_⟩, startFrame_offersPixel hx⟩
  · rw [cycleTrace_one, ledAccepted_of_dark hv]
  · exact (RenderFrame.refl s).clocked.set _ _ _ _ _ _ _ _

theorem ledRun_fill {s : State} {w : Cmd} {k : BitVec 8} {c : Rgb} (hp : s.ph = .dispFetch) (hr : s.pins.rst = false)
    (hw : s.command = some w) (hk : decodeCmd w = .fill k) (hc : colorRom s.cfg k.toNat = some c) (hv : s.ledValid = false) :
    ∃ t, LedRun 1 [none] s t ∧ OffersPixel t 24 ∧ FrameRegs s.cfg .fill k.toNat 0 t := by
  refine ledRun_startFrame hv (pixWord_fill hc (Nat.le_refl 24)) ?_
  rw [step_dispFetch hp hr hw, hk, exec_fill_of_color (by rwa [clocked_cfg]), clocked_cfg]

theorem ledRun_letter {s : State} {w : Cmd} {g : BitVec 8} (h : g.toNat < 5) (hp : s.ph = .dispFetch)
    (hr : s.pins.rst = false) (hw : s.command = some w) (hg : decodeCmd w = .letter g) (hv : s.ledValid = false) :
    ∃ t, LedRun 1 [none] s t ∧ OffersPixel t 24 ∧ FrameRegs s.cfg .letter g.toNat 0 t := by
  refine ledRun_startFrame hv (pixWord_letter s.cfg ⟨g.toNat, h⟩ (Nat.le_refl 24)) ?_
  rw [step_dispFetch hp hr hw, hg, exec_letter_of_glyph h, clocked_cfg]

/-! ### A frame -/

/-- What the channel accepts during a frame: the words of frame indices 24 down to 0. -/
def frameWords (p : Params) (kind : FrameKind) (idx : Nat) : List (Option PixWord) :=
  (List.range 25).map fun j => pixWord p kind idx (24 - j)

theorem frameWords_fill {p : Params} {k : Nat} {c : Rgb} (hc : colorRom p k = some c) :
    frameWords p .fill k = (List.replicate 25 (packRgb p c)).map some := by
  rw [List.map_replicate, frameWords, List.eq_replicate_iff]
  exact ⟨by simp, List.forall_mem_map.mpr fun j _ => pixWord_fill hc (Nat.sub_le 24 j)⟩

theorem frameWords_letter (p : Params) (g : Fin 5) : frameWords p .letter g.val = (letterFrame p g).map some := by
  rw [frameWords, letterFrame, List.map_map]
  exact List.map_congr_left fun j _ => pixWord_letter p g (Nat.sub_le 24 j)

/-- After its last word the frame's own wait begins, with the frame's registers as they were (R124). -/
theorem FrameRegs.frameDone {p : Params} {kind : FrameKind} {idx r : Nat} {s : State} (h : FrameRegs p kind idx r s)
    (hfit : WaitFits p (msAfterFrame p kind)) :
    WaitBegins (phaseAfterFrame p kind) (msAfterFrame p kind) s.frameDone ∧ FrameRegs p kind idx r s.frameDone := by
  obtain ⟨rfl, rfl, hidx, hrep⟩ := h
  rw [frameDone_eq]
  exact ⟨⟨rfl, fitCount_isWaitCount s _ hfit, rfl⟩, rfl, rfl, hidx, hrep⟩

theorem RenderFrame.frameDone {n : Nat} {s t : State} (h : RenderFrame n s t) : RenderFrame n s t.frameDone := by
  rw [frameDone_eq]
  exact h.set _ _ _ _ _ _ _ _

/-- A frame takes 25 cycles, and then the wait of its kind begins. -/
theorem OffersPixel.ledRun_frame {p : Params} {kind : FrameKind} {idx r : Nat} {s : State} (h : OffersPixel s 24)
    (hregs : FrameRegs p kind idx r s) (hfit : WaitFits p (msAfterFrame p kind)) (hr : NoReset 25 s) (hl : LedReady 25 s) :
    ∃ t, LedRun 25 (frameWords p kind idx) s t ∧ WaitBegins (phaseAfterFrame p kind) (msAfterFrame p kind) t ∧
      FrameRegs p kind idx r t := by
  obtain ⟨u, hframe, hrun⟩ := h.run_frameDone hr hl
  have htrace := h.ledTrace hr hl
  rw [hregs.cfg, hregs.kind, hregs.idx] at htrace
  exact ⟨_, ⟨hrun, htrace, hframe.renderFrame.clocked.frameDone⟩, (hregs.of_emitFrame hframe).clocked.frameDone hfit⟩

/-! ### A wait -/

/-- During a wait no word is accepted, and its last cycle is its phase's exit. -/
theorem WaitBegins.run_exit {p : Params} {kind : FrameKind} {idx r : Nat} {q : Phase} {ms : Nat} {s : State}
    (h : WaitBegins q ms s) (hq : isWait q = true) (hregs : FrameRegs p kind idx r s) (hr : NoReset (waitSpan p ms) s) :
    ∃ c, Sys2Proof.core.run (waitSpan p ms) s = waitExit q c ∧
      cycleTrace State.ledAccepted (waitSpan p ms) s = List.replicate (waitSpan p ms) none ∧
      RenderFrame (waitSpan p ms) s c ∧ FrameRegs p kind idx r c ∧ c.ledValid = false := by
  have hw : isWait s.ph = true := by rwa [h.ph]
  have hspan : waitSpan p ms = max 1 s.dcnt.toNat := by rw [waitSpan, h.count, hregs.cfg]
  rw [hspan] at hr ⊢
  obtain ⟨u, hframe, _, hrun⟩ := run_wait_to_exit hw hr
  rw [h.ph] at hrun
  refine ⟨u.clocked, hrun, cycleTrace_eq_replicate fun j hj => ?_, ?_, (hregs.of_waitFrame hframe).clocked, ?_⟩
  · obtain ⟨t, ht, _, _, hinside⟩ := run_inside_wait hw hj (hr.mono (Nat.le_of_lt hj))
    exact ⟨t, ht, ledAccepted_of_dark ((congrArg State.ledValid hinside).trans h.dark)⟩
  · have hc := hframe.renderFrame.clocked
    rwa [Nat.sub_add_cancel (Nat.le_max_left ..)] at hc
  · rw [clocked_ledValid]
    exact (congrArg State.ledValid hframe).trans h.dark

/-- A part of a command that a wait follows, up to the wait's exit. -/
theorem LedRun.then_wait {p : Params} {kind : FrameKind} {idx r n ms : Nat} {q : Phase} {l : List (Option PixWord)}
    {s t : State} (h : LedRun n l s t) (hw : WaitBegins q ms t) (hq : isWait q = true) (hregs : FrameRegs p kind idx r t)
    (hr : NoReset (n + waitSpan p ms) s) :
    ∃ c, Sys2Proof.core.run (n + waitSpan p ms) s = waitExit q c ∧
      cycleTrace State.ledAccepted (n + waitSpan p ms) s = l ++ List.replicate (waitSpan p ms) none ∧
      RenderFrame (n + waitSpan p ms) s c ∧ FrameRegs p kind idx r c ∧ c.ledValid = false := by
  obtain ⟨c, hrun, htrace, hframe, hc, hdark⟩ := hw.run_exit hq hregs (hr.after h.frame.pinsAt)
  exact ⟨c, (core_run_add Sys2Proof.core _ _ h.run).trans hrun, by rw [cycleTrace_add _ _ h.run, h.trace, htrace],
    h.frame.trans hframe, hc, hdark⟩

/-- The command that `s` fetches is done, and the next one of the same program is to be fetched in `t`, with no word pending
and the audio level as it was. -/
def CommandDone (s t : State) : Prop :=
  t.ph = .dispFetch ∧ t.apc.toNat = s.apc.toNat + 1 ∧ t.key = s.key ∧ t.ledValid = false ∧ t.pwmLevel = s.pwmLevel

/-- The hold's exit ends the command (R126). -/
theorem RenderFrame.nextCommand {n : Nat} {s c : State} (h : RenderFrame n s c) (hapc : s.apc.toNat < 15)
    (hdark : c.ledValid = false) : CommandDone s c.nextCommand := by
  have hnext := nextCommand_isNextIndex c
  rw [h.apc] at hnext
  exact ⟨rfl, hnext hapc, h.key, hdark, h.pwmLevel⟩

/-! ### The replays of a letter (R125) -/

/-- The cycles of one replay: the frame, and its step of 100 ms. -/
def replaySpan (p : Params) : Nat := 25 + waitSpan p 100

/-- What the channel accepts in them. -/
def replayWords (p : Params) (g : Fin 5) : List (Option PixWord) :=
  (letterFrame p g).map some ++ List.replicate (waitSpan p 100) none

section
variable {p : Params} {g : Fin 5} {r n : Nat} {s c : State}

/-- A replay, up to the exit of its step. -/
theorem OffersPixel.run_replay (h : OffersPixel s 24) (hregs : FrameRegs p .letter g.val r s) (hm : p.renderMode = .replay)
    (hfit : WaitFits p 100) (hr : NoReset (replaySpan p) s) (hl : LedReady (replaySpan p) s) :
    ∃ c, Sys2Proof.core.run (replaySpan p) s = leaveFrStep c ∧
      cycleTrace State.ledAccepted (replaySpan p) s = replayWords p g ∧
      RenderFrame (replaySpan p) s c ∧ FrameRegs p .letter g.val r c ∧ c.ledValid = false := by
  have hms : msAfterFrame p .letter = 100 := by rw [msAfterFrame, hm]
  have hph : phaseAfterFrame p .letter = .frStep := by rw [phaseAfterFrame, hm]
  obtain ⟨t, hrun, hwait, ht⟩ := h.ledRun_frame hregs (by rwa [hms]) (hr.mono (Nat.le_add_right ..))
    (hl.mono (Nat.le_add_right ..))
  rw [hms, hph] at hwait
  rw [frameWords_letter] at hrun
  exact hrun.then_wait hwait rfl ht hr

/-- Before the last replay the step's exit starts the next one. -/
theorem FrameRegs.leaveFrStep_again (h : FrameRegs p .letter g.val r c) (hframe : RenderFrame n s c) (hlt : r < 24) :
    ∃ t, leaveFrStep c = .next t ∧ RenderFrame n s t ∧ OffersPixel t 24 ∧ FrameRegs p .letter g.val (r + 1) t := by
  obtain ⟨rfl, hkind, hidx, hrep⟩ := h
  have hle : c.frIdx.toNat ≤ 4 := by omega
  have hnext : (c.frRep + 1).toNat = r + 1 := by bv_omega
  have hw := pixWord_letter c.cfg g (Nat.le_refl 24)
  rw [← hidx] at hw
  exact ⟨_, leaveFrStep_replay (by omega) hw, hframe.set _ _ _ _ _ _ _ _, ⟨rfl, rfl, rfl, hle, by rwa [← hkind] at hw⟩,
    rfl, hkind, hidx, hnext⟩

/-- After the last replay it begins the hold of 500 ms. -/
theorem FrameRegs.leaveFrStep_last (h : FrameRegs p .letter g.val 24 c) (hframe : RenderFrame n s c) (hfit : WaitFits p 500)
    (hdark : c.ledValid = false) :
    ∃ t, leaveFrStep c = .next t ∧ RenderFrame n s t ∧ WaitBegins .frHold 500 t ∧ FrameRegs p .letter g.val 24 t := by
  obtain ⟨rfl, hkind, hidx, hrep⟩ := h
  exact ⟨_, leaveFrStep_done (BitVec.eq_of_toNat_eq hrep), hframe.set _ _ _ _ _ _ _ _,
    ⟨rfl, fitCount_isWaitCount c _ hfit, hdark⟩, rfl, hkind, hidx, hrep⟩

/-- With `m` replays to come after this one, the hold begins `m + 1` replays later. -/
theorem OffersPixel.ledRun_replays {m : Nat} (h : OffersPixel s 24) (hregs : FrameRegs p .letter g.val r s)
    (hcount : r + m = 24) (hm : p.renderMode = .replay) (hfit : WaitFits p 500) (hr : NoReset ((m + 1) * replaySpan p) s)
    (hl : LedReady ((m + 1) * replaySpan p) s) :
    ∃ t, LedRun ((m + 1) * replaySpan p) (List.replicate (m + 1) (replayWords p g)).flatten s t ∧
      WaitBegins .frHold 500 t ∧ FrameRegs p .letter g.val 24 t := by
  have hfit' : WaitFits p 100 := by
    unfold WaitFits at *
    omega
  induction m generalizing r s with
  | zero =>
    obtain rfl : r = 24 := hcount
    rw [Nat.zero_add, Nat.one_mul] at hr hl ⊢
    obtain ⟨c, hrun, htrace, hframe, hc, hdark⟩ := h.run_replay hregs hm hfit' hr hl
    obtain ⟨t, hexit, hkept, hwait, ht⟩ := hc.leaveFrStep_last hframe hfit hdark
    exact ⟨t, ⟨hrun.trans hexit, by simpa using htrace, hkept⟩, hwait, ht⟩
  | succ m ih =>
    have hsplit : (m + 1 + 1) * replaySpan p = replaySpan p + (m + 1) * replaySpan p := by
      rw [Nat.succ_mul, Nat.add_comm]
    rw [hsplit] at hr hl ⊢
    obtain ⟨c, hrun, htrace, hframe, hc, hdark⟩ := h.run_replay hregs hm hfit' (hr.mono (Nat.le_add_right ..))
      (hl.mono (Nat.le_add_right ..))
    obtain ⟨t, hexit, hkept, hoffer, ht⟩ := hc.leaveFrStep_again hframe (by omega)
    have hfirst : LedRun (replaySpan p) (replayWords p g) s t := ⟨hrun.trans hexit, htrace, hkept⟩
    obtain ⟨u, hrest, hu⟩ := ih hoffer ht (by omega) (hr.after hfirst.frame.pinsAt) (hl.after hfirst.frame.pinsAt)
    exact ⟨u, hfirst.trans hrest, hu⟩

end

/-! ### The commands (R127, R128) -/

/-- A command of one frame: the fetch, the words, the hold, and the next command. -/
theorem LedRun.oneFrame {kind : FrameKind} {idx ms : Nat} {l : List PixWord} {s t : State} (h : LedRun 1 [none] s t)
    (hoffer : OffersPixel t 24) (hregs : FrameRegs s.cfg kind idx 0 t) (hph : phaseAfterFrame s.cfg kind = .frHold)
    (hms : msAfterFrame s.cfg kind = ms) (hwords : frameWords s.cfg kind idx = l.map some) (hapc : s.apc.toNat < 15)
    (hfit : WaitFits s.cfg ms) (hr : NoReset (26 + waitSpan s.cfg ms) s) (hl : LedReady 26 s) :
    ledWords 26 s = l ∧
    cycleTrace State.ledAccepted (26 + waitSpan s.cfg ms) s =
      none :: (l.map some ++ List.replicate (waitSpan s.cfg ms) none) ∧
    ∃ u, Sys2Proof.core.run (26 + waitSpan s.cfg ms) s = .next u ∧ CommandDone s u := by
  subst hms
  have hframe := NoReset.after (n := 1) (m := 25) (hr.mono (by omega)) h.frame.pinsAt
  have hready := LedReady.after (n := 1) (m := 25) hl h.frame.pinsAt
  obtain ⟨v, hrun, hwait, hv⟩ := hoffer.ledRun_frame hregs hfit hframe hready
  rw [hph] at hwait
  rw [hwords] at hrun
  have hshown : LedRun 26 (none :: l.map some) s v := h.trans hrun
  obtain ⟨c, hexit, htrace, hkept, _, hdark⟩ := hshown.then_wait hwait rfl hv hr
  exact ⟨ledWords_of_trace hshown.trace, htrace, c.nextCommand, hexit, hkept.nextCommand hapc hdark⟩

/-- Settles O52: one frame of one colour. -/
theorem fillSpan : Obligations.FillSpan := by
  intro s w k c hp hw hk hc hv hapc hfit hr hl
  obtain ⟨t, h, hoffer, hregs⟩ := ledRun_fill hp (hr 0 (by omega)) hw hk hc hv
  obtain ⟨hwords, _, hnext⟩ := h.oneFrame hoffer hregs rfl rfl (frameWords_fill hc) hapc hfit hr hl
  exact ⟨hwords, hnext⟩

/-- The cycles of a LETTER in REPLAY mode (R127). -/
theorem replay_letter_cycles (p : Params) :
    1 + 25 * replaySpan p + waitSpan p 500 = 626 + 3000 * (p.clkHz / 1000) := by
  rw [replaySpan, waitSpan_of_pos p (by decide), waitSpan_of_pos p (by decide)]
  omega

/-- The words of one replay are the letter's frame. -/
theorem reduceOption_replayWords (p : Params) (g : Fin 5) : (replayWords p g).reduceOption = letterFrame p g := by
  rw [replayWords, List.reduceOption_append, List.reduceOption_replicate_none, List.append_nil, reduceOption_map_some]

/-- The words of 25 replays are 625. -/
theorem length_reduceOption_replays (p : Params) (g : Fin 5) :
    (List.replicate 25 (replayWords p g)).flatten.reduceOption.length = 625 := by
  have hone : List.filterMap id (replayWords p g) = letterFrame p g := reduceOption_replayWords p g
  rw [List.reduceOption, List.filterMap_flatten, List.map_replicate, hone]
  simp [letterFrame]

/-- A letter in REPLAY mode: the fetch, 25 replays, the hold of 500 ms, and the next command. -/
theorem LedRun.replayedLetter {g : Fin 5} {s t : State} (h : LedRun 1 [none] s t) (hoffer : OffersPixel t 24)
    (hregs : FrameRegs s.cfg .letter g.val 0 t) (hm : s.cfg.renderMode = .replay) (hapc : s.apc.toNat < 15)
    (hfit : WaitFits s.cfg 500) (hr : NoReset (1 + 25 * replaySpan s.cfg + waitSpan s.cfg 500) s)
    (hl : LedReady (1 + 25 * replaySpan s.cfg + waitSpan s.cfg 500) s) :
    cycleTrace State.ledAccepted (1 + 25 * replaySpan s.cfg + waitSpan s.cfg 500) s =
      none :: (List.replicate 25 (replayWords s.cfg g)).flatten ++ List.replicate (waitSpan s.cfg 500) none ∧
    (ledWords (1 + 25 * replaySpan s.cfg + waitSpan s.cfg 500) s).length = 625 ∧
    ∃ u, Sys2Proof.core.run (1 + 25 * replaySpan s.cfg + waitSpan s.cfg 500) s = .next u ∧ CommandDone s u := by
  obtain ⟨u, hreplays, hwait, hu⟩ := hoffer.ledRun_replays (m := 24) hregs rfl hm hfit
    ((hr.mono (by omega)).after h.frame.pinsAt) ((hl.mono (by omega)).after h.frame.pinsAt)
  obtain ⟨c, hexit, htrace, hkept, _, hdark⟩ := (h.trans hreplays).then_wait hwait rfl hu hr
  refine ⟨htrace, ?_, c.nextCommand, hexit, hkept.nextCommand hapc hdark⟩
  rw [ledWords, htrace, List.reduceOption_append, List.reduceOption_replicate_none, List.append_nil,
    List.singleton_append, List.reduceOption_cons_of_none]
  exact length_reduceOption_replays s.cfg g

/-- Settles O53: one frame in SINGLE mode, and 25 replays in REPLAY mode. (The name `letterSpan` is the model's.) -/
theorem letterSpanHolds : Obligations.LetterSpan := by
  intro s w g h hp hw hg hv hapc
  have hfetch (hr : s.pins.rst = false) := ledRun_letter h hp hr hw hg hv
  refine ⟨fun hm hfit hr hl => ?_, fun hm hfit hr hl => ?_⟩
  · obtain ⟨t, hstart, hoffer, hregs⟩ := hfetch (hr 0 (by omega))
    have hph : phaseAfterFrame s.cfg .letter = .frHold := by rw [phaseAfterFrame, hm]
    have hms : msAfterFrame s.cfg .letter = s.cfg.glyphHoldMs := by rw [msAfterFrame, hm]
    have htrace : letterTrace s.cfg ⟨g.toNat, h⟩ = none :: ((letterFrame s.cfg ⟨g.toNat, h⟩).map some ++
        List.replicate (waitSpan s.cfg s.cfg.glyphHoldMs) none) := by rw [letterTrace, hm]
    rw [htrace]
    exact hstart.oneFrame hoffer hregs hph hms (frameWords_letter s.cfg ⟨g.toNat, h⟩) hapc hfit hr hl
  · rw [← replay_letter_cycles] at hr hl ⊢
    obtain ⟨t, hstart, hoffer, hregs⟩ := hfetch (hr 0 (by omega))
    exact ⟨rfl, hstart.replayedLetter (g := ⟨g.toNat, h⟩) hoffer hregs hm hapc hfit hr hl⟩

end Sys2Proof.Machine
end

