-- ==== Sys2Proof/Proofs/Tones.lean ====
section
/-! The tone generator, cycle by cycle (spec 42_tone_generator.md R141 to R153): the divider, the PWM counter and its output,
the commands that start a tone, the exits of the four tone phases, and which cycles write the audio parameters. -/

namespace Sys2Proof.Machine

/-! ### The divider (R141) -/

/-- A frequency of 0 has the largest divider. -/
theorem div16_zero (p : Params) : div16 p 0 = 4095 := by simp [div16]

theorem div16_of_ne_zero (p : Params) {f : BitVec 16} (hf : f ≠ 0) :
    div16 p f = min 4095 (max 16 (16 * p.clkHz / (f.toNat * 4096))) := by
  rw [div16, if_neg hf, div16Min_eq, div16Max_eq, params_pwmRes]

theorem freq_mul_pos {f : BitVec 16} (hf : f ≠ 0) : 0 < f.toNat * 4096 := by bv_omega

/-- A low frequency is clamped to the largest divider. -/
theorem div16_of_low {p : Params} {f : BitVec 16} (h : 4095 * (f.toNat * 4096) ≤ 16 * p.clkHz) : div16 p f = 4095 := by
  by_cases hf : f = 0
  · rw [hf, div16_zero]
  · have hquot := (Nat.le_div_iff_mul_le (freq_mul_pos hf)).mpr h
    rw [div16_of_ne_zero p hf]
    omega

/-- A high frequency is clamped to the smallest divider. -/
theorem div16_of_high {p : Params} {f : BitVec 16} (h : 16 * p.clkHz < 17 * (f.toNat * 4096)) : div16 p f = 16 := by
  have hf : f ≠ 0 := by
    rintro rfl
    simp at h
  have hquot := (Nat.div_lt_iff_lt_mul (freq_mul_pos hf)).mpr h
  rw [div16_of_ne_zero p hf]
  omega

/-- Settles O7: the formula, and at 125 MHz the two clamped ranges and two frequencies between them. -/
theorem dividerFollowsFormula : Obligations.DividerFollowsFormula := by
  refine ⟨div16_zero, fun p f => div16_of_ne_zero p, fun p hclk => ⟨fun f hf => ?_, ?_, ?_, fun f hf => ?_⟩⟩
  · exact div16_of_low (by omega)
  · rw [div16_of_ne_zero p (by decide), hclk]
    decide
  · rw [div16_of_ne_zero p (by decide), hclk]
    decide
  · exact div16_of_high (by omega)

/-! ### The output (R35, R146) -/

theorem pwmOut_iff (s : State) : s.pwmOut = true ↔ s.pwmCnt.toNat < s.pwmLevel.toNat := decide_eq_true_iff

/-- At level 0 the output is silent. -/
theorem pwmOut_of_level_zero {s : State} (h : s.pwmLevel = 0) : s.pwmOut = false := by simp [State.pwmOut, h]

/-- Settles O8: the output is the comparison. -/
theorem pwmOutComparesCounter : Obligations.PwmOutComparesCounter := by
  refine ⟨pwmOut_iff, fun s hl => ?_, fun s => pwmOut_of_level_zero, fun s t hc hl => ?_⟩
  · rw [pwmOut_iff, hl]
    exact Nat.lt_succ_iff
  · rw [State.pwmOut, State.pwmOut, hc, hl]

/-! ### The counter's rate (R145, R147) -/

/-- A tick writes the counter and its accumulator only. -/
theorem pwmStep_eq (s : State) : s.pwmStep = { s with pwmCnt := s.pwmStep.pwmCnt, pwmFrac := s.pwmStep.pwmFrac } := by
  unfold State.pwmStep
  split <;> rfl

theorem pwmStep_iterate_eq (s : State) (n : Nat) : State.pwmStep^[n] s =
    { s with pwmCnt := (State.pwmStep^[n] s).pwmCnt, pwmFrac := (State.pwmStep^[n] s).pwmFrac } := by
  induction n with
  | zero => rfl
  | succ n ih =>
    rw [Function.iterate_succ_apply', pwmStep_eq, ih]

/-- The `16 * n` sixteenths of `n` ticks are `k` dividers, one for each advance of the counter, and what is in the
accumulator. -/
theorem pwmStep_iterate_advances {s : State} (h0 : s.pwmFrac = 0) (h16 : 16 ≤ s.pwmDiv16.toNat) (n : Nat) :
    ∃ k, (State.pwmStep^[n] s).pwmCnt = s.pwmCnt + BitVec.ofNat 12 k ∧
      (State.pwmStep^[n] s).pwmFrac.toNat + s.pwmDiv16.toNat * k = 16 * n ∧
      (State.pwmStep^[n] s).pwmFrac.toNat < s.pwmDiv16.toNat := by
  induction n with
  | zero => exact ⟨0, by simp, by simp [h0], by simp [h0]; omega⟩
  | succ n ih =>
    obtain ⟨k, hcnt, hsum, hlt⟩ := ih
    have hdiv : (State.pwmStep^[n] s).pwmDiv16 = s.pwmDiv16 := (congrArg State.pwmDiv16 (pwmStep_iterate_eq s n) :)
    have htick := pwmStep_spec (State.pwmStep^[n] s) (by rwa [hdiv]) (by rwa [hdiv])
    have hkeeps := pwmStep_keeps_frac_below (State.pwmStep^[n] s) (by rwa [hdiv]) (by rwa [hdiv])
    rw [hdiv] at htick hkeeps
    rw [Function.iterate_succ_apply']
    obtain ⟨hle, hfrac, hadvance⟩ | ⟨_, hfrac, hstay⟩ := htick
    · refine ⟨k + 1, ?_, ?_, hkeeps⟩
      · rw [hadvance, hcnt, BitVec.ofNat_add, BitVec.add_assoc]
        rfl
      · rw [hfrac, Nat.mul_succ]
        omega
    · exact ⟨k, hstay.trans hcnt, by omega, hkeeps⟩

/-- The counter and the accumulator after `n` ticks are quotient and remainder of the sixteenths by the divider. -/
theorem pwmStep_iterate_counts {s : State} (h0 : s.pwmFrac = 0) (h16 : 16 ≤ s.pwmDiv16.toNat) (n : Nat) :
    (State.pwmStep^[n] s).pwmCnt = s.pwmCnt + BitVec.ofNat 12 (16 * n / s.pwmDiv16.toNat) ∧
      (State.pwmStep^[n] s).pwmFrac.toNat = 16 * n % s.pwmDiv16.toNat := by
  obtain ⟨k, hcnt, hsum, hlt⟩ := pwmStep_iterate_advances h0 h16 n
  obtain ⟨hquot, hrem⟩ := (Nat.div_mod_unique (by omega)).mpr ⟨hsum, hlt⟩
  exact ⟨by rw [hcnt, hquot], hrem.symm⟩

/-- In `256 * d` ticks the counter goes once through its 4096 values. -/
theorem pwmStep_iterate_period {s : State} (h0 : s.pwmFrac = 0) (h16 : 16 ≤ s.pwmDiv16.toNat) :
    State.pwmStep^[256 * s.pwmDiv16.toNat] s = s := by
  obtain ⟨hcnt, hfrac⟩ := pwmStep_iterate_counts h0 h16 (256 * s.pwmDiv16.toNat)
  have hticks : 16 * (256 * s.pwmDiv16.toNat) = 4096 * s.pwmDiv16.toNat := (Nat.mul_assoc ..).symm
  rw [hticks, Nat.mul_div_cancel _ (by omega)] at hcnt
  rw [hticks, Nat.mul_mod_left] at hfrac
  have hwraps : (State.pwmStep^[256 * s.pwmDiv16.toNat] s).pwmCnt = s.pwmCnt := hcnt.trans (BitVec.add_zero _)
  have hempty : (State.pwmStep^[256 * s.pwmDiv16.toNat] s).pwmFrac = s.pwmFrac := by
    rw [h0]
    exact BitVec.eq_of_toNat_eq hfrac
  rw [pwmStep_iterate_eq, hwraps, hempty]

/-- Settles O56: quotient and remainder after `n` ticks, and the period. -/
theorem pwmCounterRate : Obligations.PwmCounterRate := by
  intro s n h0 h16
  obtain ⟨hcnt, hfrac⟩ := pwmStep_iterate_counts h0 h16 n
  refine ⟨?_, hfrac, pwmStep_iterate_period h0 h16⟩
  rw [hcnt, BitVec.toNat_add, BitVec.toNat_ofNat, Nat.add_mod_mod]

/-! ### The commands (R148, R151) -/

theorem exec_beep_zero (f d : BitVec 16) (s : State) : exec (.beep 0 f d) s = .next s.nextCommand := rfl

theorem exec_beep_of_ne_zero {n : BitVec 8} (hn : n ≠ 0) (f d : BitVec 16) (s : State) :
    exec (.beep n f d) s = .next { s with
      tgRem := n, tgD := d, tgLvl := if f = 0 then 0 else 2048, pwmDiv16 := BitVec.ofNat 12 (div16 s.cfg f), pwmFrac := 0,
      pwmLevel := if f = 0 then 0 else 2048, dcnt := s.fitCount (msCycles s.cfg d.toNat), ph := .beepOn } := by
  rw [← levelOn_eq s.cfg]
  exact if_neg hn

/-- Settles O17: the word's fields, and the command's two branches. -/
theorem beepSounds : Obligations.BeepSounds := by
  intro n f d s
  refine ⟨congrArg Code.cmd (by simp [mkCmd_eq_or]), ?_, fun hn =>
    ⟨_, _, fitCount_isWaitCount s d.toNat, div16_toNat s.cfg f, exec_beep_of_ne_zero hn f d s⟩⟩
  rintro rfl
  exact ⟨_, nextCommand_isNextIndex s, exec_beep_zero f d s⟩

/-- The melody ROM's entry by its number (R54). -/
theorem melodyRom_eq (p : Params) {i : BitVec 3} {k : Fin 8} (h : i.toNat = k.val) : melodyRom p i = p.melody.get k :=
  congrArg p.melody.get (Fin.ext h)

theorem soundNote_eq (s : State) {i : BitVec 3} {k : Fin 8} (h : i.toNat = k.val) :
    s.soundNote i = { s with
      tgNote := i, pwmDiv16 := BitVec.ofNat 12 (div16 s.cfg (s.cfg.melody.get k).freq), pwmFrac := 0,
      pwmLevel := if (s.cfg.melody.get k).freq = 0 then 0 else 2048,
      dcnt := s.fitCount (msCycles s.cfg (s.cfg.melody.get k).ms.toNat), ph := .melOn } := by
  rw [← levelOn_eq s.cfg, ← melodyRom_eq s.cfg h]
  rfl

/-- Settles O18: note 0 sounds. -/
theorem melodyStartsNoteZero : Obligations.MelodyStartsNoteZero :=
  ⟨rfl, fun s => ⟨_, _, fitCount_isWaitCount s _, div16_toNat s.cfg _,
    congrArg Host.Outcome.next (soundNote_eq s (i := 0) (k := 0) rfl)⟩⟩

/-! ### The exits of the tone phases (R149, R150, R152, R153) -/

theorem leaveBeepOn_eq (s : State) : leaveBeepOn s = .next (s.toneOff.loadWait 200 .beepGap) := by
  rw [leaveBeepOn, params_beepGapMs]

theorem leaveMelOn_eq (s : State) : leaveMelOn s = .next (s.toneOff.loadWait 150 .melGap) := by
  rw [leaveMelOn, params_melGapMs]

theorem leaveBeepGap_last {s : State} (h : s.tgRem.toNat ≤ 1) : leaveBeepGap s = .next s.nextCommand := if_pos h

theorem leaveBeepGap_again {s : State} (h : 1 < s.tgRem.toNat) :
    leaveBeepGap s = .next { s with
      tgRem := s.tgRem - 1, pwmLevel := s.tgLvl, dcnt := s.fitCount (msCycles s.cfg s.tgD.toNat), ph := .beepOn } :=
  if_neg (Nat.not_le.mpr h)

theorem leaveMelGap_last {s : State} (h : s.tgNote = 7) : leaveMelGap s = .next s.nextCommand := if_pos h

theorem leaveMelGap_next {s : State} (h : s.tgNote.toNat + 1 < 8) : leaveMelGap s = .next (s.soundNote (s.tgNote + 1)) :=
  if_neg (by bv_omega)

theorem toNat_succ_of_lt_seven {i : BitVec 3} (h : i.toNat + 1 < 8) : (i + 1).toNat = i.toNat + 1 := by bv_omega

section
variable {s : State} (hr : s.pins.rst = false) (hd : s.dcnt.toNat ≤ 1)
include hr hd

/-- A wait phase with its count used up exits. -/
theorem step_waitPhase_exit {q : Phase} (hp : s.ph = q) (hq : isWait q = true) : step s = waitExit q s.clocked := by
  rw [step_of_isWait_of_le (by rwa [hp]) hr hd, hp]

/-- An exit that is the next command. -/
theorem step_waitPhase_done {q : Phase} (hp : s.ph = q) (hq : isWait q = true)
    (hexit : waitExit q s.clocked = .next s.clocked.nextCommand) :
    ∃ a, IsNextIndex s.apc a ∧ step s = .next { s.clocked with apc := a, ph := .dispFetch } := by
  rw [step_waitPhase_exit hr hd hp hq, hexit, ← clocked_apc s]
  exact ⟨_, nextCommand_isNextIndex s.clocked, rfl⟩

end

/-- Settles O27: the two exits, the one of the gap with its two branches. -/
theorem beepPhaseExits : Obligations.BeepPhaseExits := by
  intro s hr hd
  refine ⟨fun hp => ?_, fun hp hn => ?_, fun hp hn => ?_⟩
  · rw [step_waitPhase_exit hr hd hp rfl, waitExit, leaveBeepOn_eq, ← clocked_cfg s]
    exact ⟨_, fitCount_isWaitCount s.clocked 200, rfl⟩
  · exact step_waitPhase_done hr hd hp rfl (leaveBeepGap_last (by rwa [clocked_tgRem]))
  · rw [step_waitPhase_exit hr hd hp rfl, waitExit, leaveBeepGap_again (by rwa [clocked_tgRem]), ← clocked_cfg s,
      ← clocked_tgD s, ← clocked_tgRem s, ← clocked_tgLvl s]
    exact ⟨_, fitCount_isWaitCount s.clocked _, rfl⟩

/-- Settles O28: the two exits, the one of the gap with its two branches. -/
theorem melodyPhaseExits : Obligations.MelodyPhaseExits := by
  intro s hr hd
  refine ⟨fun hp => ?_, fun hp hn => ?_, fun hp hn => ?_⟩
  · rw [step_waitPhase_exit hr hd hp rfl, waitExit, leaveMelOn_eq, ← clocked_cfg s]
    exact ⟨_, fitCount_isWaitCount s.clocked 150, rfl⟩
  · exact step_waitPhase_done hr hd hp rfl (leaveMelGap_last ((clocked_tgNote s).trans hn))
  · have hnext := soundNote_eq s.clocked (k := ⟨s.tgNote.toNat + 1, hn⟩) (toNat_succ_of_lt_seven hn)
    rw [step_waitPhase_exit hr hd hp rfl, waitExit, leaveMelGap_next (by rwa [clocked_tgNote]), clocked_tgNote, hnext,
      ← clocked_cfg s]
    exact ⟨_, _, fitCount_isWaitCount s.clocked _, div16_toNat s.clocked.cfg _, rfl⟩

/-! ### Who writes the audio parameters (R68, R155) -/

theorem clocked_audio (s : State) : s.clocked.audio = s.audio :=
  Prod.ext (clocked_pwmDiv16 s) (clocked_pwmLevel s)

theorem frameDone_audio (s : State) : s.frameDone.audio = s.audio := by
  rw [frameDone_eq]
  rfl

/-- A command other than MELODY and a BEEP that sounds leaves the parameters as they were. -/
theorem CommandMove.audio {c t : State} {i : Instr} (hm : CommandMove c i t) :
    t.audio = c.audio ∨ i = .melody ∨ ∃ n f d, n ≠ 0 ∧ i = .beep n f d := by
  cases hm with
  | plays => exact .inr (.inl rfl)
  | beeps hn f d => exact .inr (.inr ⟨_, f, d, hn, rfl⟩)
  | ends | beepsNone | startsLetter | startsFill | noLetter | noColor | pauses | reboots | reserved => exact .inl rfl

/-- A cycle that is not the tone generator's leaves them as they were. -/
theorem Move.audio {s t : State} (hm : Move s t) :
    t.audio = s.audio ∨ s.ph = .beepOn ∨ s.ph = .beepGap ∨ s.ph = .melOn ∨ s.ph = .melGap ∨
      s.ph = .dispFetch ∧ ∃ w, s.command = some w ∧
        (decodeCmd w = .melody ∨ ∃ n f d, n ≠ 0 ∧ decodeCmd w = .beep n f d) := by
  have hc := clocked_audio s
  cases hm with
  | beepEnds hp => exact .inr (.inl hp)
  | beepsAgain hp => exact .inr (.inr (.inl hp))
  | noteEnds hp => exact .inr (.inr (.inr (.inl hp)))
  | nextNote hp => exact .inr (.inr (.inr (.inr (.inl hp))))
  | fetches hp hw hm =>
    obtain hsame | hstarts := hm.audio
    · exact .inl (hsame.trans hc)
    · exact .inr (.inr (.inr (.inr (.inr ⟨hp, _, hw, hstarts⟩))))
  | frameDone => exact .inl ((frameDone_audio s.clocked).trans hc)
  | waits | scanStarts | settles | settled | pressed | nextColumn | nextRow | noKey | held | released | overruns | commandDone
  | notReady | nextWord | replays | replayed | stops => exact .inl hc

/-- Settles O42: without a reset a step is a move. -/
theorem onlyToneGeneratorWritesAudio : Obligations.OnlyToneGeneratorWritesAudio := by
  intro s t hr hstep hne
  obtain ⟨hrst, _⟩ | ⟨_, hm⟩ := step_moves hstep
  · rw [hr] at hrst
    cases hrst
  · obtain hsame | hsounds := hm.audio
    · obtain ⟨hdiv, hlevel⟩ := Prod.mk.inj hsame
      exact absurd hne (by simp [hdiv, hlevel])
    · exact hsounds

end Sys2Proof.Machine
end

