-- ==== Sys2Proof/Proofs/ToneSpans.lean ====
section
/-! Whole BEEP and MELODY commands (spec 42_tone_generator.md R148 to R155). Either is the cycle that fetches it and a list of
tones, each a wait in which it sounds and a silent wait. So one argument, over the tones still to sound, gives what the audio
channel shows and when the next command is fetched. -/

namespace Sys2Proof.Machine

/-! ### What the tone generator leaves as it was -/

/-- `t` is `s` after `n` cycles of a BEEP or MELODY, but for the phase, the delay counter, the tone generator's own registers,
the synchroniser, the PWM stage and the log pulse. -/
def ToneFrame (n : Nat) (s t : State) : Prop :=
  t = { s with
    ph := t.ph, dcnt := t.dcnt, tgRem := t.tgRem, tgD := t.tgD, tgLvl := t.tgLvl, tgNote := t.tgNote, sync1 := t.sync1,
    sync2 := t.sync2, pwmCnt := t.pwmCnt, pwmFrac := t.pwmFrac, pwmDiv16 := t.pwmDiv16, pwmLevel := t.pwmLevel,
    logValid := t.logValid, inputs := s.inputs.drop n, cycle := s.cycle + n }

theorem toneFrame_clocked (s : State) : ToneFrame 1 s s.clocked := by
  unfold ToneFrame
  rw [clocked_eq]
  simp

section
variable {n : Nat} {s t : State} (h : ToneFrame n s t)
include h

theorem ToneFrame.key : t.key = s.key := (congrArg State.key h :)
theorem ToneFrame.apc : t.apc = s.apc := (congrArg State.apc h :)
theorem ToneFrame.ledValid : t.ledValid = s.ledValid := (congrArg State.ledValid h :)

theorem ToneFrame.pinsAt (j : Nat) : t.pinsAt j = s.pinsAt (n + j) :=
  pinsAt_of_drop (congrArg State.inputs h :) (congrArg State.cycle h :) j

theorem ToneFrame.trans {m : Nat} {u : State} (h' : ToneFrame m t u) : ToneFrame (n + m) s u := by
  refine Eq.trans h' ?_
  rw [h]
  simp [Nat.add_assoc]

/-- The frame does not read what the tone generator writes. -/
theorem ToneFrame.set (p : Phase) (d : BitVec 48) (r : BitVec 8) (ms : BitVec 16) (lvl lvl' : BitVec 13) (i : BitVec 3)
    (q q' : BitVec 12) :
    ToneFrame n s { t with
      ph := p, dcnt := d, tgRem := r, tgD := ms, tgLvl := lvl, tgNote := i, pwmFrac := q, pwmDiv16 := q', pwmLevel := lvl' } :=
  (congrArg (fun u : State => { u with
    ph := p, dcnt := d, tgRem := r, tgD := ms, tgLvl := lvl, tgNote := i, pwmFrac := q, pwmDiv16 := q', pwmLevel := lvl' }) h :)

end

/-- `c` is `s` after `n` cycles of one tone and its silence: but for the phase, the delay counter, the synchroniser, the PWM
counter and the log pulse, only the level has changed, to 0. -/
def SilentFrame (n : Nat) (s c : State) : Prop :=
  c = { s with
    ph := c.ph, dcnt := c.dcnt, pwmLevel := 0, sync1 := c.sync1, sync2 := c.sync2, pwmCnt := c.pwmCnt, pwmFrac := c.pwmFrac,
    logValid := c.logValid, inputs := s.inputs.drop n, cycle := s.cycle + n }

section
variable {n : Nat} {s c : State} (h : SilentFrame n s c)
include h

theorem SilentFrame.cfg : c.cfg = s.cfg := (congrArg State.cfg h :)
theorem SilentFrame.tgRem : c.tgRem = s.tgRem := (congrArg State.tgRem h :)
theorem SilentFrame.tgD : c.tgD = s.tgD := (congrArg State.tgD h :)
theorem SilentFrame.tgLvl : c.tgLvl = s.tgLvl := (congrArg State.tgLvl h :)
theorem SilentFrame.tgNote : c.tgNote = s.tgNote := (congrArg State.tgNote h :)
theorem SilentFrame.pwmDiv16 : c.pwmDiv16 = s.pwmDiv16 := (congrArg State.pwmDiv16 h :)
theorem SilentFrame.pwmLevel : c.pwmLevel = 0 := (congrArg State.pwmLevel h :)

theorem SilentFrame.toneFrame : ToneFrame n s c := by
  unfold ToneFrame
  rw [h]

end

/-! ### Parts of a command -/

/-- In `n` cycles from `s` the audio channel shows `l`, and the last of them ends in `o`. -/
structure AudioRun (n : Nat) (l : List (BitVec 12 × BitVec 13)) (s : State) (o : Host.Outcome State Fault Refusal) :
    Prop where
  run : Sys2Proof.core.run n s = o
  trace : cycleTrace State.audio n s = l

theorem AudioRun.trans {n m : Nat} {l l' : List (BitVec 12 × BitVec 13)} {s t : State}
    {o : Host.Outcome State Fault Refusal} (h : AudioRun n l s (.next t)) (h' : AudioRun m l' t o) :
    AudioRun (n + m) (l ++ l') s o where
  run := (core_run_add Sys2Proof.core n m h.run).trans h'.run
  trace := by rw [cycleTrace_add _ m h.run, h.trace, h'.trace]

theorem audioRun_step {s : State} {o : Host.Outcome State Fault Refusal} (h : step s = o) : AudioRun 1 [s.audio] s o :=
  ⟨(core_run_one Sys2Proof.core s).trans h, cycleTrace_one State.audio s⟩

/-! ### A wait -/

/-- The last cycle of a wait keeps its frame, as far as the always-running part goes. -/
theorem WaitFrame.clocked {n : Nat} {s t : State} (h : WaitFrame n s t) : WaitFrame (n + 1) s t.clocked := by
  unfold WaitFrame
  rw [clocked_eq, h]
  simp [Nat.add_assoc]

/-- A wait that fits loads its count. -/
theorem fitCount_toNat_of_fits {p : Params} {s : State} {ms : Nat} (hcfg : s.cfg = p) (hfit : WaitFits p ms) :
    (s.fitCount (msCycles s.cfg ms)).toNat = ms * (p.clkHz / 1000) := by
  subst hcfg
  exact fitCount_isWaitCount s ms hfit

/-- During a wait the audio channel stays as it is, and its last cycle is its phase's exit. -/
theorem audioRun_wait {p : Params} {s : State} {q : Phase} {ms : Nat} (hp : s.ph = q) (hq : isWait q = true)
    (hcount : s.dcnt.toNat = ms * (p.clkHz / 1000)) (hr : NoReset (waitSpan p ms) s) :
    ∃ c, AudioRun (waitSpan p ms) (List.replicate (waitSpan p ms) s.audio) s (waitExit q c) ∧
      WaitFrame (waitSpan p ms) s c := by
  have hw : isWait s.ph = true := by rwa [hp]
  have hspan : waitSpan p ms = max 1 s.dcnt.toNat := by rw [waitSpan, hcount]
  rw [hspan] at hr ⊢
  obtain ⟨u, hframe, _, hrun⟩ := run_wait_to_exit hw hr
  rw [hp] at hrun
  refine ⟨u.clocked, ⟨hrun, cycleTrace_eq_replicate fun j hj => ?_⟩, ?_⟩
  · obtain ⟨t, ht, _, _, hinside⟩ := run_inside_wait hw hj (hr.mono (Nat.le_of_lt hj))
    exact ⟨t, ht, (congrArg State.audio hinside :)⟩
  · have hc := hframe.clocked
    rwa [Nat.sub_add_cancel (Nat.le_max_left ..)] at hc

/-! ### A tone and its silence -/

/-- A phase in which a tone sounds, and the phase of the `gapMs` milliseconds of silence that follow. -/
structure TonePhases (on gap : Phase) (gapMs : Nat) : Prop where
  on_isWait : isWait on = true
  gap_isWait : isWait gap = true
  exit : ∀ c, waitExit on c = .next (c.toneOff.loadWait gapMs gap)

/-- The phases of a beep (R149). -/
theorem beepPhases : TonePhases .beepOn .beepGap 200 := ⟨rfl, rfl, leaveBeepOn_eq⟩

/-- The phases of a note (R152). -/
theorem melodyPhases : TonePhases .melOn .melGap 150 := ⟨rfl, rfl, leaveMelOn_eq⟩

/-- The tone `x` begins to sound, for its whole duration, in the phase `on`. -/
structure Sounds (p : Params) (on : Phase) (x : Note) (s : State) : Prop where
  cfg : s.cfg = p
  ph : s.ph = on
  count : s.dcnt.toNat = x.ms.toNat * (p.clkHz / 1000)
  div : s.pwmDiv16 = BitVec.ofNat 12 (div16 p x.freq)
  level : s.pwmLevel = if x.freq = 0 then 0 else 2048

/-- The cycles of a tone and its silence (R154). -/
def toneSpan (p : Params) (gapMs : Nat) (x : Note) : Nat := waitSpan p x.ms.toNat + waitSpan p gapMs

/-- What the audio channel shows in them. -/
def noteTrace (p : Params) (gapMs : Nat) (x : Note) : List (BitVec 12 × BitVec 13) :=
  toneTrace p x.freq x.ms.toNat gapMs

/-- A tone sounds for its duration, and then its silence lasts for the gap, up to the gap's exit. -/
theorem Sounds.audioRun {p : Params} {on gap : Phase} {gapMs : Nat} {x : Note} {s : State} (h : Sounds p on x s)
    (hph : TonePhases on gap gapMs) (hfit : WaitFits p gapMs) (hr : NoReset (toneSpan p gapMs x) s) :
    ∃ c, AudioRun (toneSpan p gapMs x) (noteTrace p gapMs x) s (waitExit gap c) ∧
      SilentFrame (toneSpan p gapMs x) s c := by
  have haudio : s.audio = (BitVec.ofNat 12 (div16 p x.freq), if x.freq = 0 then 0 else 2048) := Prod.ext h.div h.level
  obtain ⟨u, htone, hu⟩ := audioRun_wait h.ph hph.on_isWait h.count (hr.mono (Nat.le_add_right ..))
  have hcfg : u.cfg = p := (congrArg State.cfg hu :).trans h.cfg
  have hgap : (u.toneOff.loadWait gapMs gap).audio = (BitVec.ofNat 12 (div16 p x.freq), 0) :=
    Prod.ext ((congrArg State.pwmDiv16 hu :).trans h.div) rfl
  obtain ⟨c, hsilence, hc⟩ := audioRun_wait (s := u.toneOff.loadWait gapMs gap) rfl hph.gap_isWait
    (fitCount_toNat_of_fits (s := u.toneOff) hcfg hfit) (hr.after hu.pinsAt)
  rw [hph.exit, haudio] at htone
  rw [hgap] at hsilence
  refine ⟨c, htone.trans hsilence, ?_⟩
  unfold SilentFrame
  rw [hc, hu]
  simp [State.toneOff, State.loadWait, toneSpan, Nat.add_assoc]

/-! ### A list of tones -/

/-- `P l` holds where the tones `l` are still to sound, the first of them from this cycle on: the gap after the last tone
leaves for the next command, and the gap after any other one for the rest of the tones. -/
structure ToneSequence (p : Params) (on gap : Phase) (gapMs : Nat) (P : List Note → State → Prop) : Prop where
  phases : TonePhases on gap gapMs
  sounds : ∀ {x l s}, P (x :: l) s → Sounds p on x s
  last : ∀ {x n s c}, P [x] s → SilentFrame n s c → waitExit gap c = .next c.nextCommand
  next : ∀ {x y l n s c}, P (x :: y :: l) s → SilentFrame n s c →
    ∃ t, waitExit gap c = .next t ∧ P (y :: l) t ∧ ToneFrame n s t

/-- `c` is the end of the last tone's silence. -/
def AfterLastTone (P : List Note → State → Prop) (c : State) : Prop := ∃ x n s, P [x] s ∧ SilentFrame n s c

section
variable {p : Params} {on gap : Phase} {gapMs : Nat} {P : List Note → State → Prop}

/-- The tones sound one after the other, each with its silence, and then comes the next command. -/
theorem ToneSequence.audioRun (h : ToneSequence p on gap gapMs P) (hfit : WaitFits p gapMs) {x : Note} {l : List Note}
    {s : State} (hP : P (x :: l) s) (hr : NoReset ((x :: l).map (toneSpan p gapMs)).sum s) :
    ∃ c, AudioRun ((x :: l).map (toneSpan p gapMs)).sum ((x :: l).flatMap (noteTrace p gapMs)) s (.next c.nextCommand) ∧
      ToneFrame ((x :: l).map (toneSpan p gapMs)).sum s c ∧ AfterLastTone P c := by
  induction l generalizing x s with
  | nil =>
    simp only [List.map_cons, List.map_nil, List.sum_cons, List.sum_nil, Nat.add_zero, List.flatMap_cons, List.flatMap_nil,
      List.append_nil] at hr ⊢
    obtain ⟨c, hrun, hframe⟩ := (h.sounds hP).audioRun h.phases hfit hr
    rw [h.last hP hframe] at hrun
    exact ⟨c, hrun, hframe.toneFrame, x, _, s, hP, hframe⟩
  | cons y l ih =>
    rw [List.map_cons, List.sum_cons] at hr ⊢
    obtain ⟨c, hrun, hframe⟩ := (h.sounds hP).audioRun h.phases hfit (hr.mono (Nat.le_add_right ..))
    obtain ⟨t, hexit, ht, hkept⟩ := h.next hP hframe
    rw [hexit] at hrun
    obtain ⟨u, hrest, hlast, hafter⟩ := ih ht (hr.after hkept.pinsAt)
    exact ⟨u, hrun.trans hrest, hkept.trans hlast, hafter⟩

/-- A command of tones: the fetch, the tones, and the next command. -/
theorem ToneSequence.command (h : ToneSequence p on gap gapMs P) (hfit : WaitFits p gapMs) {x : Note} {l : List Note}
    {n : Nat} (hn : n = ((x :: l).map (toneSpan p gapMs)).sum) {s t : State} (hstep : step s = .next t)
    (hframe : ToneFrame 1 s t) (hP : P (x :: l) t) (hapc : s.apc.toNat < 15) (hr : NoReset (1 + n) s) :
    cycleTrace State.audio (1 + n) s = s.audio :: (x :: l).flatMap (noteTrace p gapMs) ∧
    ∃ c, Sys2Proof.core.run (1 + n) s = .next c.nextCommand ∧ c.nextCommand.apc.toNat = s.apc.toNat + 1 ∧
      ToneFrame (1 + n) s c ∧ AfterLastTone P c := by
  subst hn
  obtain ⟨c, hrun, hkept, hafter⟩ := h.audioRun hfit hP (hr.after hframe.pinsAt)
  have hall := (audioRun_step hstep).trans hrun
  have hwhole := hframe.trans hkept
  have hnext := nextCommand_isNextIndex c
  rw [hwhole.apc] at hnext
  exact ⟨hall.trace, c, hall.run, hnext hapc, hwhole, hafter⟩

end

/-! ### BEEP (R148 to R150) -/

/-- The beeps `l` of frequency `f` and `d` milliseconds are still to sound, as the beep's registers say. -/
structure BeepsLeft (p : Params) (f d : BitVec 16) (l : List Note) (s : State) : Prop where
  sounds : Sounds p .beepOn ⟨f, d⟩ s
  tones : l = List.replicate s.tgRem.toNat ⟨f, d⟩
  ms : s.tgD = d
  level : s.tgLvl = if f = 0 then 0 else 2048

theorem beepSequence {p : Params} {f d : BitVec 16} (hfit : WaitFits p d.toNat) :
    ToneSequence p .beepOn .beepGap 200 (BeepsLeft p f d) where
  phases := beepPhases
  sounds {x l s} h := by
    have hx : x ∈ List.replicate s.tgRem.toNat (⟨f, d⟩ : Note) := h.tones ▸ List.mem_cons_self
    rw [List.eq_of_mem_replicate hx]
    exact h.sounds
  last {x n s c} h hc := by
    have hrem : 1 = s.tgRem.toNat := by simpa using congrArg List.length h.tones
    exact leaveBeepGap_last (by rw [hc.tgRem]; omega)
  next {x y l n s c} h hc := by
    obtain ⟨⟨rfl, _, _, hdiv, _⟩, htones, hms, hlvl⟩ := h
    have hrem : l.length + 2 = s.tgRem.toNat := by simpa using congrArg List.length htones
    have hdec : s.tgRem.toNat = (s.tgRem - 1).toNat + 1 := by bv_omega
    refine ⟨_, leaveBeepGap_again (by rw [hc.tgRem]; omega), ⟨⟨hc.cfg, rfl, ?_, hc.pwmDiv16.trans hdiv, ?_⟩, ?_, ?_, ?_⟩,
      hc.toneFrame.set _ _ _ _ _ _ _ _ _⟩
    · rw [hc.tgD, hms]
      exact fitCount_toNat_of_fits hc.cfg hfit
    · exact hc.tgLvl.trans hlvl
    · rw [hdec, List.replicate_succ] at htones
      rw [hc.tgRem]
      exact (List.cons.inj htones).2
    · exact hc.tgD.trans hms
    · exact hc.tgLvl.trans hlvl

/-- The cycle that fetches a beep begins its first tone. -/
theorem step_beep {s : State} {w : Cmd} {n : BitVec 8} {f d : BitVec 16} (hp : s.ph = .dispFetch) (hr : s.pins.rst = false)
    (hw : s.command = some w) (hb : decodeCmd w = .beep n f d) (hn : n ≠ 0) (hfit : WaitFits s.cfg d.toNat) :
    ∃ t, step s = .next t ∧ ToneFrame 1 s t ∧ BeepsLeft s.cfg f d (List.replicate n.toNat ⟨f, d⟩) t := by
  have hstep := step_dispFetch hp hr hw
  rw [hb, exec_beep_of_ne_zero hn] at hstep
  rw [← clocked_cfg s] at hfit ⊢
  exact ⟨_, hstep, (toneFrame_clocked s).set _ _ _ _ _ _ _ _ _,
    ⟨rfl, rfl, fitCount_toNat_of_fits (s := s.clocked) rfl hfit, rfl, rfl⟩, rfl, rfl, rfl⟩

/-- Settles O54: the beep's `n` equal tones. -/
theorem beepSpan : Obligations.BeepSpan := by
  intro s w n f d hp hw hb hn hapc hfit hgap hr
  obtain ⟨t, hstep, hframe, hleft⟩ := step_beep hp (hr 0 (by omega)) hw hb hn hfit
  obtain ⟨m, hm⟩ : ∃ m, n.toNat = m + 1 := ⟨n.toNat - 1, by bv_omega⟩
  rw [hm] at hr hleft ⊢
  have hspan : (m + 1) * (waitSpan s.cfg d.toNat + waitSpan s.cfg 200) =
      ((List.replicate (m + 1) (⟨f, d⟩ : Note)).map (toneSpan s.cfg 200)).sum := by simp [toneSpan]
  obtain ⟨htrace, c, hrun, hnext, hkept, x, k, u, hu, hsilent⟩ :=
    (beepSequence hfit).command hgap hspan hstep hframe hleft hapc hr
  refine ⟨?_, c.nextCommand, hrun, rfl, hnext, hkept.key, hsilent.pwmLevel, ?_, hkept.ledValid⟩
  · rw [htrace, ← List.replicate_succ, List.flatMap_replicate]
    rfl
  · rw [nextCommand_pwmDiv16, hsilent.pwmDiv16, hu.sounds.div, div16_toNat]

/-! ### MELODY (R151 to R153) -/

/-- The notes `l` are still to sound: those of the melody ROM from the current note's number on. -/
structure NotesLeft (p : Params) (l : List Note) (s : State) : Prop where
  sounds : Sounds p .melOn (melodyRom p s.tgNote) s
  tones : l = p.melody.toList.drop s.tgNote.toNat

theorem melodyRom_eq_getElem (p : Params) (i : BitVec 3) : melodyRom p i = p.melody[i.toNat] := rfl

/-- The current note is the first of those left. -/
theorem drop_melody (p : Params) (i : BitVec 3) :
    p.melody.toList.drop i.toNat = melodyRom p i :: p.melody.toList.drop (i.toNat + 1) := by
  rw [melodyRom_eq_getElem, ← Vector.getElem_toList]
  exact List.drop_eq_getElem_cons (by simpa using i.isLt)

/-- A note of the ROM begins to sound, and those after it are left. -/
theorem soundNote_notesLeft {s : State} (i : BitVec 3) (hfit : WaitFits s.cfg (melodyRom s.cfg i).ms.toNat) :
    NotesLeft s.cfg (s.cfg.melody.toList.drop i.toNat) (s.soundNote i) :=
  ⟨⟨rfl, rfl, fitCount_toNat_of_fits rfl hfit, rfl, levelOn_eq s.cfg _⟩, rfl⟩

theorem ToneFrame.soundNote {n : Nat} {s t : State} (h : ToneFrame n s t) (i : BitVec 3) : ToneFrame n s (t.soundNote i) :=
  h.set _ _ _ _ _ _ _ _ _

theorem melodySequence {p : Params} (hfit : ∀ i, WaitFits p (p.melody.get i).ms.toNat) :
    ToneSequence p .melOn .melGap 150 (NotesLeft p) where
  phases := melodyPhases
  sounds {x l s} h := by
    obtain ⟨hsounds, htones⟩ := h
    rw [drop_melody] at htones
    rw [(List.cons.inj htones).1]
    exact hsounds
  last {x n s c} h hc := by
    have hlen : 1 = 8 - s.tgNote.toNat := by simpa using congrArg List.length h.tones
    exact leaveMelGap_last (hc.tgNote.trans (by bv_omega))
  next {x y l n s c} h hc := by
    obtain ⟨⟨rfl, _⟩, htones⟩ := h
    have hlen : l.length + 2 = 8 - s.tgNote.toNat := by simpa using congrArg List.length htones
    have hlt : s.tgNote.toNat + 1 < 8 := by omega
    rw [drop_melody] at htones
    refine ⟨_, leaveMelGap_next (by rwa [hc.tgNote]), ?_, hc.toneFrame.soundNote _⟩
    rw [(List.cons.inj htones).2, ← toNat_succ_of_lt_seven hlt, hc.tgNote, ← hc.cfg]
    exact soundNote_notesLeft _ (by rw [hc.cfg]; exact hfit _)

/-- The cycle that fetches a melody begins its first note. -/
theorem step_melody {s : State} {w : Cmd} (hp : s.ph = .dispFetch) (hr : s.pins.rst = false) (hw : s.command = some w)
    (hm : decodeCmd w = .melody) (hfit : ∀ i, WaitFits s.cfg (s.cfg.melody.get i).ms.toNat) :
    ∃ t, step s = .next t ∧ ToneFrame 1 s t ∧ NotesLeft s.cfg s.cfg.melody.toList t := by
  have hstep := step_dispFetch hp hr hw
  rw [hm] at hstep
  refine ⟨_, hstep, (toneFrame_clocked s).soundNote 0, ?_⟩
  rw [← clocked_cfg s] at hfit ⊢
  exact soundNote_notesLeft 0 (hfit _)

/-- The melody ROM's list is its entries in table order. -/
theorem melody_toList (p : Params) : p.melody.toList = (List.finRange 8).map p.melody.get := by
  refine List.ext_getElem (by simp) fun i h h' => ?_
  simp [Vector.get]

/-- Settles O55: the melody's eight notes. (The name `melodySpan` is the model's.) -/
theorem melodySpanHolds : Obligations.MelodySpan := by
  intro s w hp hw hm hapc hfit hgap hr
  obtain ⟨t, hstep, hframe, hleft⟩ := step_melody hp (hr 0 (by omega)) hw hm hfit
  obtain ⟨x, l, hnotes⟩ : ∃ x l, s.cfg.melody.toList = x :: l := ⟨_, _, drop_melody s.cfg 0⟩
  have hspan : ∑ i : Fin 8, (waitSpan s.cfg (s.cfg.melody.get i).ms.toNat + waitSpan s.cfg 150) =
      (s.cfg.melody.toList.map (toneSpan s.cfg 150)).sum := by
    rw [melody_toList, List.map_map, Fin.sum_univ_def]
    rfl
  rw [hnotes] at hspan hleft
  obtain ⟨htrace, c, hrun, hnext, hkept, z, k, u, hu, hsilent⟩ :=
    (melodySequence hfit).command hgap hspan hstep hframe hleft hapc hr
  refine ⟨?_, c.nextCommand, hrun, rfl, hnext, hkept.key, hsilent.pwmLevel, hsilent.tgNote.trans ?_, hkept.ledValid⟩
  · rw [htrace, ← hnotes, melody_toList, List.flatMap_map]
    rfl
  · have hlen : 1 = 8 - u.tgNote.toNat := by simpa using congrArg List.length hu.tones
    bv_omega

end Sys2Proof.Machine
end

section
/-! The dispatcher, cycle by cycle (spec 43_dispatcher.md R171 to R176): the commands END, PAUSE and REBOOT, the entries to the
model fault, which instruction a step runs, who writes `reboot_req`, and the reference programs with their source text. -/

namespace Sys2Proof.Machine

/-! ### The commands (R172, R173, R175) -/

theorem exec_endProg (s : State) :
    exec .endProg s = .next { s with dcnt := s.fitCount (msCycles s.cfg 100), ph := .idleWait } := by
  rw [← params_idleMs s.cfg]
  rfl

theorem exec_pause (d : BitVec 16) (s : State) :
    exec (.pause d) s = .next { s with dcnt := s.fitCount (msCycles s.cfg d.toNat), ph := .pauseW } := rfl

theorem exec_reboot (s : State) : exec .reboot s = .next { s with rebootReq := true, ph := .halt } := rfl

/-- Settles O11: the idle wait is of 100 ms. -/
theorem endGoesIdle : Obligations.EndGoesIdle :=
  ⟨rfl, fun s => ⟨_, fitCount_isWaitCount s 100, exec_endProg s⟩⟩

/-- Settles O12: the word's two fields, and the wait. -/
theorem pauseWaits : Obligations.PauseWaits := fun d s =>
  ⟨congrArg Code.cmd (by simp [mkCmd_eq_or]), _, fitCount_isWaitCount s d.toNat, exec_pause d s⟩

/-- Settles O13: the two registers that REBOOT writes. -/
theorem rebootHalts : Obligations.RebootHalts := ⟨rfl, exec_reboot⟩

/-! ### The fetch (R171) -/

/-- Past the end of the program the fetch raises PROG_OVERRUN. -/
theorem step_overrun {s : State} (hr : s.pins.rst = false) (hp : s.ph = .dispFetch) (hc : s.command = none) :
    step s = .next (s.clocked.raiseFault .progOverrun) := by
  rw [step_of_run hr]
  simp only [turn, hp, dispFetchTurn, hc, runTurn]

/-- Settles O14: an index at or past the program's length names no command. -/
theorem reservedOpAndOverrunEnterFault : Obligations.ReservedOpAndOverrunEnterFault :=
  ⟨fun _ => rfl, fun _ hr hp hlen => step_overrun hr hp (List.getElem?_eq_none hlen)⟩

/-- At the release the key's code runs (R105). -/
theorem step_release {s : State} (hr : s.pins.rst = false) (hp : s.ph = .ksRel) (hc : s.column = true) :
    step s = exec (decodeKey (keyCodeOf s.ksR s.ksC)) s.clocked := by
  rw [step_of_run hr]
  simp only [turn, hp, ksRelTurn, hc, if_true, runTurn]

/-- At the last column of the last row the code "none" runs, where no column was low (R104). -/
theorem step_noKey {s : State} (hr : s.pins.rst = false) (hp : s.ph = .ksCol) (hrow : s.ksR = 3) (hcol : s.ksC = 3)
    (hc : s.column = true) : step s = exec (decodeKey 0) s.clocked := by
  rw [step_of_run hr]
  simp [turn, hp, ksColTurn, hc, hrow, hcol, runTurn]

/-- Settles O21: the three places where a step decodes an instruction. -/
theorem stepRunsDecodedInstruction : Obligations.StepRunsDecodedInstruction := fun s hr =>
  ⟨fun _ hp hw => step_dispFetch hp hr hw, fun hp hc => step_release hr hp hc, fun hp hrow hcol hc =>
    step_noKey hr hp hrow hcol (by rw [State.column, hcol]; exact hc)⟩

/-! ### Who writes `reboot_req` (R175, R217, R231) -/

/-- A command other than REBOOT leaves the request as it was, and REBOOT raises it. -/
theorem CommandMove.rebootReq {c t : State} {i : Instr} (hm : CommandMove c i t) :
    t.rebootReq = c.rebootReq ∨ i = .reboot ∧ t.rebootReq = true := by
  cases hm with
  | reboots => exact .inr ⟨rfl, rfl⟩
  | ends | beepsNone | beeps | plays | startsLetter | startsFill | noLetter | noColor | pauses | reserved => exact .inl rfl

/-- A cycle that fetches no REBOOT leaves it as it was. -/
theorem Move.rebootReq {s t : State} (hm : Move s t) :
    t.rebootReq = s.rebootReq ∨
      (s.ph = .dispFetch ∧ ∃ w, s.command = some w ∧ decodeCmd w = .reboot) ∧ t.rebootReq = true := by
  have hc := clocked_rebootReq s
  cases hm with
  | fetches hp hw hm =>
    obtain hsame | ⟨hi, hup⟩ := hm.rebootReq
    · exact .inl (hsame.trans hc)
    · exact .inr ⟨⟨hp, _, hw, hi⟩, hup⟩
  | frameDone => rw [frameDone_eq]; exact .inl hc
  | waits | scanStarts | settles | settled | pressed | nextColumn | nextRow | noKey | held | released | overruns | beepEnds
  | beepsAgain | noteEnds | nextNote | commandDone | notReady | nextWord | replays | replayed | stops => exact .inl hc

/-- Settles O41: a reset takes the request back, and any other step is a move. -/
theorem rebootRequestOrigin : Obligations.RebootRequestOrigin := by
  intro s t hstep
  obtain ⟨hr, rfl⟩ | ⟨_, hm⟩ := step_moves hstep
  · exact ⟨fun _ hup => (nomatch hup), fun _ _ => hr⟩
  · obtain hsame | ⟨hfetch, hup⟩ := hm.rebootReq
    · rw [hsame]
      exact ⟨fun hdown hup => absurd (hdown.symm.trans hup) nofun, fun hup hdown => absurd (hup.symm.trans hdown) nofun⟩
    · exact ⟨fun _ _ => hfetch, fun _ hdown => absurd (hup.symm.trans hdown) nofun⟩

/-! ### The reference programs (R176) -/

/-- The key indices of the Unmapped keys have the program `END` (R77). -/
theorem programOf_unmapped (p : Params) :
    ∀ k ∈ [(1 : BitVec 4), 2, 4, 5, 6, 8, 9, 10, 12], programOf (actProgRef p) k = unmappedProg := by
  simp only [List.forall_mem_cons]
  exact ⟨rfl, rfl, rfl, rfl, rfl, rfl, rfl, rfl, rfl, nofun⟩

/-- A program is the words of its first line's expansion, and the program of the other lines. -/
theorem assemble_cons {p : Params} {l : AsmLine} {ls : List AsmLine} {is : List Instr} {ws : List Cmd}
    (hl : expandLine p l = .ok is) (hls : assemble p ls = .ok ws) : assemble p (l :: ls) = .ok (cmdWords is ++ ws) := by
  rw [assemble, hl, hls]

theorem assemble_endProg (p : Params) : assemble p [.endProg] = .ok unmappedProg := rfl

/-- The program of key '1' is INTRO's expansion and `END` (R177). -/
theorem assemble_intro (p : Params) : assemble p [.intro, .endProg] = .ok (introProg p) := by
  rw [assemble_cons (expandLine_intro p) (assemble_endProg p), introProg, params_introBeepTimes, params_introBeepMs]
  rfl

/-- The program of key '0' is REBOOT_AFTER's expansion (R190). -/
theorem assemble_rebootAfter (p : Params) : assemble p [.rebootAfter 100] = .ok (rebootProg p) := by
  rw [rebootProg, params_rebootPauseMs]
  exact assemble_cons (expandLine_rebootAfter p 100) rfl

/-- Settles O6: each program of the table is the words of its lines. -/
theorem referenceProgramsAssemble : Obligations.ReferenceProgramsAssemble := by
  intro p
  have hwf := actProgRef_wf p
  refine ⟨assemble_intro p, fun k hk => ?_, rfl, rfl, rfl, assemble_rebootAfter p, rfl, rfl, hwf, rfl, fun k => ?_⟩
  · rw [programOf_unmapped p k hk]
    exact assemble_endProg p
  · obtain ⟨⟨_, hlen⟩, _⟩ := (wfProg_iff _).mp (programOf_wf hwf k)
    exact hlen

end Sys2Proof.Machine
end

section
/-! What holds in each cycle of a run (spec 00_scope.md R8). A register that no cycle of a run writes has one value in its trace,
and who writes which channel is known from the phase and the command (R120, R155, R217). So the phases of a command say what
the channels that are not its own show. -/

namespace Sys2Proof.Machine

/-! ### What any run keeps -/

/-- A run of one cycle is its step. -/
theorem run_one {s : State} {o : Host.Outcome State Fault Refusal} (h : step s = o) : Sys2Proof.core.run 1 s = o :=
  (core_run_one Sys2Proof.core s).trans h

/-- A run of one more step has a first step. -/
theorem exists_step_of_run {n : Nat} {s t : State} (h : Sys2Proof.core.run (n + 1) s = .next t) :
    ∃ u, step s = .next u ∧ Sys2Proof.core.run n u = .next t := by
  cases hs : step s with
  | next u => exact ⟨u, rfl, (run_succ n hs).symm.trans h⟩
  | fault r => simp [Host.Core.run, show Sys2Proof.core.step s = .fault r from hs] at h
  | refused r => simp [Host.Core.run, show Sys2Proof.core.step s = .refused r from hs] at h

/-- The two states have one input queue in one cycle. -/
def SameInputs (s t : State) : Prop := t.inputs = s.inputs ∧ t.cycle = s.cycle

theorem CommandMove.sameInputs {c t : State} {i : Instr} (hm : CommandMove c i t) : SameInputs c t := by
  cases hm with
  | ends | beepsNone | beeps | plays | startsLetter | startsFill | noLetter | noColor | pauses | reboots | reserved =>
    exact ⟨rfl, rfl⟩

/-- Only the always-running part uses up input levels (log entry 2). -/
theorem Move.sameInputs {s t : State} (hm : Move s t) : SameInputs s.clocked t := by
  cases hm with
  | fetches _ _ hm => exact hm.sameInputs
  | frameDone => rw [frameDone_eq]; exact ⟨rfl, rfl⟩
  | waits | scanStarts | settles | settled | pressed | nextColumn | nextRow | noKey | held | released | overruns | beepEnds
  | beepsAgain | noteEnds | nextNote | commandDone | notReady | nextWord | replays | replayed | stops => exact ⟨rfl, rfl⟩

theorem step_pinsAt {s t : State} (h : step s = .next t) (j : Nat) : t.pinsAt j = s.pinsAt (j + 1) := by
  obtain ⟨_, rfl⟩ | ⟨_, hm⟩ := step_moves h
  · exact onReset_pinsAt s j
  · obtain ⟨hi, hc⟩ := hm.sameInputs
    rw [pinsAt_congr hi hc, clocked_pinsAt]

/-- A run of `n` cycles uses up the input levels of those cycles. -/
theorem run_pinsAt {n : Nat} {s t : State} (h : Sys2Proof.core.run n s = .next t) (j : Nat) :
    t.pinsAt j = s.pinsAt (n + j) := by
  induction n generalizing s with
  | zero =>
    obtain rfl : s = t := Host.Outcome.next.inj h
    rw [Nat.zero_add]
  | succ n ih =>
    obtain ⟨u, hstep, hrun⟩ := exists_step_of_run h
    rw [ih hrun, step_pinsAt hstep, Nat.add_right_comm]

/-- A run keeps the parameters and the ROM (R34). -/
theorem run_sameBuild {n : Nat} {s t : State} (h : Sys2Proof.core.run n s = .next t) : SameBuild s t := by
  induction n generalizing s with
  | zero =>
    obtain rfl : s = t := Host.Outcome.next.inj h
    exact ⟨rfl, rfl⟩
  | succ n ih =>
    obtain ⟨u, hstep, hrun⟩ := exists_step_of_run h
    exact SameBuild.trans (romsNeverChange s u hstep) (ih hrun)

theorem NoReset.after_run {n m : Nat} {s t : State} (hr : NoReset (n + m) s) (h : Sys2Proof.core.run n s = .next t) :
    NoReset m t := hr.after (run_pinsAt h)

theorem LedReady.after_run {n m : Nat} {s t : State} (hl : LedReady (n + m) s) (h : Sys2Proof.core.run n s = .next t) :
    LedReady m t := hl.after (run_pinsAt h)

/-! ### A fact of each cycle -/

/-- `P` holds in each of the `n` cycles from `s`. -/
def Along (P : State → Prop) (n : Nat) (s : State) : Prop := ∀ j < n, ∃ u : State, Sys2Proof.core.run j s = .next u ∧ P u

/-- The cycle leaves what `f` reads as it is. -/
def Keeps {α : Type} (f : State → α) (u : State) : Prop := ∀ v, step u = .next v → f v = f u

section
variable {P Q : State → Prop} {n m : Nat} {s t : State}

theorem Along.one (h : P s) : Along P 1 s := fun j hj => by
  obtain rfl := Nat.lt_one_iff.mp hj
  exact ⟨s, rfl, h⟩

theorem Along.append (h : Along P n s) (hrun : Sys2Proof.core.run n s = .next t) (h' : Along P m t) :
    Along P (n + m) s := fun j hj => by
  rcases Nat.lt_or_ge j n with hlt | hge
  · exact h j hlt
  · obtain ⟨i, rfl⟩ := Nat.exists_eq_add_of_le hge
    rw [core_run_add Sys2Proof.core n i hrun]
    exact h' i (by omega)

theorem Along.cons (h : P s) (hstep : step s = .next t) (h' : Along P n t) : Along P (1 + n) s :=
  (Along.one h).append (run_one hstep) h'

theorem Along.mono (h : Along P n s) (himp : ∀ u, P u → Q u) : Along Q n s := fun j hj => by
  obtain ⟨u, hrun, hu⟩ := h j hj
  exact ⟨u, hrun, himp u hu⟩

/-- Where the run has no reset, none of its cycles has. -/
theorem Along.of_noReset (h : Along P n s) (hr : NoReset n s) (himp : ∀ u, u.pins.rst = false → P u → Q u) :
    Along Q n s := fun j hj => by
  obtain ⟨u, hrun, hu⟩ := h j hj
  have hrst : (u.pinsAt 0).rst = false := by
    rw [run_pinsAt hrun]
    exact hr j hj
  exact ⟨u, hrun, himp u hrst hu⟩

section
variable {α : Type} {f : State → α}

/-- What every cycle leaves as it is has one value up to the end of the run. -/
theorem Along.eq_of_keeps (h : Along (Keeps f) n s) {j : Nat} (hj : j ≤ n) (hrun : Sys2Proof.core.run j s = .next t) :
    f t = f s := by
  induction j generalizing t with
  | zero =>
    obtain rfl : s = t := Host.Outcome.next.inj hrun
    rfl
  | succ j ih =>
    obtain ⟨u, hu, hkeeps⟩ := h j hj
    exact (hkeeps t ((run_succ_of_run hu).symm.trans hrun)).trans (ih (Nat.le_of_succ_le hj) hu)

theorem Along.cycleTrace_of_keeps (h : Along (Keeps f) n s) : cycleTrace f n s = List.replicate n (f s) :=
  cycleTrace_eq_replicate fun j hj => by
    obtain ⟨u, hrun, _⟩ := h j hj
    exact ⟨u, hrun, h.eq_of_keeps (Nat.le_of_lt hj) hrun⟩

end
end

/-! ### The log pulse and the reboot request (R105, R217) -/

/-- The cycle raises no log pulse. -/
def EndsLog (u : State) : Prop := ∀ v, step u = .next v → v.logValid = false

/-- With no pulse raised, only the first cycle can show one. -/
theorem cycleTrace_logValid {n : Nat} {s : State} (h : Along EndsLog (n + 1) s) :
    cycleTrace State.logValid (n + 1) s = s.logValid :: List.replicate n false := by
  induction n with
  | zero => exact cycleTrace_one State.logValid s
  | succ n ih =>
    obtain ⟨u, hu, _⟩ := h (n + 1) (Nat.lt_succ_self _)
    obtain ⟨w, hw, hends⟩ := h n (by omega)
    have hlog := hends u ((run_succ_of_run hw).symm.trans hu)
    rw [cycleTrace_add _ 1 hu, ih fun j hj => h j (by omega), cycleTrace_one, hlog, List.cons_append,
      ← List.replicate_succ']

theorem CommandMove.logValid {c t : State} {i : Instr} (hm : CommandMove c i t) : t.logValid = c.logValid := by
  cases hm with
  | ends | beepsNone | beeps | plays | startsLetter | startsFill | noLetter | noColor | pauses | reboots | reserved => rfl

/-- Only a release raises the log pulse. -/
theorem Move.logValid {s t : State} (hm : Move s t) : t.logValid = false ∨ s.ph = .ksRel := by
  have hc := clocked_logValid s
  cases hm with
  | released hp => exact .inr hp
  | fetches _ _ hm => exact .inl (hm.logValid.trans hc)
  | frameDone => rw [frameDone_eq]; exact .inl hc
  | waits | scanStarts | settles | settled | pressed | nextColumn | nextRow | noKey | held | overruns | beepEnds | beepsAgain
  | noteEnds | nextNote | commandDone | notReady | nextWord | replays | replayed | stops => exact .inl hc

/-- The cycle raises no log pulse and leaves the reboot request as it is. -/
structure Calm (u : State) : Prop where
  log : EndsLog u
  req : Keeps State.rebootReq u

/-- Without a reset a cycle is a move. -/
theorem move_of_step {s t : State} (hr : s.pins.rst = false) (h : step s = .next t) : Move s t := by
  obtain ⟨hrst, _⟩ | ⟨_, hm⟩ := step_moves h
  · rw [hr] at hrst
    cases hrst
  · exact hm

theorem calm_of_noReboot {u : State} (hr : u.pins.rst = false) (hp : u.ph ≠ .ksRel)
    (hw : ¬ (u.ph = .dispFetch ∧ ∃ w, u.command = some w ∧ decodeCmd w = .reboot)) : Calm u :=
  ⟨fun _ hv => (move_of_step hr hv).logValid.resolve_right hp,
    fun _ hv => (move_of_step hr hv).rebootReq.resolve_right fun ⟨hreboot, _⟩ => hw hreboot⟩

/-- The cycles of the phases in which a command is carried out are calm. -/
theorem calm_of_busy {u : State} (hr : u.pins.rst = false) (hb : isBusy u.ph = true) : Calm u := by
  refine calm_of_noReboot hr (fun hp => ?_) fun ⟨hp, _⟩ => ?_ <;> rw [hp] at hb <;> cases hb

/-- So is the cycle that fetches a command other than REBOOT. -/
theorem calm_of_fetch {u : State} {w : Cmd} (hr : u.pins.rst = false) (hp : u.ph = .dispFetch) (hw : u.command = some w)
    (hne : decodeCmd w ≠ .reboot) : Calm u := by
  refine calm_of_noReboot hr (by simp [hp]) fun ⟨_, v, hv, hreboot⟩ => ?_
  obtain rfl := Option.some.inj (hw.symm.trans hv)
  exact hne hreboot

/-! ### The cycles of a FILL or LETTER, and of a BEEP or MELODY -/

/-- A cycle of a FILL or LETTER: the one that fetches it, or one of the renderer's phases. -/
def InFrames (u : State) : Prop :=
  u.ph = .dispFetch ∧ (∃ w, u.command = some w ∧ ((∃ k, decodeCmd w = .fill k) ∨ ∃ g, decodeCmd w = .letter g)) ∨
    u.ph = .frEmit ∨ u.ph = .frStep ∨ u.ph = .frHold

/-- A cycle of a BEEP or MELODY: the one that fetches it, or one of the tone generator's phases. -/
def InTones (u : State) : Prop :=
  u.ph = .dispFetch ∧ (∃ w, u.command = some w ∧ (decodeCmd w = .melody ∨ ∃ n f d, decodeCmd w = .beep n f d)) ∨
    u.ph = .beepOn ∨ u.ph = .beepGap ∨ u.ph = .melOn ∨ u.ph = .melGap

section
variable {u : State} (hr : u.pins.rst = false)
include hr

theorem InFrames.calm (h : InFrames u) : Calm u := by
  rcases h with ⟨hp, w, hw, ⟨k, hk⟩ | ⟨g, hg⟩⟩ | hp | hp | hp
  · exact calm_of_fetch hr hp hw (by simp [hk])
  · exact calm_of_fetch hr hp hw (by simp [hg])
  all_goals exact calm_of_busy hr (by rw [hp]; rfl)

theorem InTones.calm (h : InTones u) : Calm u := by
  rcases h with ⟨hp, w, hw, hm | ⟨n, f, d, hb⟩⟩ | hp | hp | hp | hp
  · exact calm_of_fetch hr hp hw (by simp [hm])
  · exact calm_of_fetch hr hp hw (by simp [hb])
  all_goals exact calm_of_busy hr (by rw [hp]; rfl)

/-- A frame leaves the audio channel as it is (R155). -/
theorem InFrames.keeps_audio (h : InFrames u) : Keeps State.audio u := fun v hv =>
  (move_of_step hr hv).audio.resolve_right fun hsounds => by
    rcases h with ⟨hp, w, hw, hcmd⟩ | hp | hp | hp
    · simp only [hp, hw, reduceCtorEq, false_or, true_and, Option.some.injEq, exists_eq_left'] at hsounds
      rcases hcmd with ⟨k, hk⟩ | ⟨g, hg⟩
      · simp [hk] at hsounds
      · simp [hg] at hsounds
    all_goals simp [hp] at hsounds

/-- A tone leaves the LED channel as it is (R120). -/
theorem InTones.keeps_ledValid (h : InTones u) : Keeps State.ledValid u := fun v hv => by
  obtain ⟨hsame, _⟩ := (move_of_step hr hv).sameLeds.resolve_right fun hrenders => by
    rcases h with ⟨hp, w, hw, hcmd⟩ | hp | hp | hp | hp
    · simp only [hp, hw, reduceCtorEq, false_or, true_and, Option.some.injEq, exists_eq_left'] at hrenders
      rcases hcmd with hm | ⟨n, f, d, hb⟩
      · simp [hm] at hrenders
      · simp [hb] at hrenders
    all_goals simp [hp] at hrenders
  exact hsame

end

/-! ### The phases of a wait and of a frame -/

/-- A wait stays in its phase. -/
theorem along_wait {p : Params} {s : State} {q : Phase} {ms : Nat} (hp : s.ph = q) (hq : isWait q = true)
    (hcount : s.dcnt.toNat = ms * (p.clkHz / 1000)) (hr : NoReset (waitSpan p ms) s) :
    Along (fun u => u.ph = q) (waitSpan p ms) s := fun j hj => by
  rw [waitSpan, ← hcount] at hj hr
  obtain ⟨u, hrun, _, _, hframe⟩ := run_inside_wait (by rwa [hp]) hj (hr.mono (Nat.le_of_lt hj))
  exact ⟨u, hrun, hframe.ph.trans hp⟩

/-- The words of a frame are offered in FR_EMIT. -/
theorem OffersPixel.along {s : State} {i : Nat} (h : OffersPixel s i) (hr : NoReset i s) (hl : LedReady i s) :
    Along (fun u => u.ph = .frEmit) (i + 1) s := by
  induction i generalizing s with
  | zero => exact .one h.ph
  | succ i ih =>
    obtain ⟨t, hstep, ht, hframe⟩ := h.step_next (hr 0 i.succ_pos) (hl 0 i.succ_pos)
    rw [Nat.add_comm i] at hr hl
    rw [Nat.add_comm (i + 1)]
    exact .cons h.ph hstep (ih ht (hframe.noReset hr) (hframe.ledReady hl))

theorem phaseAfterFrame_cases (p : Params) (kind : FrameKind) :
    phaseAfterFrame p kind = .frHold ∨ phaseAfterFrame p kind = .frStep := by
  unfold phaseAfterFrame
  split
  · exact .inl rfl
  · split
    · exact .inl rfl
    · exact .inr rfl

section
variable {p : Params} {kind : FrameKind} {g : Fin 5} {idx r : Nat} {s t : State}

/-- A frame and the wait that follows it are cycles of their command. -/
theorem OffersPixel.along_frame (h : OffersPixel s 24) (hregs : FrameRegs p kind idx r s)
    (hfit : WaitFits p (msAfterFrame p kind)) (hr : NoReset (25 + waitSpan p (msAfterFrame p kind)) s)
    (hl : LedReady 25 s) : Along InFrames (25 + waitSpan p (msAfterFrame p kind)) s := by
  obtain ⟨t, hrun, hwait, ht⟩ := h.ledRun_frame hregs hfit (hr.mono (Nat.le_add_right ..)) hl
  have hq := phaseAfterFrame_cases p kind
  have hframe := h.along (hr.mono (by omega)) (hl.mono (by omega))
  have hrest := along_wait (p := p) hwait.ph (by rcases hq with hq | hq <;> rw [hq] <;> rfl)
    (hwait.count.trans (by rw [ht.cfg])) (hr.after_run hrun.run)
  refine (hframe.mono fun u hu => .inr (.inl hu)).append hrun.run (hrest.mono fun u hu => ?_)
  rcases hq with hq | hq
  · exact .inr (.inr (.inr (hu.trans hq)))
  · exact .inr (.inr (.inl (hu.trans hq)))

/-- So are the replays of a letter. -/
theorem OffersPixel.along_replays {m : Nat} (h : OffersPixel s 24) (hregs : FrameRegs p .letter g.val r s)
    (hcount : r + m = 24) (hm : p.renderMode = .replay) (hfit : WaitFits p 100) (hr : NoReset ((m + 1) * replaySpan p) s)
    (hl : LedReady ((m + 1) * replaySpan p) s) : Along InFrames ((m + 1) * replaySpan p) s := by
  have hms : msAfterFrame p .letter = 100 := by rw [msAfterFrame, hm]
  have hone {r : Nat} {s : State} (h : OffersPixel s 24) (hregs : FrameRegs p .letter g.val r s)
      (hr : NoReset (replaySpan p) s) (hl : LedReady (replaySpan p) s) : Along InFrames (replaySpan p) s := by
    have halong := h.along_frame hregs
    rw [hms] at halong
    exact halong hfit hr (hl.mono (Nat.le_add_right ..))
  induction m generalizing r s with
  | zero =>
    rw [Nat.zero_add, Nat.one_mul] at hr hl ⊢
    exact hone h hregs hr hl
  | succ m ih =>
    rw [Nat.succ_mul, Nat.add_comm] at hr hl ⊢
    have hr' := hr.mono (Nat.le_add_right ..)
    have hl' := hl.mono (Nat.le_add_right ..)
    obtain ⟨c, hrun, _, hframe, hc, _⟩ := h.run_replay hregs hm hfit hr' hl'
    obtain ⟨t, hexit, _, hoffer, ht⟩ := hc.leaveFrStep_again hframe (by omega)
    rw [hexit] at hrun
    exact (hone h hregs hr' hl').append hrun (ih hoffer ht (by omega) (hr.after_run hrun) (hl.after_run hrun))

/-- And so is the hold after the last replay. -/
theorem OffersPixel.along_replayedLetter (h : OffersPixel s 24) (hregs : FrameRegs p .letter g.val 0 s)
    (hm : p.renderMode = .replay) (hfit : WaitFits p 500) (hr : NoReset (25 * replaySpan p + waitSpan p 500) s)
    (hl : LedReady (25 * replaySpan p) s) : Along InFrames (25 * replaySpan p + waitSpan p 500) s := by
  have hr' := hr.mono (Nat.le_add_right ..)
  have hfit' : WaitFits p 100 := by
    unfold WaitFits at *
    omega
  obtain ⟨t, hrun, hwait, ht⟩ := h.ledRun_replays (m := 24) hregs rfl hm hfit hr' hl
  have hhold := along_wait (p := p) hwait.ph rfl (hwait.count.trans (by rw [ht.cfg])) (hr.after_run hrun.run)
  exact (h.along_replays (m := 24) hregs rfl hm hfit' hr' hl).append hrun.run
    (hhold.mono fun u hu => .inr (.inr (.inr hu)))

end

/-! ### The phases of a tone -/

section
variable {p : Params} {on gap : Phase} {gapMs : Nat}

/-- A tone and its silence stay in the tone's two phases. -/
theorem Sounds.along {x : Note} {s : State} (h : Sounds p on x s) (hph : TonePhases on gap gapMs) (hfit : WaitFits p gapMs)
    (hr : NoReset (toneSpan p gapMs x) s) : Along (fun u => u.ph = on ∨ u.ph = gap) (toneSpan p gapMs x) s := by
  have hr' := hr.mono (Nat.le_add_right ..)
  obtain ⟨u, htone, hu⟩ := audioRun_wait h.ph hph.on_isWait h.count hr'
  rw [hph.exit] at htone
  have hcfg : u.cfg = p := (congrArg State.cfg hu :).trans h.cfg
  have hon := along_wait h.ph hph.on_isWait h.count hr'
  have hgap := along_wait (s := u.toneOff.loadWait gapMs gap) rfl hph.gap_isWait
    (fitCount_toNat_of_fits (s := u.toneOff) hcfg hfit) (hr.after_run htone.run)
  exact (hon.mono fun _ => .inl).append htone.run (hgap.mono fun _ => .inr)

/-- So does a list of tones. -/
theorem ToneSequence.along {P : List Note → State → Prop} (h : ToneSequence p on gap gapMs P) (hfit : WaitFits p gapMs)
    {x : Note} {l : List Note} {s : State} (hP : P (x :: l) s) (hr : NoReset ((x :: l).map (toneSpan p gapMs)).sum s) :
    Along (fun u => u.ph = on ∨ u.ph = gap) ((x :: l).map (toneSpan p gapMs)).sum s := by
  induction l generalizing x s with
  | nil =>
    simp only [List.map_cons, List.map_nil, List.sum_cons, List.sum_nil, Nat.add_zero] at hr ⊢
    exact (h.sounds hP).along h.phases hfit hr
  | cons y l ih =>
    rw [List.map_cons, List.sum_cons] at hr ⊢
    have hr' := hr.mono (Nat.le_add_right ..)
    obtain ⟨c, hrun, hframe⟩ := (h.sounds hP).audioRun h.phases hfit hr'
    obtain ⟨t, hexit, ht, _⟩ := h.next hP hframe
    rw [hexit] at hrun
    exact ((h.sounds hP).along h.phases hfit hr').append hrun.run (ih ht (hr.after_run hrun.run))

end

end Sys2Proof.Machine
end

section
/-! Whole dispatches with the reference ROM (spec 43_dispatcher.md R177 to R194). A program is its commands in a row: each is a
run from the cycle that fetches it to the one that fetches the next, and `END` or `REBOOT` is its last cycle. -/

namespace Sys2Proof.Machine

/-! ### Where a program stands -/

/-- The command of index `i` of the program of key `k` is to be fetched, with the reference ROM. -/
structure Fetching (p : Params) (k : KeyCode) (i : Nat) (s : State) : Prop where
  ph : s.ph = .dispFetch
  cfg : s.cfg = p
  rom : s.rom = actProgRef p
  key : s.key = k
  apc : s.apc.toNat = i

theorem fetching_first {s : State} {k : KeyCode} (hp : s.ph = .dispFetch) (hapc : s.apc = 0)
    (hrom : s.rom = actProgRef s.cfg) (hkey : s.key = k) : Fetching s.cfg k 0 s :=
  ⟨hp, rfl, hrom, hkey, congrArg BitVec.toNat hapc⟩

section
variable {p : Params} {k : KeyCode} {i n : Nat} {s t : State}

theorem Fetching.command_eq (h : Fetching p k i s) : s.command = (programOf (actProgRef p) (keyIndex k))[i]? := by
  rw [State.command, h.rom, h.key, h.apc]

/-- A command that leaves for the next one of its program leaves the ROM as it was. -/
theorem Fetching.next (h : Fetching p k i s) (hrun : Sys2Proof.core.run n s = .next t) (hp : t.ph = .dispFetch)
    (hapc : t.apc.toNat = s.apc.toNat + 1) (hkey : t.key = s.key) : Fetching p k (i + 1) t := by
  obtain ⟨hcfg, hrom⟩ := run_sameBuild hrun
  exact ⟨hp, hcfg.trans h.cfg, hrom.trans h.rom, hkey.trans h.key, by rw [hapc, h.apc]⟩

end

/-- The cycle that fetches `END` (R172). -/
theorem step_endProg {s : State} {w : Cmd} (hp : s.ph = .dispFetch) (hr : s.pins.rst = false) (hw : s.command = some w)
    (he : decodeCmd w = .endProg) :
    ∃ v, IsWaitCount s.cfg 100 v ∧ step s = .next { s.clocked with dcnt := v, ph := .idleWait } := by
  rw [step_dispFetch hp hr hw, he, exec_endProg, ← clocked_cfg s]
  exact ⟨_, fitCount_isWaitCount s.clocked 100, rfl⟩

/-! ### The Unmapped keys (R77, R178 to R189) -/

/-- Settles O57: the program is `END`. -/
theorem unmappedKeyDispatch : Obligations.UnmappedKeyDispatch := by
  intro s hp hapc hrom hr hkey
  have hidx : ∀ k ∈ [(0x11 : KeyCode), 0x12, 0x14, 0x15, 0x16, 0x18, 0x19, 0x1A, 0x1C],
      keyIndex k ∈ [(1 : BitVec 4), 2, 4, 5, 6, 8, 9, 10, 12] := by decide
  have hw := (fetching_first hp hapc hrom rfl).command_eq
  rw [programOf_unmapped s.cfg _ (hidx s.key hkey)] at hw
  exact step_endProg hp hr hw (by decide)

/-! ### The solid-colour keys (R180, R184, R188, R191, R192) -/

/-- The program of a solid-colour key is the `FILL` of its colour and `END`. -/
def IsFillProg (p : Params) (c : Rgb) (l : List Cmd) : Prop :=
  ∃ w k, l = [w, 0] ∧ decodeCmd w = .fill k ∧ colorRom p k.toNat = some c

theorem solidColourKeys_program (p : Params) :
    ∀ e ∈ [((0x13 : KeyCode), (⟨0, 0, 0⟩ : Rgb)), (0x17, p.blueFull), (0x1B, p.redHalf), (0x1E, ⟨32, 64, 16⟩),
      (0x1F, p.greenHalf)], IsFillProg p e.2 (programOf (actProgRef p) (keyIndex e.1)) := by
  simp only [List.forall_mem_cons]
  exact ⟨⟨_, 0, rfl, by decide, congrArg some (params_off p)⟩, ⟨_, 1, rfl, by decide, rfl⟩, ⟨_, 2, rfl, by decide, rfl⟩,
    ⟨_, 4, rfl, by decide, congrArg some (params_whiteDim p)⟩, ⟨_, 3, rfl, by decide, rfl⟩, nofun⟩

/-- A FILL with the channel ready, cycle by cycle. -/
theorem fill_along {s : State} {w : Cmd} {k : BitVec 8} {c : Rgb} (hp : s.ph = .dispFetch) (hw : s.command = some w)
    (hk : decodeCmd w = .fill k) (hc : colorRom s.cfg k.toNat = some c) (hv : s.ledValid = false)
    (hfit : WaitFits s.cfg s.cfg.fillHoldMs) (hr : NoReset (26 + waitSpan s.cfg s.cfg.fillHoldMs) s) (hl : LedReady 26 s) :
    Along InFrames (26 + waitSpan s.cfg s.cfg.fillHoldMs) s := by
  obtain ⟨t, h, hoffer, hregs⟩ := ledRun_fill hp (hr 0 (by omega)) hw hk hc hv
  rw [show 26 + waitSpan s.cfg s.cfg.fillHoldMs = 1 + (25 + waitSpan s.cfg s.cfg.fillHoldMs) by omega] at hr ⊢
  exact (Along.one (.inl ⟨hp, w, hw, .inl ⟨k, hk⟩⟩)).append h.run
    (hoffer.along_frame hregs hfit (hr.after_run h.run) (hl.after_run (n := 1) (m := 25) h.run))

/-- Settles O58: the fill, and the end of the program. -/
theorem solidColourKeyDispatch : Obligations.SolidColourKeyDispatch := by
  intro s c hp hapc hrom hv hkey hfit hr hl
  have hfirst := fetching_first hp hapc hrom rfl
  obtain ⟨w, k, hprog, hk, hc⟩ := solidColourKeys_program s.cfg _ hkey
  have hw : s.command = some w := by rw [hfirst.command_eq, hprog]; rfl
  rw [show 27 + waitSpan s.cfg s.cfg.fillHoldMs = 26 + waitSpan s.cfg s.cfg.fillHoldMs + 1 by omega] at hr ⊢
  have hr' := hr.mono (Nat.le_add_right ..)
  obtain ⟨hwords, t, hrun, hpt, hapct, hkeyt, _, hlevel⟩ :=
    fillSpan s w k c hp hw hk hc hv (by simp [hapc]) hfit hr' hl
  have hreq := ((fill_along hp hw hk hc hv hfit hr' hl).of_noReset hr' fun u hu hin => (hin.calm hu).req).eq_of_keeps
    (Nat.le_refl _) hrun
  have hnext := hfirst.next hrun hpt hapct hkeyt
  obtain ⟨v, hcount, hstep⟩ := step_endProg (w := 0) hpt (hr.after_run hrun 0 Nat.one_pos)
    (by rw [hnext.command_eq, hprog]; rfl) (by decide)
  rw [hnext.cfg] at hcount
  exact ⟨hwords, _, (run_succ_of_run hrun).trans hstep, rfl, hcount, (clocked_pwmLevel t).trans hlevel,
    (clocked_rebootReq t).trans hreq⟩

/-! ### The reboot key (R190) -/

/-- PAUSE is the cycle that fetches it and a wait, and then comes the next command (R173, R174). -/
theorem pause_run {s : State} {w : Cmd} {d : BitVec 16} (hp : s.ph = .dispFetch) (hw : s.command = some w)
    (hd : decodeCmd w = .pause d) (hapc : s.apc.toNat < 15) (hfit : WaitFits s.cfg d.toNat)
    (hr : NoReset (1 + waitSpan s.cfg d.toNat) s) :
    Along Calm (1 + waitSpan s.cfg d.toNat) s ∧
    ∃ t, Sys2Proof.core.run (1 + waitSpan s.cfg d.toNat) s = .next t ∧ t.ph = .dispFetch ∧
      t.apc.toNat = s.apc.toNat + 1 ∧ t.key = s.key := by
  have hrst := hr 0 (by omega)
  have hstep := step_dispFetch hp hrst hw
  rw [hd, exec_pause] at hstep
  have hfetch := run_one hstep
  have hrest := hr.after_run hfetch
  have hcount := fitCount_toNat_of_fits (s := s.clocked) (clocked_cfg s) hfit
  obtain ⟨c, hwait, hframe⟩ := audioRun_wait rfl rfl hcount hrest
  have hcalm := (along_wait rfl rfl hcount hrest).of_noReset hrest fun u hu hq => calm_of_busy hu (by rw [hq]; rfl)
  have hapc' : c.apc = s.apc := (congrArg State.apc hframe).trans (clocked_apc s)
  have hnext := nextCommand_isNextIndex c
  rw [hapc'] at hnext
  exact ⟨.cons (calm_of_fetch hrst hp hw (by simp [hd])) hstep hcalm, c.nextCommand,
    (core_run_add Sys2Proof.core _ _ hfetch).trans hwait.run, rfl, hnext hapc, (congrArg State.key hframe).trans (clocked_key s)⟩

/-- The program of key '0' is a `PAUSE` of 100 ms and `REBOOT` (R190). -/
theorem rebootKey_program (p : Params) :
    programOf (actProgRef p) (keyIndex 0x1D) = [mkCmd 5 0 0 0 100, 0xC00000000000] := by
  rw [← params_rebootPauseMs p]
  rfl

/-- Settles O59: the pause, and the cycle that fetches REBOOT. -/
theorem rebootKeyDispatch : Obligations.RebootKeyDispatch := by
  intro s hp hapc hrom hkey hreq hfit hr
  have hfirst := fetching_first hp hapc hrom hkey
  have hprog := rebootKey_program s.cfg
  have hw : s.command = some (mkCmd 5 0 0 0 100) := by rw [hfirst.command_eq, hprog]; rfl
  have hspan : 100 * (s.cfg.clkHz / 1000) + 2 = 1 + waitSpan s.cfg (100 : BitVec 16).toNat + 1 := by
    rw [waitSpan_of_pos s.cfg (by decide), Nat.add_right_comm, Nat.add_comm]
    rfl
  rw [hspan] at hr ⊢
  have hr' := hr.mono (Nat.le_add_right ..)
  obtain ⟨hcalm, t, hrun, hpt, hapct, hkeyt⟩ := pause_run hp hw (decodeCmd_mkCmd_pause 0 0 0 100) (by simp [hapc]) hfit hr'
  have hkeeps := hcalm.mono fun _ hu => hu.req
  have hnext := hfirst.next hrun hpt hapct hkeyt
  have hstep := step_dispFetch (w := 0xC00000000000) hpt (hr.after_run hrun 0 Nat.one_pos)
    (by rw [hnext.command_eq, hprog]; rfl)
  refine ⟨⟨_, (run_succ_of_run hrun).trans hstep, rfl, rfl⟩, fun n hn => ?_⟩
  rcases Nat.lt_succ_iff_lt_or_eq.mp hn with hlt | rfl
  · obtain ⟨u, hu, _⟩ := hcalm n hlt
    exact ⟨u, hu, (hkeeps.eq_of_keeps (Nat.le_of_lt hlt) hu).trans hreq⟩
  · exact ⟨t, hrun, (hkeeps.eq_of_keeps (Nat.le_refl _) hrun).trans hreq⟩

end Sys2Proof.Machine
end

section
/-! The dispatch of key '1' (spec 43_dispatcher.md R177, R194). Each of its commands is a run with what the audio and the LED
channel show in it, and the dispatch is these runs in a row. A LETTER shows nothing new on the audio channel, and a BEEP or
MELODY nothing on the LED channel. -/

namespace Sys2Proof.Machine

/-! ### A part of the dispatch -/

/-- In the `n` cycles from `s` to `t` the audio channel shows `a`, the LED channel accepts `l`, and no cycle raises a log pulse
or touches the reboot request. -/
structure Shows (n : Nat) (a : List (BitVec 12 × BitVec 13)) (l : List (Option PixWord)) (s t : State) : Prop where
  run : Sys2Proof.core.run n s = .next t
  audio : cycleTrace State.audio n s = a
  leds : cycleTrace State.ledAccepted n s = l
  calm : Along Calm n s

theorem Shows.trans {n m : Nat} {a a' : List (BitVec 12 × BitVec 13)} {l l' : List (Option PixWord)} {s t u : State}
    (h : Shows n a l s t) (h' : Shows m a' l' t u) : Shows (n + m) (a ++ a') (l ++ l') s u where
  run := (core_run_add Sys2Proof.core n m h.run).trans h'.run
  audio := by rw [cycleTrace_add _ m h.run, h.audio, h'.audio]
  leds := by rw [cycleTrace_add _ m h.run, h.leds, h'.leds]
  calm := h.calm.append h.run h'.calm

/-- Command `i` of key '1' is to be fetched, with no word pending and `a` on the audio channel. -/
structure IntroAt (p : Params) (i : Nat) (a : BitVec 12 × BitVec 13) (s : State) : Prop where
  fetching : Fetching p 0x10 i s
  dark : s.ledValid = false
  audio : s.audio = a

/-- A run that offers no word accepts none. -/
theorem cycleTrace_ledAccepted_of_dark {n : Nat} {s : State} (h : Along (Keeps State.ledValid) n s)
    (hv : s.ledValid = false) : cycleTrace State.ledAccepted n s = List.replicate n none :=
  cycleTrace_eq_replicate fun j hj => by
    obtain ⟨u, hrun, _⟩ := h j hj
    exact ⟨u, hrun, ledAccepted_of_dark ((h.eq_of_keeps (Nat.le_of_lt hj) hrun).trans hv)⟩

section
variable {p : Params} {i n : Nat} {a b : BitVec 12 × BitVec 13} {s t : State} (h : IntroAt p i a s)
include h

theorem IntroAt.command_eq : s.command = (introProg p)[i]? := h.fetching.command_eq

theorem IntroAt.apc_lt (hi : i < 15) : s.apc.toNat < 15 := by rwa [h.fetching.apc]

/-- A BEEP or MELODY as a part of the dispatch. -/
theorem IntroAt.shows_tones {l : List (BitVec 12 × BitVec 13)} (halong : Along InTones n s) (hr : NoReset n s)
    (htrace : cycleTrace State.audio n s = s.audio :: l) (hrun : Sys2Proof.core.run n s = .next t) (hp : t.ph = .dispFetch)
    (hapc : t.apc.toNat = s.apc.toNat + 1) (hkey : t.key = s.key) (haudio : t.audio = b) :
    Shows n (a :: l) (List.replicate n none) s t ∧ IntroAt p (i + 1) b t := by
  have hkeeps := halong.of_noReset hr fun u hu hin => hin.keeps_ledValid hu
  refine ⟨⟨hrun, by rw [htrace, h.audio], cycleTrace_ledAccepted_of_dark hkeeps h.dark,
    halong.of_noReset hr fun u hu hin => hin.calm hu⟩, h.fetching.next hrun hp hapc hkey, ?_, haudio⟩
  exact (hkeeps.eq_of_keeps (Nat.le_refl n) hrun).trans h.dark

/-- A LETTER as a part of the dispatch. -/
theorem IntroAt.shows_frames {l : List (Option PixWord)} (halong : Along InFrames n s) (hr : NoReset n s)
    (htrace : cycleTrace State.ledAccepted n s = l) (hrun : Sys2Proof.core.run n s = .next t) (hdone : CommandDone s t) :
    Shows n (List.replicate n a) l s t ∧ IntroAt p (i + 1) a t := by
  have hkeeps := halong.of_noReset hr fun u hu hin => hin.keeps_audio hu
  obtain ⟨hp, hapc, hkey, hdark, _⟩ := hdone
  refine ⟨⟨hrun, by rw [hkeeps.cycleTrace_of_keeps, h.audio], htrace,
    halong.of_noReset hr fun u hu hin => hin.calm hu⟩, h.fetching.next hrun hp hapc hkey, hdark, ?_⟩
  exact (hkeeps.eq_of_keeps (Nat.le_refl n) hrun).trans h.audio

end

/-! ### BEEP -/

/-- A sounding BEEP, cycle by cycle. -/
theorem beep_along {s : State} {w : Cmd} {n : BitVec 8} {f d : BitVec 16} (hp : s.ph = .dispFetch) (hw : s.command = some w)
    (hb : decodeCmd w = .beep n f d) (hn : n ≠ 0) (hfit : WaitFits s.cfg d.toNat) (hgap : WaitFits s.cfg 200)
    (hr : NoReset (1 + n.toNat * (waitSpan s.cfg d.toNat + waitSpan s.cfg 200)) s) :
    Along InTones (1 + n.toNat * (waitSpan s.cfg d.toNat + waitSpan s.cfg 200)) s := by
  obtain ⟨t, hstep, _, hleft⟩ := step_beep hp (hr 0 (by omega)) hw hb hn hfit
  obtain ⟨m, hm⟩ : ∃ m, n.toNat = m + 1 := ⟨n.toNat - 1, by bv_omega⟩
  have hspan : n.toNat * (waitSpan s.cfg d.toNat + waitSpan s.cfg 200) =
      ((List.replicate n.toNat (⟨f, d⟩ : Note)).map (toneSpan s.cfg 200)).sum := by simp [toneSpan]
  rw [hspan, hm] at hr ⊢
  rw [hm] at hleft
  have hrest := (beepSequence hfit).along hgap hleft (hr.after_run (run_one hstep))
  refine .cons (.inl ⟨hp, w, hw, .inr ⟨n, f, d, hb⟩⟩) hstep (hrest.mono fun u hu => ?_)
  rcases hu with hu | hu
  · exact .inr (.inl hu)
  · exact .inr (.inr (.inl hu))

/-- The two beeps of key '1' (R177). -/
theorem IntroAt.beeps {p : Params} {a : BitVec 12 × BitVec 13} {s : State} (h : IntroAt p 0 a s) (hfit : WaitFits p 200)
    (hr : NoReset (1 + 2 * (waitSpan p 200 + waitSpan p 200)) s) :
    ∃ t, Shows (1 + 2 * (waitSpan p 200 + waitSpan p 200)) (a :: beepTrace p 2 p.buzzerFreqHz 200)
        (List.replicate (1 + 2 * (waitSpan p 200 + waitSpan p 200)) none) s t ∧
      IntroAt p 1 (BitVec.ofNat 12 (div16 p p.buzzerFreqHz), 0) t := by
  have hw := h.command_eq
  have hb := decodeCmd_mkCmd_beep 0 2 p.buzzerFreqHz 200
  rw [introProg, params_introBeepTimes, params_introBeepMs] at hw
  obtain ⟨hp, rfl, _⟩ := h.fetching
  obtain ⟨htrace, t, hrun, hpt, hapc, hkey, hlevel, hdiv, _⟩ :=
    beepSpan s _ 2 s.cfg.buzzerFreqHz 200 hp hw hb (by decide) (h.apc_lt (by decide)) hfit hfit hr
  have hquot : t.pwmDiv16 = BitVec.ofNat 12 (div16 s.cfg s.cfg.buzzerFreqHz) :=
    BitVec.eq_of_toNat_eq (hdiv.trans (div16_toNat _ _).symm)
  exact ⟨t, h.shows_tones (beep_along hp hw hb (by decide) hfit hfit hr) hr htrace hrun hpt hapc hkey
    (Prod.ext hquot hlevel)⟩

/-! ### LETTER -/

section
variable {s : State} {w : Cmd} {b : BitVec 8} {g : Fin 5} (hp : s.ph = .dispFetch) (hw : s.command = some w)
  (hg : decodeCmd w = .letter b) (hb : b.toNat = g.val) (hv : s.ledValid = false)
include hp hw hg hb hv

/-- A LETTER in the mode of the build, with the channel ready: the words that it shows, and the next command (R127). -/
theorem letter_run (hapc : s.apc.toNat < 15) (hhold : WaitFits s.cfg s.cfg.glyphHoldMs) (hfit : WaitFits s.cfg 500)
    (hr : NoReset (letterSpan s.cfg) s) (hl : LedReady (letterSpan s.cfg) s) :
    cycleTrace State.ledAccepted (letterSpan s.cfg) s = letterTrace s.cfg g ∧
    ∃ t, Sys2Proof.core.run (letterSpan s.cfg) s = .next t ∧ CommandDone s t := by
  have hlt : b.toNat < 5 := by omega
  obtain rfl : g = ⟨b.toNat, hlt⟩ := Fin.ext hb.symm
  obtain ⟨hsingle, hreplay⟩ := letterSpanHolds s w b hlt hp hw hg hv hapc
  cases hm : s.cfg.renderMode with
  | single =>
    have hspan : letterSpan s.cfg = 26 + waitSpan s.cfg s.cfg.glyphHoldMs := by rw [letterSpan, hm]
    rw [hspan] at hr hl ⊢
    exact (hsingle hm hhold hr (hl.mono (Nat.le_add_right ..))).2
  | replay =>
    have hspan : letterSpan s.cfg = 626 + 3000 * (s.cfg.clkHz / 1000) := by
      rw [← replay_letter_cycles, letterSpan, hm]
      rfl
    rw [hspan] at hr hl ⊢
    obtain ⟨_, htrace, _, hrun⟩ := hreplay hm hfit hr hl
    exact ⟨by rw [htrace, letterTrace, hm]; rfl, hrun⟩

/-- The same, cycle by cycle. -/
theorem letter_along (hhold : WaitFits s.cfg s.cfg.glyphHoldMs) (hfit : WaitFits s.cfg 500)
    (hr : NoReset (letterSpan s.cfg) s) (hl : LedReady (letterSpan s.cfg) s) :
    Along InFrames (letterSpan s.cfg) s := by
  have hspan : 0 < letterSpan s.cfg := by
    unfold letterSpan
    split <;> omega
  obtain ⟨t, h, hoffer, hregs⟩ := ledRun_letter (by omega) hp (hr 0 hspan) hw hg hv
  rw [hb] at hregs
  have hfetch : Along InFrames 1 s := .one (.inl ⟨hp, w, hw, .inr ⟨b, hg⟩⟩)
  cases hm : s.cfg.renderMode with
  | single =>
    have hms : msAfterFrame s.cfg .letter = s.cfg.glyphHoldMs := by rw [msAfterFrame, hm]
    have hspan : letterSpan s.cfg = 1 + (25 + waitSpan s.cfg (msAfterFrame s.cfg .letter)) := by
      rw [hms, letterSpan, hm, ← Nat.add_assoc]
    rw [hspan] at hr hl ⊢
    exact hfetch.append h.run (hoffer.along_frame hregs (by rwa [hms]) (hr.after_run h.run)
      ((hl.after_run h.run).mono (Nat.le_add_right ..)))
  | replay =>
    have hspan : letterSpan s.cfg = 1 + (25 * replaySpan s.cfg + waitSpan s.cfg 500) := by
      rw [← Nat.add_assoc, letterSpan, hm]
      rfl
    rw [hspan] at hr hl ⊢
    exact hfetch.append h.run (hoffer.along_replayedLetter hregs hm hfit (hr.after_run h.run)
      ((hl.after_run h.run).mono (Nat.le_add_right ..)))

end

/-- The command of each letter in the program of key '1' (R177). -/
theorem introProg_letter (p : Params) (g : Fin 5) :
    ∃ w b, (introProg p)[g.val + 1]? = some w ∧ decodeCmd w = .letter b ∧ b.toNat = g.val := by
  fin_cases g
  · exact ⟨_, 0, rfl, by decide, rfl⟩
  · exact ⟨_, 1, rfl, by decide, rfl⟩
  · exact ⟨_, 2, rfl, by decide, rfl⟩
  · exact ⟨_, 3, rfl, by decide, rfl⟩
  · exact ⟨_, 4, rfl, by decide, rfl⟩

section
variable {p : Params} {a : BitVec 12 × BitVec 13} {s : State} (hhold : WaitFits p p.glyphHoldMs) (hfit : WaitFits p 500)
include hhold hfit

/-- A letter of key '1'. -/
theorem IntroAt.letter {g : Fin 5} (h : IntroAt p (g.val + 1) a s) (hr : NoReset (letterSpan p) s)
    (hl : LedReady (letterSpan p) s) :
    ∃ t, Shows (letterSpan p) (List.replicate (letterSpan p) a) (letterTrace p g) s t ∧ IntroAt p (g.val + 2) a t := by
  obtain ⟨w, b, hword, hg, hb⟩ := introProg_letter p g
  have hw := h.command_eq.trans hword
  obtain ⟨hp, rfl, _⟩ := h.fetching
  obtain ⟨htrace, t, hrun, hdone⟩ := letter_run hp hw hg hb h.dark (h.apc_lt (by omega)) hhold hfit hr hl
  exact ⟨t, h.shows_frames (letter_along hp hw hg hb h.dark hhold hfit hr hl) hr htrace hrun hdone⟩

/-- The first `m` letters of key '1', one after the other. -/
theorem IntroAt.letters {m : Nat} (hm : m ≤ 5) (h : IntroAt p 1 a s) (hr : NoReset (m * letterSpan p) s)
    (hl : LedReady (m * letterSpan p) s) :
    ∃ t, Shows (m * letterSpan p) (List.replicate (m * letterSpan p) a)
        (((List.finRange 5).take m).flatMap (letterTrace p)) s t ∧ IntroAt p (m + 1) a t := by
  induction m with
  | zero =>
    rw [Nat.zero_mul]
    exact ⟨s, ⟨rfl, rfl, rfl, nofun⟩, h⟩
  | succ m ih =>
    rw [Nat.succ_mul] at hr hl ⊢
    obtain ⟨t, hfirst, ht⟩ := ih (by omega) (hr.mono (Nat.le_add_right ..)) (hl.mono (Nat.le_add_right ..))
    obtain ⟨u, hlast, hu⟩ := IntroAt.letter (g := ⟨m, hm⟩) hhold hfit ht (hr.after_run hfirst.run)
      (hl.after_run hfirst.run)
    refine ⟨u, ?_, hu⟩
    have hall := hfirst.trans hlast
    rw [List.replicate_append_replicate] at hall
    rwa [List.take_add_one, List.flatMap_append, List.getElem?_eq_getElem (by simpa using hm), List.getElem_finRange,
      Option.toList_some, List.flatMap_singleton]

end

/-! ### MELODY -/

/-- The melody's notes, as their cycles (R154). -/
theorem melodySpan_eq (p : Params) : melodySpan p = (p.melody.toList.map (toneSpan p 150)).sum := by
  rw [melodySpan, melody_toList, List.map_map, Fin.sum_univ_def]
  rfl

theorem melodyTrace_eq (p : Params) : melodyTrace p = p.melody.toList.flatMap (noteTrace p 150) := by
  rw [melodyTrace, melody_toList, List.flatMap_map]
  rfl

/-- When the notes are all played, the divider is that of the last one. -/
theorem AfterLastTone.audio {p : Params} {c : State} (h : AfterLastTone (NotesLeft p) c) :
    c.audio = (BitVec.ofNat 12 (div16 p (p.melody.get 7).freq), 0) := by
  obtain ⟨x, n, u, hu, hc⟩ := h
  have hlen : 1 = 8 - u.tgNote.toNat := by simpa using congrArg List.length hu.tones
  have hlast : u.tgNote = 7 := by bv_omega
  have hdiv := hu.sounds.div
  rw [hlast] at hdiv
  exact Prod.ext (hc.pwmDiv16.trans hdiv) hc.pwmLevel

/-- The melody of key '1' (R177). -/
theorem IntroAt.melody {p : Params} {a : BitVec 12 × BitVec 13} {s : State} (h : IntroAt p 6 a s)
    (hfit : ∀ i, WaitFits p (p.melody.get i).ms.toNat) (hgap : WaitFits p 150) (hr : NoReset (1 + melodySpan p) s) :
    ∃ t, Shows (1 + melodySpan p) (a :: melodyTrace p) (List.replicate (1 + melodySpan p) none) s t ∧
      IntroAt p 7 (BitVec.ofNat 12 (div16 p (p.melody.get 7).freq), 0) t := by
  have hw : s.command = some 0x400000000000 := h.command_eq
  have hm : decodeCmd 0x400000000000 = .melody := by decide
  obtain ⟨hp, rfl, _⟩ := h.fetching
  obtain ⟨t, hstep, hframe, hleft⟩ := step_melody hp (hr 0 (by omega)) hw hm hfit
  obtain ⟨x, l, hnotes⟩ : ∃ x l, s.cfg.melody.toList = x :: l := ⟨_, _, drop_melody s.cfg 0⟩
  have hspan := melodySpan_eq s.cfg
  rw [hnotes] at hspan hleft
  obtain ⟨htrace, c, hrun, hapc, hkept, hafter⟩ :=
    (melodySequence hfit).command hgap hspan hstep hframe hleft (h.apc_lt (by decide)) hr
  have hrest := (melodySequence hfit).along hgap hleft
  rw [← hspan] at hrest
  have halong : Along InTones (1 + melodySpan s.cfg) s :=
    .cons (.inl ⟨hp, _, hw, .inl hm⟩) hstep
      ((hrest (hr.after_run (run_one hstep))).mono fun u hu =>
        .inr (.inr (.inr hu)))
  rw [← hnotes, ← melodyTrace_eq] at htrace
  exact ⟨c.nextCommand, h.shows_tones halong hr htrace hrun rfl hapc hkept.key hafter.audio⟩

/-! ### The whole dispatch (R177, R194, R241) -/

/-- The idle wait of 100 ms begins after key '1', in silence, with no word pending and no log pulse. -/
structure IntroDone (p : Params) (t : State) : Prop where
  ph : t.ph = .idleWait
  count : IsWaitCount p 100 t.dcnt
  key : t.key = 0x10
  silent : t.pwmLevel = 0
  dark : t.ledValid = false
  log : t.logValid = false

/-- `END` of key '1'. -/
theorem IntroAt.ends {p : Params} {q : BitVec 12} {s : State} (h : IntroAt p 7 (q, 0) s) (hr : NoReset 1 s) :
    ∃ t, Shows 1 [(q, 0)] [none] s t ∧ IntroDone p t := by
  have hw : s.command = some 0 := h.command_eq
  obtain ⟨hp, rfl, _, hkey, _⟩ := h.fetching
  have hrst := hr 0 Nat.one_pos
  obtain ⟨v, hcount, hstep⟩ := step_endProg hp hrst hw (by decide)
  have hsilent : s.pwmLevel = 0 := congrArg Prod.snd h.audio
  refine ⟨_, ⟨run_one hstep, ?_, ?_, .one (calm_of_fetch hrst hp hw (by decide))⟩, rfl,
    hcount, (clocked_key s).trans hkey, (clocked_pwmLevel s).trans hsilent, (clocked_ledValid s).trans h.dark, rfl⟩
  · rw [cycleTrace_one, h.audio]
  · rw [cycleTrace_one, ledAccepted_of_dark h.dark]

/-- What the audio channel shows in the dispatch, from the value `a` on. -/
def introAudio (p : Params) (a : BitVec 12 × BitVec 13) : List (BitVec 12 × BitVec 13) :=
  a :: beepTrace p 2 p.buzzerFreqHz 200 ++
    List.replicate (5 * letterSpan p + 1) (BitVec.ofNat 12 (div16 p p.buzzerFreqHz), 0) ++
    melodyTrace p ++ [(BitVec.ofNat 12 (div16 p (p.melody.get 7).freq), 0)]

/-- What the LED channel accepts in it. -/
def introLeds (p : Params) : List (Option PixWord) :=
  List.replicate (1 + 2 * (waitSpan p 200 + waitSpan p 200)) none ++
    (List.finRange 5).flatMap (letterTrace p) ++ List.replicate (1 + melodySpan p + 1) none

/-- The commands of key '1' in a row. -/
theorem IntroAt.dispatch {p : Params} {a : BitVec 12 × BitVec 13} {s : State} (h : IntroAt p 0 a s) (hfit : WaitFits p 500)
    (hhold : WaitFits p p.glyphHoldMs) (hnotes : ∀ i, WaitFits p (p.melody.get i).ms.toNat) (hr : NoReset (introSpan p) s)
    (hl : LedReady (introSpan p) s) : ∃ t, Shows (introSpan p) (introAudio p a) (introLeds p) s t ∧ IntroDone p t := by
  have hbeep : WaitFits p 200 := by
    unfold WaitFits at *
    omega
  have hgap : WaitFits p 150 := by
    unfold WaitFits at *
    omega
  have hspan : introSpan p = 1 + 2 * (waitSpan p 200 + waitSpan p 200) +
      (5 * letterSpan p + ((1 + melodySpan p) + 1)) := by
    rw [introSpan]
    omega
  rw [hspan] at hr hl ⊢
  obtain ⟨t, hbeeps, ht⟩ := h.beeps hbeep (hr.mono (Nat.le_add_right ..))
  have hafterBeeps := hr.after_run hbeeps.run
  obtain ⟨u, hletters, hu⟩ := IntroAt.letters hhold hfit (Nat.le_refl 5) ht (hafterBeeps.mono (Nat.le_add_right ..))
    ((hl.after_run hbeeps.run).mono (Nat.le_add_right ..))
  have hafterLetters := hafterBeeps.after_run hletters.run
  obtain ⟨v, hmelody, hv⟩ := hu.melody hnotes hgap (hafterLetters.mono (Nat.le_add_right ..))
  obtain ⟨w, hend, hdone⟩ := hv.ends (hafterLetters.after_run hmelody.run)
  have hall := hbeeps.trans (hletters.trans (hmelody.trans hend))
  have htake : (List.finRange 5).take 5 = List.finRange 5 := rfl
  rw [htake] at hall
  refine ⟨w, ?_, hdone⟩
  convert hall using 1
  · simp [introAudio, List.replicate_succ']
  · simp [introLeds, List.replicate_succ']

/-- The cycles of the dispatch with the default holds and notes (R241). -/
theorem introSpan_default (p : Params) (hhold : p.glyphHoldMs = 3000) (hnotes : ∀ i, (p.melody.get i).ms = 500) :
    introSpan p = (if p.renderMode = .single then 133 else 3133) + 21000 * (p.clkHz / 1000) := by
  have hmelody : melodySpan p = 8 * (500 * (p.clkHz / 1000) + 150 * (p.clkHz / 1000)) := by
    simp [melodySpan, hnotes, waitSpan_of_pos]
  rw [introSpan, hmelody, letterSpan, hhold]
  cases p.renderMode <;> simp only [waitSpan_of_pos, Nat.reduceLT, reduceCtorEq, if_true, if_false] <;> omega

/-- Settles O4: the beeps, the five letters, the melody and `END`, one after the other. -/
theorem introKeyDispatch : Obligations.IntroKeyDispatch := by
  intro s hp hapc hrom hkey hdark hfit hhold hnotes hr hl
  have hstart : IntroAt s.cfg 0 s.audio s := ⟨fetching_first hp hapc hrom hkey, hdark, rfl⟩
  obtain ⟨t, hshows, hdone⟩ := hstart.dispatch hfit hhold hnotes hr hl
  have hlog := hshows.calm.mono fun _ hu => hu.log
  have hreq := hshows.calm.mono fun _ hu => hu.req
  have hpos : introSpan s.cfg - 1 + 1 = introSpan s.cfg := by
    rw [introSpan]
    omega
  refine ⟨hshows.audio, hshows.leds, ?_, hreq.cycleTrace_of_keeps, ⟨t, hshows.run, hdone.ph, hdone.count,
    hdone.key.trans hkey.symm, hdone.silent, hdone.dark, hreq.eq_of_keeps (Nat.le_refl _) hshows.run, hdone.log⟩,
    introSpan_default s.cfg⟩
  rw [← hpos] at hlog
  have htrace := cycleTrace_logValid hlog
  rwa [hpos] at htrace

end Sys2Proof.Machine
end

