-- ==== Sys2Proof/Proofs/ControlLoop.lean ====
section
/-! The control loop (spec 44_control_loop.md R201 to R205): the start of a scan, the terminal phases, and where the columns are
read. Outside KS_COL and KS_REL a cycle hands the synchroniser on and does not look at it: the always-running part only shifts
it, and every command and wait exit commutes with a write of it. -/

namespace Sys2Proof.Machine

/-! ### IDLE_WAIT (R102, R201) -/

/-- Settles O26: the exit of the wait is the scan's start. -/
theorem idleExitStartsScan : Obligations.IdleExitStartsScan := by
  intro s hr hp hd
  have hstep : step s = .next s.clocked.scanStart := by
    rw [step_of_isWait_of_le (by rw [hp]; rfl) hr hd, hp]
    rfl
  refine ⟨s.clocked.fit 16 s.clocked.cfg.settleCyc, ?_, hstep⟩
  rw [← clocked_cfg s]
  exact fit_isSettleCount s.clocked

/-! ### HALT and FAULT (R204, R212, R216, R239) -/

/-- Settles O32: the turn of either phase is the always-running part. -/
theorem terminalPhasesStay : Obligations.TerminalPhasesStay := by
  intro s hr hp
  rw [step_of_run hr]
  rcases hp with hp | hp <;> rw [turn, hp] <;> rfl

/-- HALT and the invariant stay for as long as no reset comes. -/
theorem run_halt {s : State} {n : Nat} (hinv : StateInv s) (hp : s.ph = .halt) (hr : NoReset n s) :
    ∃ t : State, Sys2Proof.core.run n s = .next t ∧ StateInv t ∧ t.ph = .halt := by
  induction n with
  | zero => exact ⟨s, rfl, hinv, hp⟩
  | succ n ih =>
    obtain ⟨t, hrun, ht, htp⟩ := ih (hr.mono n.le_succ)
    have hrst : t.pins.rst = false := hr.after_run hrun 0 Nat.one_pos
    exact ⟨t.clocked, (run_succ_of_run hrun).trans (terminalPhasesStay t hrst (.inl htp)), clocked_stateInv ht,
      (clocked_ph t).trans htp⟩

/-- Settles O60: the invariant in HALT says what the ports show. -/
theorem haltIsTerminal : Obligations.HaltIsTerminal := by
  intro s n hinv hp hr
  obtain ⟨t, hrun, ht, htp⟩ := run_halt hinv hp hr
  obtain ⟨hreboot, hrow, hsilent, _, _, hdark, _⟩ := (stateInv_iff_of_halt htp).mp ht
  exact ⟨t, hrun, htp, hreboot, hrow, hdark, pwmOut_of_level_zero hsilent⟩

/-! ### Writes of the synchroniser (R101) -/

/-- The state with the synchroniser's two stages overwritten. -/
def State.withSync (s : State) (a b : BitVec 4) : State := { s with sync1 := a, sync2 := b }

@[simp] theorem withSync_cfg (s : State) (a b : BitVec 4) : (s.withSync a b).cfg = s.cfg := rfl
@[simp] theorem withSync_tgRem (s : State) (a b : BitVec 4) : (s.withSync a b).tgRem = s.tgRem := rfl
@[simp] theorem withSync_tgNote (s : State) (a b : BitVec 4) : (s.withSync a b).tgNote = s.tgNote := rfl
@[simp] theorem withSync_frIdx (s : State) (a b : BitVec 4) : (s.withSync a b).frIdx = s.frIdx := rfl
@[simp] theorem withSync_frRep (s : State) (a b : BitVec 4) : (s.withSync a b).frRep = s.frRep := rfl

/-- The outcome with `f` applied to its next state. -/
def mapNext (f : State → State) : Host.Outcome State Fault Refusal → Host.Outcome State Fault Refusal
  | .next t => .next (f t)
  | .fault r => .fault r
  | .refused r => .refused r

/-- `f` neither reads the synchroniser nor writes it: its outcome is the same but for what the synchroniser held before. -/
def IgnoresSync (f : State → Host.Outcome State Fault Refusal) : Prop :=
  ∀ s a b, f (s.withSync a b) = mapNext (·.withSync a b) (f s)

/-! ### Commands and wait exits do not look at it (R205) -/

theorem startFrameOr_withSync (kind : FrameKind) (idx : BitVec 8) (s : State) (a b : BitVec 4) :
    startFrameOr kind idx (s.withSync a b) = (startFrameOr kind idx s).withSync a b := by
  unfold startFrameOr
  rw [withSync_cfg]
  cases pixWord s.cfg kind idx.toNat 24 <;> rfl

theorem execBeep_ignoresSync (n : BitVec 8) (f d : BitVec 16) : IgnoresSync (execBeep n f d) := fun s a b => by
  unfold execBeep
  split <;> rfl

theorem exec_ignoresSync (i : Instr) : IgnoresSync (exec i) := fun s a b => by
  cases i with
  | letter g => exact congrArg Host.Outcome.next (startFrameOr_withSync .letter g s a b)
  | fill k => exact congrArg Host.Outcome.next (startFrameOr_withSync .fill k s a b)
  | beep n f d => exact execBeep_ignoresSync n f d s a b
  | keyNone | key1 | key2 | key3 | keyA | key4 | key5 | key6 | keyB | key7 | key8 | key9 | keyC | keyStar | key0 | keyHash
  | keyD | endProg | melody | pause | reboot | reservedOp7 => rfl

theorem leaveBeepGap_ignoresSync : IgnoresSync leaveBeepGap := fun s a b => by
  unfold leaveBeepGap
  rw [withSync_tgRem]
  split <;> rfl

theorem leaveMelGap_ignoresSync : IgnoresSync leaveMelGap := fun s a b => by
  unfold leaveMelGap
  rw [withSync_tgNote]
  split <;> rfl

theorem leaveFrStep_ignoresSync : IgnoresSync leaveFrStep := fun s a b => by
  unfold leaveFrStep
  rw [withSync_frRep, withSync_frIdx, withSync_cfg]
  split
  · rfl
  · cases pixWord s.cfg .letter s.frIdx.toNat 24 <;> rfl

theorem waitExit_ignoresSync (p : Phase) : IgnoresSync (waitExit p) := fun s a b => by
  cases p with
  | beepGap => exact leaveBeepGap_ignoresSync s a b
  | melGap => exact leaveMelGap_ignoresSync s a b
  | frStep => exact leaveFrStep_ignoresSync s a b
  | idleWait | beepOn | melOn | frHold | pauseW | ksSettle | ksCol | ksRel | dispFetch | frEmit | halt | fault => rfl

theorem frameDone_withSync (s : State) (a b : BitVec 4) : (s.withSync a b).frameDone = s.frameDone.withSync a b := by
  rw [frameDone_eq, frameDone_eq]
  rfl

/-! ### A cycle with other columns (R205) -/

/-- The state with the synchroniser overwritten and with other levels of `col_n` in this cycle. -/
def State.withColumns (s : State) (a b c : BitVec 4) : State :=
  { s with sync1 := a, sync2 := b, inputs := { s.pins with colN := c } :: s.inputs.tail }

section
variable (s : State) (a b c : BitVec 4)

@[simp] theorem withColumns_ph : (s.withColumns a b c).ph = s.ph := rfl
@[simp] theorem withColumns_dcnt : (s.withColumns a b c).dcnt = s.dcnt := rfl
@[simp] theorem withColumns_scnt : (s.withColumns a b c).scnt = s.scnt := rfl
@[simp] theorem withColumns_command : (s.withColumns a b c).command = s.command := rfl
@[simp] theorem withColumns_frKind : (s.withColumns a b c).frKind = s.frKind := rfl
@[simp] theorem withColumns_frIdx : (s.withColumns a b c).frIdx = s.frIdx := rfl
@[simp] theorem withColumns_frPix : (s.withColumns a b c).frPix = s.frPix := rfl
@[simp] theorem withColumns_cfg : (s.withColumns a b c).cfg = s.cfg := rfl
@[simp] theorem withColumns_pins_ledReady : (s.withColumns a b c).pins.ledReady = s.pins.ledReady := rfl

/-- The PWM counter reads neither the synchroniser nor the inputs. -/
theorem pwmStep_withInputs (q : List Pins) :
    ({ s with sync1 := a, sync2 := b, inputs := q } : State).pwmStep =
      { s.pwmStep with sync1 := a, sync2 := b, inputs := q } := by
  unfold State.pwmStep
  dsimp only
  split <;> rfl

/-- The always-running part hands the synchroniser on. -/
@[simp] theorem withColumns_clocked : (s.withColumns a b c).clocked = s.clocked.withSync c a := by
  have hpwm : (s.withColumns a b c).syncStep.pwmStep =
      { s.syncStep.pwmStep with sync1 := c, sync2 := a, inputs := (s.withColumns a b c).inputs } :=
    pwmStep_withInputs s.syncStep c a (s.withColumns a b c).inputs
  rw [State.clocked, hpwm]
  rfl

/-- The cycle whose turn `f` gives ends with other columns as it ends without, but for the synchroniser. -/
def SameTurn (f : State → Turn) : Prop :=
  runTurn (s.withColumns a b c) (f (s.withColumns a b c)) = mapNext (·.withSync c a) (runTurn s (f s))

theorem waitTurn_sameTurn {leave : State → Host.Outcome State Fault Refusal} (h : IgnoresSync leave) :
    SameTurn s a b c (waitTurn · leave) := by
  simp only [SameTurn, waitTurn, withColumns_dcnt, withColumns_clocked]
  split
  · exact h s.clocked c a
  · rfl

theorem ksSettleTurn_sameTurn : SameTurn s a b c ksSettleTurn := by
  simp only [SameTurn, ksSettleTurn, withColumns_scnt, withColumns_clocked]
  split <;> rfl

theorem dispFetchTurn_sameTurn : SameTurn s a b c dispFetchTurn := by
  simp only [SameTurn, dispFetchTurn, withColumns_command, withColumns_clocked]
  cases s.command with
  | none => rfl
  | some w =>
    rw [runTurn, withColumns_clocked]
    exact exec_ignoresSync (decodeCmd w) s.clocked c a

theorem frEmitTurn_sameTurn : SameTurn s a b c frEmitTurn := by
  simp only [SameTurn, frEmitTurn, withColumns_pins_ledReady, withColumns_frPix, withColumns_cfg, withColumns_frKind,
    withColumns_frIdx, withColumns_clocked, frameDone_withSync]
  split
  · split
    · rfl
    · cases pixWord s.cfg s.frKind s.frIdx.toNat (s.frPix.toNat - 1) <;> rfl
  · rfl

theorem clocked_sameTurn : SameTurn s a b c (fun u => .phase (.next u.clocked)) := by
  simp only [SameTurn, withColumns_clocked]
  rfl

variable {s} in
/-- Outside KS_COL and KS_REL no turn reads the columns. -/
theorem turn_sameTurn (hcol : s.ph ≠ .ksCol) (hrel : s.ph ≠ .ksRel) : SameTurn s a b c turn := by
  cases hw : isWait s.ph with
  | true =>
    rw [SameTurn, turn_of_isWait hw, turn_of_isWait (s := s.withColumns a b c) hw]
    exact waitTurn_sameTurn s a b c (waitExit_ignoresSync s.ph)
  | false =>
    unfold SameTurn turn
    rw [withColumns_ph]
    cases hp : s.ph with
    | ksSettle => exact ksSettleTurn_sameTurn s a b c
    | dispFetch => exact dispFetchTurn_sameTurn s a b c
    | frEmit => exact frEmitTurn_sameTurn s a b c
    | halt | fault => exact clocked_sameTurn s a b c
    | ksCol => exact absurd hp hcol
    | ksRel => exact absurd hp hrel
    | idleWait | beepOn | beepGap | melOn | melGap | frStep | frHold | pauseW => rw [hp] at hw; cases hw

end

/-- Settles O46: a reset reads no columns, and any other step is the phase's turn. -/
theorem columnsReadOnlyInScan : Obligations.ColumnsReadOnlyInScan := by
  intro s t a b c hcol hrel hstep
  cases hr : s.pins.rst with
  | true =>
    rw [step_of_reset hr] at hstep
    obtain rfl := Host.Outcome.next.inj hstep
    exact ⟨s.onReset, step_of_reset (s := s.withColumns a b c) hr, rfl⟩
  | false =>
    have hturn := turn_sameTurn a b c hcol hrel
    rw [SameTurn, ← step_of_run hr, ← step_of_run (s := s.withColumns a b c) hr, hstep] at hturn
    exact ⟨t.withSync c a, hturn, rfl⟩

end Sys2Proof.Machine
end

section
/-! Exceptions and log pulses (spec 60_exceptions.md R210, R221). Every instruction and every phase rule answers a next state; the
one stop of the model is a read of a ROM at an index without an entry (log entry 8), which the frame registers' bounds exclude
(R33, R56). And without a reset the only way out of Idle is the release, which alone raises the log pulse (R105, R200). -/

namespace Sys2Proof.Machine

/-! ### No exception stops the block (R56, R210) -/

/-- Every instruction answers a next state, whatever its operands and the state. -/
theorem exec_answers (i : Instr) (s : State) : ∃ t, exec i s = .next t := by
  cases i with
  | beep n f d =>
    simp only [exec, execBeep]
    split <;> exact ⟨_, rfl⟩
  | keyNone | key1 | key2 | key3 | keyA | key4 | key5 | key6 | keyB | key7 | key8 | key9 | keyC | keyStar | key0 | keyHash
  | keyD | endProg | melody | letter | fill | pause | reboot | reservedOp7 => exact ⟨_, rfl⟩

/-- With the frame registers in their bounds, FR_EMIT answers a next state: the word that it offers next has its entries. -/
theorem frEmitTurn_answers {s : State} (hidx : s.frIdx.toNat ≤ 4) (hpix : s.frPix.toNat ≤ 24) :
    ∃ t, frEmitTurn s = .phase (.next t) := by
  have hword : (pixWord s.cfg s.frKind s.frIdx.toNat (s.frPix.toNat - 1)).isSome = true := by
    rw [pixWord_isSome, decide_eq_true hidx, decide_eq_true (by omega : s.frPix.toNat - 1 ≤ 24)]
    rfl
  obtain ⟨w, hw⟩ := Option.isSome_iff_exists.mp hword
  simp only [frEmitTurn, hw]
  split
  · split <;> exact ⟨_, rfl⟩
  · exact ⟨_, rfl⟩

/-- A phase that is no wait selects an instruction or answers a next state, FR_EMIT with the frame registers in their bounds. -/
theorem turn_answers {s : State} (hw : isWait s.ph = false) (hidx : s.frIdx.toNat ≤ 4) (hpix : s.frPix.toNat ≤ 24) :
    (∃ i, turn s = .instr i) ∨ ∃ t, turn s = .phase (.next t) := by
  unfold turn
  cases hp : s.ph with
  | ksSettle =>
    simp only [ksSettleTurn]
    split <;> exact .inr ⟨_, rfl⟩
  | ksCol =>
    simp only [ksColTurn]
    split
    · exact .inr ⟨_, rfl⟩
    · split
      · exact .inr ⟨_, rfl⟩
      · split
        · exact .inr ⟨_, rfl⟩
        · exact .inl ⟨_, rfl⟩
  | ksRel =>
    simp only [ksRelTurn]
    split
    · exact .inl ⟨_, rfl⟩
    · exact .inr ⟨_, rfl⟩
  | dispFetch =>
    simp only [dispFetchTurn]
    split
    · exact .inl ⟨_, rfl⟩
    · exact .inr ⟨_, rfl⟩
  | frEmit => exact .inr (frEmitTurn_answers hidx hpix)
  | halt | fault => exact .inr ⟨s.clocked, rfl⟩
  | idleWait | beepOn | beepGap | melOn | melGap | frStep | frHold | pauseW => rw [hp] at hw; cases hw

/-- Settles O39: a reset answers, a wait counts down or exits, and any other phase answers for itself or by its instruction. -/
theorem invariantStatesNeverStop : Obligations.InvariantStatesNeverStop := by
  intro s hinv
  obtain ⟨_, _, _, _, ⟨hpix, _, hidx, _⟩, _⟩ := hinv
  cases hr : s.pins.rst with
  | true => exact ⟨_, step_of_reset hr⟩
  | false =>
    cases hw : isWait s.ph with
    | true =>
      rcases Nat.lt_or_ge 1 s.dcnt.toNat with hd | hd
      · exact ⟨_, step_of_isWait_of_lt hw hr hd⟩
      · obtain ⟨t, hexit, _⟩ := waitExit_leaves s.clocked hw fun _ => by rwa [clocked_frIdx]
        exact ⟨t, (step_of_isWait_of_le hw hr hd).trans hexit⟩
    | false =>
      rw [step_of_run hr]
      obtain ⟨i, hturn⟩ | ⟨t, hturn⟩ := turn_answers hw hidx hpix
      · rw [hturn]
        exact exec_answers i s.clocked
      · exact ⟨t, by rw [hturn, runTurn]⟩

/-! ### The log pulse and the dispatch (R105, R200, R221) -/

/-- The cycle is the release of the scanned key, at which its code is dispatched (R105). -/
def Releases (s t : State) : Prop := s.ph = .ksRel ∧ t = s.clocked.dispatchKey (keyCodeOf s.ksR s.ksC)

theorem CommandMove.logCode {c t : State} {i : Instr} (hm : CommandMove c i t) : t.logCode = c.logCode := by
  cases hm with
  | ends | beepsNone | beeps | plays | startsLetter | startsFill | noLetter | noColor | pauses | reboots | reserved => rfl

/-- A move other than the release shows no log pulse and keeps the code of the last one. -/
theorem Move.log_of_not_releases {s t : State} (hm : Move s t) (hn : ¬ Releases s t) :
    t.logValid = false ∧ t.logCode = s.logCode := by
  have hc : s.clocked.logValid = false ∧ s.clocked.logCode = s.logCode := ⟨clocked_logValid s, clocked_logCode s⟩
  cases hm with
  | released hp => exact absurd ⟨hp, rfl⟩ hn
  | fetches _ _ hm => rwa [hm.logValid, hm.logCode]
  | frameDone => rw [frameDone_eq]; exact hc
  | waits | scanStarts | settles | settled | pressed | nextColumn | nextRow | noKey | held | overruns | beepEnds | beepsAgain
  | noteEnds | nextNote | commandDone | notReady | nextWord | replays | replayed | stops => exact hc

/-- Idle is left at the release only. -/
theorem Move.idle_of_not_releases {s t : State} (hm : Move s t) (hn : ¬ Releases s t) (hi : controlState s.ph = .idle) :
    controlState t.ph = .idle := by
  have hc : controlState s.clocked.ph = .idle := by rwa [clocked_ph]
  cases hm with
  | released hp => exact absurd ⟨hp, rfl⟩ hn
  | scanStarts | settled | pressed | nextRow | noKey => rfl
  | waits | settles | nextColumn | held | notReady | nextWord | stops => exact hc
  | overruns hp | fetches hp | beepEnds hp | beepsAgain hp | noteEnds hp | nextNote hp | frameDone hp | replays hp
  | replayed hp => rw [hp] at hi; cases hi
  | commandDone hp => rcases hp with ⟨hp, _⟩ | ⟨hp, _⟩ | hp | hp <;> rw [hp] at hi <;> cases hi

/-- Settles O45: the release raises the pulse and leaves Idle for Dispatching, and no other move does either. -/
theorem logPulseMarksDispatch : Obligations.LogPulseMarksDispatch := by
  intro s t hr hstep
  have hm := move_of_step hr hstep
  by_cases hrel : Releases s t
  · obtain ⟨hp, rfl⟩ := hrel
    exact ⟨iff_of_true rfl ⟨by rw [hp]; rfl, rfl⟩, fun _ => ⟨hp, rfl, rfl, rfl, rfl⟩, nofun⟩
  · obtain ⟨hdown, hcode⟩ := hm.log_of_not_releases hrel
    have hup : ¬ t.logValid = true := by simp [hdown]
    have hstays : ¬ (controlState s.ph = .idle ∧ controlState t.ph = .dispatching) := fun ⟨hi, hd⟩ =>
      absurd ((hm.idle_of_not_releases hrel hi).symm.trans hd) nofun
    exact ⟨iff_of_false hup hstays, fun h => absurd h hup, fun _ => hcode⟩

end Sys2Proof.Machine
end

section
/-! The reset edge (spec 70_reset_and_hazards.md R230). `rst` overrides the phase rules, so the step does not read the state but
for its configuration and the model's own input queue and cycle counter. -/

namespace Sys2Proof.Machine

/-- Settles O33: under `rst` the step is `State.onReset`, and what that loads is the register table. -/
theorem resetEdgeLoadsResetValues : Obligations.ResetEdgeLoadsResetValues := by
  intro s hr
  refine ⟨s.inputs.tail, s.cycle + 1, ?_⟩
  rw [step_of_reset hr, State.onReset, State.resetWith]

end Sys2Proof.Machine
end
